-- ==== Sys2Proof/Word.lean ====
section
/-! DEFINITION. The words of the display controller block: bytes, 16-bit fields, descriptors, wire symbols. -/

namespace Sys2Proof

/-- One byte, as it goes over the bus (00_scope.md R10). -/
abbrev Byte := BitVec 8

/-- A 16-bit operand field of a descriptor (30_encoding.md R71); also one pixel (20_memory.md R59). -/
abbrev Field := BitVec 16

/-- A 16-bit RGB565 pixel value, opaque to the block (20_memory.md R59). -/
abbrev Pixel := BitVec 16

/-- A 72-bit operation descriptor (30_encoding.md R71). -/
abbrev Descriptor := BitVec 72

/-- A 9-bit wire symbol: bit 8 says command (0) or data (1), bits 7:0 are the byte (30_encoding.md R78). -/
abbrev Symbol := BitVec 9

end Sys2Proof
end

