-- ==== Sys2Proof/Config.lean ====
section
/-! DEFINITION. The configuration record of 00_scope.md R5, the reset configuration, and the free values. -/

namespace Sys2Proof

/-- A logic level, 0 or 1 (10_state.md section 1). -/
inductive Level where
  | low
  | high
  deriving DecidableEq, Repr

/-- "either Present(driver) or Absent" (10_state.md R24). -/
inductive Presence where
  | present
  | absent
  deriving DecidableEq, Repr

/-- The clock mode of the bus, "fixed clock-phase/polarity mode" (00_scope.md R5 `BUS_MODE`, OPEN). No rule reads it. -/
structure BusMode where
  polarity : Bool
  phase : Bool
  deriving DecidableEq, Repr

/-- The seven panel commands the document names (30_encoding.md R80), each a parameter. -/
structure PanelCommands where
  slpout : Byte
  colmod : Byte
  madctl : Byte
  caset : Byte
  raset : Byte
  ramwr : Byte
  dispon : Byte
  deriving DecidableEq, Repr

/-- One step of the bring-up sequence: command, parameter bytes, wait in microseconds (30_encoding.md R83). -/
structure InitStep where
  cmd : Byte
  data : List Byte
  waitUs : Nat
  deriving DecidableEq, Repr

/-- `ORIENT_BITS`: one byte per orientation (30_encoding.md R85). -/
structure OrientTable where
  portrait : Byte
  landscape : Byte
  landscapeMirrored : Byte
  portraitMirrored : Byte
  deriving DecidableEq, Repr

/-- The configuration record (00_scope.md R5), fixed at construction (10_state.md R20). -/
structure Cfg where
  /-- `PANEL_W`, `PANEL_H`: bounds of an address window (10_state.md R20, R23). -/
  panelW : Nat
  panelH : Nat
  /-- `N_FB`: number of framebuffers (10_state.md R36). -/
  nFb : Nat
  /-- `FB_W`, `FB_H`: size of every framebuffer (42_framebuffer.md R134). -/
  fbW : Nat
  fbH : Nat
  /-- `SWAP_BYTES[k]`, k from 0 (20_memory.md R52). -/
  swapBytes : List Bool
  rstRole : Presence
  dcRole : Presence
  blRole : Presence
  csRole : Presence
  /-- The secondary data pin; nothing uses it (92_eei_decisions.md D34). -/
  sdiRole : Presence
  busHz : Nat
  busMode : BusMode
  /-- `BUS_QUEUE_DEPTH`; not observable (10_state.md R31). -/
  busQueueDepth : Nat
  /-- `DMA_ALIGN`; no access can be misaligned (20_memory.md R56). -/
  dmaAlign : Nat
  /-- `T_RST_LOW`, `T_RST_SETTLE` in microseconds (41_controller.md R110). -/
  tRstLow : Nat
  tRstSettle : Nat
  initSeq : List InitStep
  cmds : PanelCommands
  /-- `COLMOD_RGB565` (30_encoding.md R82). -/
  colmodRgb565 : Byte
  orientBits : OrientTable
  colorBgr : Bool
  dcCmdLevel : Level
  blOnLevel : Level
  csActiveLevel : Level
  deriving DecidableEq, Repr

/-- The default command bytes of 30_encoding.md R80. PRESUMED by the spec itself (G1), log 8; unsafe. -/
def PanelCommands.default : PanelCommands :=
  { slpout := 0x11, colmod := 0x3A, madctl := 0x36, caset := 0x2A, raset := 0x2B, ramwr := 0x2C, dispon := 0x29 }

/-- `DEFAULT_INIT_SEQ` of 30_encoding.md R83. PRESUMED by the spec itself (G2), log 8; unsafe. -/
def defaultInitSeq : List InitStep :=
  [⟨0x11, [], 120000⟩, ⟨0x3A, [0x55], 0⟩, ⟨0x29, [], 0⟩]

/-- The configuration of `State.reset`: `CFG320` of 95_test_vectors.md with the defaults of 00_scope.md R5.
DESIGN CHOICE where R5 says "argument" or OPEN (log 7), PRESUMED where R5's default is general knowledge (log 8);
unsafe. -/
def Cfg.default : Cfg :=
  { panelW := 320, panelH := 240, nFb := 2, fbW := 320, fbH := 240, swapBytes := [false, false]
    rstRole := .present, dcRole := .present, blRole := .present, csRole := .present, sdiRole := .present
    busHz := 80000000, busMode := ⟨false, false⟩, busQueueDepth := 1, dmaAlign := 4
    tRstLow := 10, tRstSettle := 120000, initSeq := defaultInitSeq, cmds := PanelCommands.default
    colmodRgb565 := 0x55, orientBits := ⟨0x00, 0x60, 0xA0, 0xC0⟩, colorBgr := false
    dcCmdLevel := .low, blOnLevel := .high, csActiveLevel := .low }

/-- FREE VALUE (log 5). The bytes a transfer sends for pixels nothing has written: 20_memory.md R55, "A model draws
them freely at each transfer". Applied to the counter `freeCount` of State; it has no body, so nothing can be proved
about a value of it. -/
opaque Config.freeByte : Nat → Byte

end Sys2Proof
end

