-- ==== Sys2Proof/Syntax.lean ====
section
/-! DEFINITION. The instructions: one constructor per row of spec/opcode_table.json, and their encoded forms. -/

namespace Sys2Proof

/-- `Orientation`, exactly four members (10_state.md R22). -/
inductive Orientation where
  | portrait
  | landscape
  | landscapeMirrored
  | portraitMirrored
  deriving DecidableEq, Repr

/-- The operations: nine of the host (30_encoding.md R72), two of the Command Protocol engine (40_protocol.md R103,
R104), and the seven panel command symbols (30_encoding.md R80). -/
inductive Instr where
  /-- `HARD_RESET`, format N (R73, R110). -/
  | hardReset
  /-- `INIT`, format N (R73, R111). -/
  | init
  /-- `SET_ORIENTATION`, format O (R74, R112). -/
  | setOrientation (mode : Orientation)
  /-- `SET_ADDRESS_WINDOW`, format W (R75, R113). -/
  | setAddressWindow (x0 y0 x1 y1 : Field)
  /-- `EAT_FRAMEBUFFER`, format B (R76, R114). -/
  | eatFramebuffer (k : Field)
  /-- `SET_BACKLIGHT`, format L (R74, R115). -/
  | setBacklight (on : Bool)
  /-- `FB_SET_PIXEL_XY`, format P (R76, R130). -/
  | fbSetPixelXy (k x y : Field) (color : Pixel)
  /-- `FB_SET_PIXEL_RAW`, format R (R76, R131): a 32-bit pixel index. -/
  | fbSetPixelRaw (k : Field) (offset : BitVec 32) (color : Pixel)
  /-- `FB_CLEAR`, format C (R76, R132). -/
  | fbClear (k : Field) (color : Pixel)
  /-- `SEND_COMMAND` (R103): one command byte. -/
  | sendCommand (c : Byte)
  /-- `SEND_DATA` (R104): a list of at least one byte, the first and the rest. -/
  | sendData (b : Byte) (more : List Byte)
  /-- `WIRE_SLPOUT`: sleep-out (R80). -/
  | wireSlpout
  /-- `WIRE_COLMOD`: pixel-format-set (R80). -/
  | wireColmod
  /-- `WIRE_DISPON`: display-on (R80). -/
  | wireDispon
  /-- `WIRE_MADCTL`: orientation (R80). -/
  | wireMadctl
  /-- `WIRE_CASET`: column-address-set (R80). -/
  | wireCaset
  /-- `WIRE_RASET`: row-address-set (R80). -/
  | wireRaset
  /-- `WIRE_RAMWR`: memory-write (R80). -/
  | wireRamwr
  deriving DecidableEq, Repr

/-- An operation in encoded form: a descriptor of the host (30_encoding.md R71), or the symbols of one burst of the
Command Protocol engine (30_encoding.md R78, R79). -/
inductive Code where
  | descriptor (d : Descriptor)
  | burst (symbols : List Symbol)
  deriving DecidableEq, Repr

end Sys2Proof
end

