-- ==== Sys2Proof/WellFormed.lean ====
section
/-! DEFINITION. Well-formed instructions: those that are the reading of their own encoding. -/

namespace Sys2Proof

/-- The seven command bytes as a list, in the order of the table in 30_encoding.md R80. -/
def PanelCommands.bytes (c : PanelCommands) : List Byte :=
  [c.slpout, c.colmod, c.madctl, c.caset, c.raset, c.ramwr, c.dispon]

/-- "The seven values must be pairwise distinct" (30_encoding.md R80). -/
abbrev PanelCommands.distinct (c : PanelCommands) : Prop := c.bytes.Nodup

/-- The check on an instruction under a command set: a `SEND_COMMAND` of one of the seven named bytes has the words of
that command's own row, so the well-formed instruction with those words is the named one (log 11). Every other
operand value of every row is a legal encoding (30_encoding.md R75, R76, R77). -/
def Instr.wf (cmds : PanelCommands) : Instr → Bool
  | .hardReset => true
  | .init => true
  | .setOrientation _ => true
  | .setAddressWindow _ _ _ _ => true
  | .eatFramebuffer _ => true
  | .setBacklight _ => true
  | .fbSetPixelXy _ _ _ _ => true
  | .fbSetPixelRaw _ _ _ => true
  | .fbClear _ _ => true
  | .sendCommand c => !cmds.bytes.contains c
  | .sendData _ _ => true
  | .wireSlpout => true
  | .wireColmod => true
  | .wireDispon => true
  | .wireMadctl => true
  | .wireCaset => true
  | .wireRaset => true
  | .wireRamwr => true

end Sys2Proof
end

