-- ==== Sys2Proof/Decode.lean ====
section
/-! DEFINITION. The decoder of descriptors and of engine bursts, total and rejecting by name; after it the encoder. -/

namespace Sys2Proof

/-- `hi8(v) = v[15:8]` (00_scope.md R9). -/
def hi8 (v : BitVec 16) : Byte := v.extractLsb' 8 8

/-- `lo8(v) = v[7:0]` (00_scope.md R9). -/
def lo8 (v : BitVec 16) : Byte := v.extractLsb' 0 8

/-! ## Fields of a descriptor (30_encoding.md R71) -/

def opField (d : Descriptor) : Byte := d.extractLsb' 64 8
def a0Field (d : Descriptor) : Field := d.extractLsb' 48 16
def a1Field (d : Descriptor) : Field := d.extractLsb' 32 16
def a2Field (d : Descriptor) : Field := d.extractLsb' 16 16
def a3Field (d : Descriptor) : Field := d.extractLsb' 0 16

/-- `{op, a0, a1, a2, a3}` (30_encoding.md R71). -/
def packDescriptor (op : Byte) (a0 a1 a2 a3 : Field) : Descriptor := op ++ a0 ++ a1 ++ a2 ++ a3

/-- The nine bytes of a descriptor, most significant first (30_encoding.md R71). -/
def descriptorBytes (d : Descriptor) : List Byte :=
  [opField d, hi8 (a0Field d), lo8 (a0Field d), hi8 (a1Field d), lo8 (a1Field d),
   hi8 (a2Field d), lo8 (a2Field d), hi8 (a3Field d), lo8 (a3Field d)]

/-- A descriptor from its bytes; "There is exactly one length" (30_encoding.md R71). -/
def descriptorOfBytes : List Byte → Option Descriptor
  | [op, h0, l0, h1, l1, h2, l2, h3, l3] =>
    some (packDescriptor op (h0 ++ l0) (h1 ++ l1) (h2 ++ l2) (h3 ++ l3))
  | _ => none

/-! ## Symbols (30_encoding.md R78) -/

def commandSymbol (c : Byte) : Symbol := (0#1) ++ c
def dataSymbol (b : Byte) : Symbol := (1#1) ++ b

/-- Bit 8 of a symbol: 1 is data, 0 is command. -/
def isDataSymbol (y : Symbol) : Bool := y.getLsbD 8

/-- Bits 7:0 of a symbol. -/
def symbolByte (y : Symbol) : Byte := y.extractLsb' 0 8

/-! ## Operand codes -/

/-- Format O: 0 Portrait, 1 Landscape, 2 LandscapeMirrored, 3 PortraitMirrored (30_encoding.md R74). -/
def orientationCode : Orientation → Field
  | .portrait => 0
  | .landscape => 1
  | .landscapeMirrored => 2
  | .portraitMirrored => 3

/-- `mode` of format O from the whole of `a0`, whose bits 15:2 must be zero (30_encoding.md R74). -/
def orientationOf (a0 : Field) : Option Orientation :=
  if a0 = 0 then some .portrait
  else if a0 = 1 then some .landscape
  else if a0 = 2 then some .landscapeMirrored
  else if a0 = 3 then some .portraitMirrored
  else none

/-- `on` of format L (30_encoding.md R74). -/
def onCode (on : Bool) : Field := if on then 1 else 0

/-- `on` from the whole of `a0`, whose bits 15:1 must be zero (30_encoding.md R74). -/
def onOf (a0 : Field) : Option Bool :=
  if a0 = 0 then some false else if a0 = 1 then some true else none

/-! ## Decoding -/

/-- Why a code is no operation. The first two are the cases (a), (b) of an illegal descriptor (30_encoding.md R77);
the last two are symbol lists that no engine call makes (30_encoding.md R79). -/
inductive DecodeError where
  | unknownOpcode
  | mustBeZero
  | emptyBurst
  | mixedBurst
  deriving DecidableEq, Repr

/-- 30_encoding.md R91: "read `op`; look it up in rule R72; if absent, illegal; otherwise check the must-be-zero
fields of its format; if any is nonzero, illegal; otherwise extract the operands". -/
def decodeDescriptor (d : Descriptor) : Except DecodeError Instr :=
  let op := opField d
  let a0 := a0Field d
  let a1 := a1Field d
  let a2 := a2Field d
  let a3 := a3Field d
  if op = 0x01 then
    if a0 = 0 ∧ a1 = 0 ∧ a2 = 0 ∧ a3 = 0 then .ok .hardReset else .error .mustBeZero
  else if op = 0x02 then
    if a0 = 0 ∧ a1 = 0 ∧ a2 = 0 ∧ a3 = 0 then .ok .init else .error .mustBeZero
  else if op = 0x03 then
    match orientationOf a0 with
    | some m => if a1 = 0 ∧ a2 = 0 ∧ a3 = 0 then .ok (.setOrientation m) else .error .mustBeZero
    | none => .error .mustBeZero
  else if op = 0x04 then .ok (.setAddressWindow a0 a1 a2 a3)
  else if op = 0x05 then
    if a1 = 0 ∧ a2 = 0 ∧ a3 = 0 then .ok (.eatFramebuffer a0) else .error .mustBeZero
  else if op = 0x06 then
    match onOf a0 with
    | some on => if a1 = 0 ∧ a2 = 0 ∧ a3 = 0 then .ok (.setBacklight on) else .error .mustBeZero
    | none => .error .mustBeZero
  else if op = 0x10 then .ok (.fbSetPixelXy a0 a1 a2 a3)
  else if op = 0x11 then .ok (.fbSetPixelRaw a0 (a1 ++ a2) a3)
  else if op = 0x12 then
    if a1 = 0 ∧ a2 = 0 then .ok (.fbClear a0 a3) else .error .mustBeZero
  else .error .unknownOpcode

/-- A command byte is its named row where it is one of the seven, and a plain `SEND_COMMAND` otherwise (log 11). -/
def decodeCommand (cmds : PanelCommands) (c : Byte) : Instr :=
  if c = cmds.slpout then .wireSlpout
  else if c = cmds.colmod then .wireColmod
  else if c = cmds.dispon then .wireDispon
  else if c = cmds.madctl then .wireMadctl
  else if c = cmds.caset then .wireCaset
  else if c = cmds.raset then .wireRaset
  else if c = cmds.ramwr then .wireRamwr
  else .sendCommand c

/-- The symbols of one burst: one command symbol, or one or more data symbols (30_encoding.md R79, 40_protocol.md
R103, R104). -/
def decodeBurst (cmds : PanelCommands) : List Symbol → Except DecodeError Instr
  | [] => .error .emptyBurst
  | y :: rest =>
    if isDataSymbol y then
      if rest.all isDataSymbol then .ok (.sendData (symbolByte y) (rest.map symbolByte)) else .error .mixedBurst
    else
      match rest with
      | [] => .ok (decodeCommand cmds (symbolByte y))
      | _ :: _ => .error .mixedBurst

/-- The decoder, total: the operation of a code, or the name of the reason why it is none. -/
def decode (cmds : PanelCommands) : Code → Except DecodeError Instr
  | .descriptor d => decodeDescriptor d
  | .burst symbols => decodeBurst cmds symbols

/-! ## Encoding -/

/-- The opcode byte of the host's operations; the engine's calls have none (30_encoding.md R72). -/
def Instr.opcode : Instr → Option Byte
  | .hardReset => some 0x01
  | .init => some 0x02
  | .setOrientation _ => some 0x03
  | .setAddressWindow _ _ _ _ => some 0x04
  | .eatFramebuffer _ => some 0x05
  | .setBacklight _ => some 0x06
  | .fbSetPixelXy _ _ _ _ => some 0x10
  | .fbSetPixelRaw _ _ _ => some 0x11
  | .fbClear _ _ => some 0x12
  | .sendCommand _ => none
  | .sendData _ _ => none
  | .wireSlpout => none
  | .wireColmod => none
  | .wireDispon => none
  | .wireMadctl => none
  | .wireCaset => none
  | .wireRaset => none
  | .wireRamwr => none

/-- The encoder, from the formats of 30_encoding.md R73 to R76 and the symbols of R78. -/
def encode (cmds : PanelCommands) : Instr → Code
  | .hardReset => .descriptor (packDescriptor 0x01 0 0 0 0)
  | .init => .descriptor (packDescriptor 0x02 0 0 0 0)
  | .setOrientation mode => .descriptor (packDescriptor 0x03 (orientationCode mode) 0 0 0)
  | .setAddressWindow x0 y0 x1 y1 => .descriptor (packDescriptor 0x04 x0 y0 x1 y1)
  | .eatFramebuffer k => .descriptor (packDescriptor 0x05 k 0 0 0)
  | .setBacklight on => .descriptor (packDescriptor 0x06 (onCode on) 0 0 0)
  | .fbSetPixelXy k x y color => .descriptor (packDescriptor 0x10 k x y color)
  | .fbSetPixelRaw k offset color =>
    .descriptor (packDescriptor 0x11 k (offset.extractLsb' 16 16) (offset.extractLsb' 0 16) color)
  | .fbClear k color => .descriptor (packDescriptor 0x12 k 0 0 color)
  | .sendCommand c => .burst [commandSymbol c]
  | .sendData b more => .burst ((b :: more).map dataSymbol)
  | .wireSlpout => .burst [commandSymbol cmds.slpout]
  | .wireColmod => .burst [commandSymbol cmds.colmod]
  | .wireDispon => .burst [commandSymbol cmds.dispon]
  | .wireMadctl => .burst [commandSymbol cmds.madctl]
  | .wireCaset => .burst [commandSymbol cmds.caset]
  | .wireRaset => .burst [commandSymbol cmds.raset]
  | .wireRamwr => .burst [commandSymbol cmds.ramwr]

/-! ## The opcode table -/

/-- Opcode, match and mask of each host operation (30_encoding.md R91). -/
def descriptorRows : List (Byte × Descriptor × Descriptor) :=
  [(0x01, 0x010000000000000000, 0xFFFFFFFFFFFFFFFFFF),
   (0x02, 0x020000000000000000, 0xFFFFFFFFFFFFFFFFFF),
   (0x03, 0x030000000000000000, 0xFFFFFCFFFFFFFFFFFF),
   (0x04, 0x040000000000000000, 0xFF0000000000000000),
   (0x05, 0x050000000000000000, 0xFF0000FFFFFFFFFFFF),
   (0x06, 0x060000000000000000, 0xFFFFFEFFFFFFFFFFFF),
   (0x10, 0x100000000000000000, 0xFF0000000000000000),
   (0x11, 0x110000000000000000, 0xFF0000000000000000),
   (0x12, 0x120000000000000000, 0xFF0000FFFFFFFF0000)]

/-- A word as spec/opcode_table.json numbers it, laid out as the machine is handed it (log 23): a row of 9 bits is one
symbol, a row of 72 bits one descriptor. A number too large for its row is laid out as a code that is no operation. -/
def tableCode (nbits w : Nat) : Code :=
  if nbits ≤ 16 then
    if w < 512 then .burst [BitVec.ofNat 9 w] else .burst []
  else
    if w < 4722366482869645213696 then .descriptor (BitVec.ofNat 72 w) else .descriptor 0

/-- The instruction the decoder reads from a table word, under the default command bytes (which are the table's). -/
def decodeTableWord (nbits w : Nat) : Option Instr :=
  match decode PanelCommands.default (tableCode nbits w) with
  | .ok i => some i
  | .error _ => none

end Sys2Proof
end

