-- ==== Sys2Proof/Machine/State.lean ====
section
/-! DEFINITION. The state of the block, its reset, and the reasons a step can stop. -/

namespace Sys2Proof.Machine

/-- `DisplayState`, exactly four values in this order (10_state.md R21). -/
inductive DisplayState where
  | uninitialized
  | reset
  | initialized
  | ready
  deriving DecidableEq, Repr

/-- The output latch of a pin: "the level last driven successfully, or `Unknown`" (10_state.md R25). -/
inductive Latch where
  | unknown
  | driven (level : Level)
  deriving DecidableEq, Repr

/-- The pin roles `drive` takes (40_protocol.md R100). -/
inductive PinRole where
  | rst
  | dc
  | bl
  deriving DecidableEq, Repr

/-- The events of the output trace (10_state.md R28). -/
inductive Event where
  /-- `Pin(role, level)` -/
  | pin (role : PinRole) (level : Level)
  /-- `PinFail(role, level)` -/
  | pinFail (role : PinRole) (level : Level)
  /-- `Wait(t)`, microseconds -/
  | wait (t : Nat)
  /-- `Tx(bs)` -/
  | tx (bs : List Byte)
  /-- `TxFail(bs, k)` -/
  | txFail (bs : List Byte) (k : Nat)
  deriving DecidableEq, Repr

/-- `AddressWindow` (10_state.md R23), both corners inclusive. -/
structure AddressWindow where
  x0 : Field
  y0 : Field
  x1 : Field
  y1 : Field
  deriving DecidableEq, Repr

/-- The result of an operation (60_exceptions.md R151). -/
inductive Result where
  | ok
  | invalidState
  | invalidWindow
  | transportBus
  | transportPin
  | configMissingPin
  | illegalOperation
  | outOfBounds
  | invalidBuffer
  | halted
  deriving DecidableEq, Repr

/-- The environment's answer to a pin drive (40_protocol.md R100). -/
inductive PinAnswer where
  | ok
  | fail
  deriving DecidableEq, Repr

/-- The environment's answer to a bus write: success, failure after k bytes, or never (40_protocol.md R102). -/
inductive BusAnswer where
  | ok
  | fail (k : Nat)
  | never
  deriving DecidableEq, Repr

/-- The answers the environment will give, next one first; an exhausted list answers Ok (log 2). These are inputs of
the step relation (10_state.md R37 c). -/
structure Environment where
  pins : List PinAnswer
  bus : List BusAnswer
  deriving DecidableEq, Repr

/-- The pixel store: (cell address, pixel), addresses strictly rising; a cell that is not listed is `Unknown`
(10_state.md R36, log 14, log 15). -/
abbrev Memory := List (Nat × Pixel)

/-- The block: the record of 10_state.md section 1, its configuration, and the inputs and outputs of a step. -/
structure State where
  /-- The configuration, constant (10_state.md R20). -/
  cfg : Cfg
  /-- R21 -/
  ds : DisplayState
  /-- R26 -/
  halted : Bool
  /-- R25 -/
  rstOut : Latch
  dcOut : Latch
  blOut : Latch
  /-- R30, shadow -/
  win : Option AddressWindow
  ramwrOpen : Bool
  /-- R36 -/
  px : Memory
  /-- R28, oldest first -/
  trace : List Event
  /-- Input: the descriptors the host has still to issue (R37 b, log 1). The host issues nothing else: a call of the
  engine has no descriptor (40_protocol.md R105). -/
  pending : List Descriptor
  /-- The model's own: the symbols of calls the Command Protocol engine is to run by themselves, outside any operation of
  the controller. No request of the host and no operation puts one there (40_protocol.md R105, log 10). -/
  engineCalls : List (List Symbol)
  /-- Input: what the environment will answer (R37 c, log 2). -/
  env : Environment
  /-- Output: the result most recently handed to the host (60_exceptions.md R150, log 3). -/
  reply : Option Result
  /-- The model's own: how many free bytes transfers have drawn (20_memory.md R55, log 5). -/
  freeCount : Nat
  deriving DecidableEq, Repr

/-- The state after block reset with a configuration (10_state.md R39). The inputs are empty and the output is none:
nothing has been issued, answered or returned (log 1, log 2, log 3), and no engine call is to run by itself (log 10);
`freeCount` is a DESIGN CHOICE (log 5). -/
def State.initial (cfg : Cfg) : State :=
  { cfg := cfg, ds := .uninitialized, halted := false
    rstOut := .unknown, dcOut := .unknown, blOut := .unknown
    win := none, ramwrOpen := false, px := [], trace := []
    pending := [], engineCalls := [], env := ⟨[], []⟩, reply := none, freeCount := 0 }

/-- The machine right after reset, constructed from the configuration of log 7 and log 8. -/
def State.reset : State := State.initial Cfg.default

/-- Why the machine stops. -/
inductive Fault where
  /-- Raised by `bus_write` when the environment never completes the transaction: "the block makes no further step"
  (40_protocol.md R102, 60_exceptions.md R155; 93_implementation_defined.md U3, stuck). It carries the state in which
  the block is stuck for ever. Safe: the hardware does not go on either (log 4). -/
  | busStalled (stuckIn : State)
  deriving DecidableEq, Repr

/-- Why the model gives no meaning. -/
inductive Refusal where
  /-- Raised by `exec` for an instruction without a meaning; no arm raises it. Safe. -/
  | notModelled (mnemonic : String)
  /-- Raised by the step on a list of symbols that no call of `send_command` or `send_data` makes (an empty list, or
  a command symbol beside another symbol): the spec knows no such burst (30_encoding.md R79, 40_protocol.md R103,
  R104; log 13). Safe. -/
  | notABurst
  deriving DecidableEq, Repr

end Sys2Proof.Machine
end

