-- ==== Sys2Proof/Machine/Operands.lean ====
section
/-! DEFINITION. Operand forms: what an operation computes from its operands and the configuration. -/

namespace Sys2Proof.Machine

/-- The other level: `1 - level` (40_protocol.md R104). -/
def flipLevel : Level → Level
  | .low => .high
  | .high => .low

/-- The role of a pin in the configuration (10_state.md R24). -/
def rolePresence (cfg : Cfg) : PinRole → Presence
  | .rst => cfg.rstRole
  | .dc => cfg.dcRole
  | .bl => cfg.blRole

/-- The electrical level that means "data": the complement of `DC_CMD_LEVEL` (30_encoding.md R78). -/
def dcDataLevel (cfg : Cfg) : Level := flipLevel cfg.dcCmdLevel

/-- The level `set_backlight` drives (41_controller.md R115). -/
def backlightLevel (cfg : Cfg) (on : Bool) : Level :=
  if on then cfg.blOnLevel else flipLevel cfg.blOnLevel

/-- `ORIENT_BITS(mode)` (30_encoding.md R85). -/
def orientBitsOf (t : OrientTable) : Orientation → Byte
  | .portrait => t.portrait
  | .landscape => t.landscape
  | .landscapeMirrored => t.landscapeMirrored
  | .portraitMirrored => t.portraitMirrored

/-- `MADCTL_OF(mode) = ORIENT_BITS(mode) | (0x08 if COLOR_BGR else 0x00)` (30_encoding.md R85). -/
def madctlOf (cfg : Cfg) (mode : Orientation) : Byte :=
  orientBitsOf cfg.orientBits mode ||| (if cfg.colorBgr then 0x08 else 0x00)

/-- `CASET_PARAMS(x0, x1)` and `RASET_PARAMS(y0, y1)`: start then end, each most significant byte first
(30_encoding.md R86). -/
def addressParams (first last : Field) : List Byte := [hi8 first, lo8 first, hi8 last, lo8 last]

/-- A window is valid when `x0 <= x1 < PANEL_W` and `y0 <= y1 < PANEL_H` (10_state.md R23); unsigned, on naturals
(20_memory.md R60). -/
def windowValid (cfg : Cfg) (w : AddressWindow) : Bool :=
  decide (w.x0.toNat ≤ w.x1.toNat ∧ w.x1.toNat < cfg.panelW ∧ w.y0.toNat ≤ w.y1.toNat ∧ w.y1.toNat < cfg.panelH)

/-- Width and height of a window, both corners inclusive (10_state.md R23). -/
def windowWidth (w : AddressWindow) : Nat := w.x1.toNat - w.x0.toNat + 1
def windowHeight (w : AddressWindow) : Nat := w.y1.toNat - w.y0.toNat + 1

/-- The extent of a window: the pixels it covers (10_state.md R23). -/
def windowExtent (w : AddressWindow) : Nat := windowWidth w * windowHeight w

/-- The number of cells of a framebuffer, `FB_W * FB_H` (20_memory.md R50). -/
def fbSize (cfg : Cfg) : Nat := cfg.fbW * cfg.fbH

/-- Row-major pixel index `y * FB_W + x` (20_memory.md R51), on naturals (R60). -/
def pixelIndex (cfg : Cfg) (x y : Field) : Nat := y.toNat * cfg.fbW + x.toNat

/-- `x < FB_W and y < FB_H`: each checked separately (42_framebuffer.md R130). -/
def positionInRange (cfg : Cfg) (x y : Field) : Bool := decide (x.toNat < cfg.fbW ∧ y.toNat < cfg.fbH)

/-- `offset < FB_W * FB_H` (42_framebuffer.md R131). -/
def offsetInRange (cfg : Cfg) (offset : BitVec 32) : Bool := decide (offset.toNat < fbSize cfg)

/-- `k < N_FB` (60_exceptions.md R151 `InvalidBuffer`). -/
def bufferExists (cfg : Cfg) (k : Field) : Bool := decide (k.toNat < cfg.nFb)

/-- `SWAP_BYTES[k]` (20_memory.md R52). -/
def swapOf (cfg : Cfg) (k : Nat) : Bool := cfg.swapBytes.getD k false

/-- The two view bytes of a pixel: more significant first, exchanged when the framebuffer swaps (20_memory.md R52). -/
def pixelBytes (swap : Bool) (v : Pixel) : List Byte := if swap then [lo8 v, hi8 v] else [hi8 v, lo8 v]

/-- The fields of an RGB565 pixel: red `v[15:11]`, green `v[10:5]`, blue `v[4:0]` (20_memory.md R59; the positions are
the spec's general knowledge G8, log 8). No rule depends on them. -/
def pixelRed (v : Pixel) : BitVec 5 := v.extractLsb' 11 5
def pixelGreen (v : Pixel) : BitVec 6 := v.extractLsb' 5 6
def pixelBlue (v : Pixel) : BitVec 5 := v.extractLsb' 0 5

/-- The address of cell i of framebuffer k in the pixel store: the framebuffers one after the other (log 14). -/
def cellAddr (cfg : Cfg) (k i : Nat) : Nat := k * fbSize cfg + i

/-- The numeric code of a result (60_exceptions.md R151). -/
def resultCode : Result → Byte
  | .ok => 0x00
  | .invalidState => 0x01
  | .invalidWindow => 0x02
  | .transportBus => 0x03
  | .transportPin => 0x04
  | .configMissingPin => 0x05
  | .illegalOperation => 0x06
  | .outOfBounds => 0x07
  | .invalidBuffer => 0x08
  | .halted => 0x09

/-- Class (a), precondition errors, with the spec's extensions (60_exceptions.md R151, R152). -/
def Result.isPrecondition : Result → Bool
  | .invalidState => true
  | .invalidWindow => true
  | .illegalOperation => true
  | .outOfBounds => true
  | .invalidBuffer => true
  | .halted => true
  | .ok => false
  | .transportBus => false
  | .transportPin => false
  | .configMissingPin => false

/-- Class (b), transport errors (60_exceptions.md R151, R154). -/
def Result.isTransport : Result → Bool
  | .transportBus => true
  | .transportPin => true
  | .ok => false
  | .invalidState => false
  | .invalidWindow => false
  | .configMissingPin => false
  | .illegalOperation => false
  | .outOfBounds => false
  | .invalidBuffer => false
  | .halted => false

/-- The number of `ds` where a model needs one (10_state.md R21). -/
def dsNumber : DisplayState → Nat
  | .uninitialized => 0
  | .reset => 1
  | .initialized => 2
  | .ready => 3

end Sys2Proof.Machine
end

