-- ==== Sys2Proof/Machine/Flags.lean ====
section
/-! DEFINITION. The flags and the shadow state: `halted`, `ramwr_open`, `win`. There are no condition codes
(10_state.md section 5), so these are every flag computation the spec gives. -/

namespace Sys2Proof.Machine

/-- `halted` "becomes true when any operation ends with a transport error" (10_state.md R26). -/
def setHalted (s : State) : State := { s with halted := true }

/-- `win <- None; ramwr_open <- false`, with `ds <- Reset`: the commit of `hard_reset` (41_controller.md R110). -/
def commitReset (s : State) : State := { s with ds := .reset, win := none, ramwrOpen := false }

/-- `ds <- Initialized; ramwr_open <- false`: the commit of `init` (41_controller.md R111). -/
def commitInit (s : State) : State := { s with ds := .initialized, ramwrOpen := false }

/-- `ramwr_open <- false`: the commit of `set_orientation`, which leaves `ds` and `win` (41_controller.md R112). -/
def commitOrientation (s : State) : State := { s with ramwrOpen := false }

/-- `ds <- Ready; win <- Some w; ramwr_open <- true`: the commit of `set_address_window` (41_controller.md R113). -/
def commitWindow (w : AddressWindow) (s : State) : State := { s with ds := .ready, win := some w, ramwrOpen := true }

/-- The check `ds = Reset` (41_controller.md R111). -/
def isReset (s : State) : Bool := decide (s.ds = .reset)

/-- The check `ds in (Initialized, Ready)` (41_controller.md R112, R113). -/
def isInitializedOrReady (s : State) : Bool := decide (s.ds = .initialized ∨ s.ds = .ready)

/-- The check `ds = Ready` (41_controller.md R114). -/
def isReady (s : State) : Bool := decide (s.ds = .ready)

end Sys2Proof.Machine
end

