-- ==== Sys2Proof/Machine/Ops.lean ====
section
/-! DEFINITION. The operations over the pixel store, the pins, the bus and the trace; checking, raising and returning;
handing an operation to the block. -/

namespace Sys2Proof.Machine

/-- What a step of the block answers. -/
abbrev StepOutcome := Host.Outcome State Fault Refusal

/-! ## The pixel store (20_memory.md R50, R57; log 14, log 15) -/

/-- The cell at an address; `none` is `Unknown`: what an address that is not listed reads as (10_state.md R39). -/
def Memory.read : Memory → Nat → Option Pixel
  | [], _ => none
  | (b, w) :: rest, a => if a = b then some w else Memory.read rest a

/-- Write one whole cell, keeping the addresses strictly rising. -/
def Memory.write : Memory → Nat → Pixel → Memory
  | [], a, v => [(a, v)]
  | (b, w) :: rest, a, v =>
    if a < b then (a, v) :: (b, w) :: rest
    else if a = b then (a, v) :: rest
    else (b, w) :: Memory.write rest a v

/-- Write the `n` cells from `base` on with one value. -/
def Memory.fill (m : Memory) (base n : Nat) (v : Pixel) : Memory :=
  m.filter (fun c => decide (c.1 < base)) ++ (List.range' base n).map (fun a => (a, v)) ++
    m.filter (fun c => decide (base + n ≤ c.1))

/-- The canonical form: addresses strictly rising. No entry reads as `Unknown`, what an unlisted address reads as,
since an entry holds a pixel; so equal stores are equal lists. -/
abbrev Memory.wf (m : Memory) : Prop := (m.map Prod.fst).Pairwise (· < ·)

/-- `px[k][i]` (00_scope.md R12). A cell beyond the framebuffer does not exist and no operation names one. -/
def readPixel (s : State) (k i : Nat) : Option Pixel :=
  if i < fbSize s.cfg then Memory.read s.px (cellAddr s.cfg k i) else none

/-- `px[k][i] <- v`, that is `MemWrite(k, i, 2, v)` (20_memory.md R50). -/
def writePixel (k i : Nat) (v : Pixel) (s : State) : State :=
  { s with px := Memory.write s.px (cellAddr s.cfg k i) v }

/-- `for i in 0 .. FB_W*FB_H - 1: px[k][i] <- color` (42_framebuffer.md R132). -/
def clearPixels (k : Nat) (color : Pixel) (s : State) : State :=
  { s with px := Memory.fill s.px (cellAddr s.cfg k 0) (fbSize s.cfg) color }

/-! ## The view (20_memory.md R52 to R55, 42_framebuffer.md R133) -/

/-- The cells of framebuffer k in ascending index. -/
def cellsOf (s : State) (k : Nat) : List (Option Pixel) := (List.range (fbSize s.cfg)).map (readPixel s k)

/-- The bytes of a list of cells, and the counter of free bytes after them: an `Unknown` cell draws two free bytes
(20_memory.md R55; log 5). -/
def viewFrom (swap : Bool) : List (Option Pixel) → Nat → List Byte × Nat
  | [], n => ([], n)
  | some v :: cells, n =>
    let r := viewFrom swap cells n
    (pixelBytes swap v ++ r.1, r.2)
  | none :: cells, n =>
    let r := viewFrom swap cells (n + 2)
    ([Config.freeByte n, Config.freeByte (n + 1)] ++ r.1, r.2)

/-- `View(k)`, and the counter of free bytes after one exposure of it (42_framebuffer.md R133). -/
def view (s : State) (k : Nat) : List Byte × Nat := viewFrom (swapOf s.cfg k) (cellsOf s k) s.freeCount

/-! ## Trace, latches, answers -/

/-- `emit(e)`: append to the output trace (00_scope.md R12, 10_state.md R28). -/
def emit (e : Event) (s : State) : State := { s with trace := s.trace ++ [e] }

/-- `latch(role) <- level` (40_protocol.md R100). -/
def setLatch (role : PinRole) (latch : Latch) (s : State) : State :=
  match role with
  | .rst => { s with rstOut := latch }
  | .dc => { s with dcOut := latch }
  | .bl => { s with blOut := latch }

/-- The latch of a role (10_state.md R25). -/
def latchOf (s : State) : PinRole → Latch
  | .rst => s.rstOut
  | .dc => s.dcOut
  | .bl => s.blOut

/-- The environment's next answer to a pin drive; Ok where the list is exhausted (log 2). -/
def nextPin (s : State) : PinAnswer := s.env.pins.headD .ok

/-- The environment's next answer to a bus write; Ok where the list is exhausted (log 2). -/
def nextBus (s : State) : BusAnswer := s.env.bus.headD .ok

/-- One pin answer is used up. -/
def usePin (s : State) : State := { s with env := { s.env with pins := s.env.pins.tail } }

/-- One bus answer is used up. -/
def useBus (s : State) : State := { s with env := { s.env with bus := s.env.bus.tail } }

/-! ## Flow of an operation's primitives -/

/-- Where a sequence of primitives has got to: done, ended by `raise E` (60_exceptions.md R150), or stuck on a bus
transaction that never completes (40_protocol.md R102). -/
inductive Flow where
  | done (s : State)
  | raised (r : Result) (s : State)
  | stuck (s : State)
  deriving DecidableEq, Repr

/-- Go on with the next primitive only where the one before is done: "Nothing after it in the pseudocode runs"
(60_exceptions.md R150, 40_protocol.md R106). -/
def Flow.andThen (f : Flow) (g : State → Flow) : Flow :=
  match f with
  | .done s => g s
  | .raised r s => .raised r s
  | .stuck s => .stuck s

/-! ## Primitives and the Command Protocol's two operations (40_protocol.md) -/

/-- `drive(role, level)` (40_protocol.md R100). -/
def drive (role : PinRole) (level : Level) (s : State) : Flow :=
  match rolePresence s.cfg role with
  | .absent => .done s
  | .present =>
    match nextPin s with
    | .ok => .done (emit (.pin role level) (setLatch role (.driven level) (usePin s)))
    | .fail => .raised .transportPin (emit (.pinFail role level) (setLatch role .unknown (usePin s)))

/-- `wait(t)` (40_protocol.md R101). -/
def wait (t : Nat) (s : State) : Flow := .done (if 0 < t then emit (.wait t) s else s)

/-- `bus_write(bs)` (40_protocol.md R102). On `Fail(k)` at most `len(bs)` bytes reach the wire (log 2). -/
def busWrite (bs : List Byte) (s : State) : Flow :=
  match nextBus s with
  | .ok => .done (emit (.tx bs) (useBus s))
  | .fail k => .raised .transportBus (emit (.txFail bs (min k bs.length)) (useBus s))
  | .never => .stuck (useBus s)

/-- `send_command(c)` (40_protocol.md R103). -/
def sendCommand (c : Byte) (s : State) : Flow := (drive .dc s.cfg.dcCmdLevel s).andThen (busWrite [c])

/-- `send_data(bs)` (40_protocol.md R104). -/
def sendData (bs : List Byte) (s : State) : Flow := (drive .dc (dcDataLevel s.cfg) s).andThen (busWrite bs)

/-! ## Checking, raising, returning (41_controller.md R116, 60_exceptions.md) -/

/-- Hand a result to the host (60_exceptions.md R150). -/
def returns (r : Result) (s : State) : State := { s with reply := some r }

/-- A precondition error: "nothing has changed"; the result goes to the host (60_exceptions.md R152). -/
def raisePrecondition (r : Result) (s : State) : StepOutcome := .next (returns r s)

/-- A transport error: what was emitted stays, nothing is committed, `halted` becomes true, the error goes to the host
(60_exceptions.md R154). -/
def raiseTransport (r : Result) (s : State) : StepOutcome := .next (returns r (setHalted s))

/-- The first check that fails, in order (60_exceptions.md R159). -/
def firstFailure : List (Bool × Result) → Option Result
  | [] => none
  | (true, _) :: rest => firstFailure rest
  | (false, r) :: _ => some r

/-- The check phase, then the action (41_controller.md R116). -/
def checked (checks : List (Bool × Result)) (action : State → StepOutcome) (s : State) : StepOutcome :=
  match firstFailure checks with
  | some r => raisePrecondition r s
  | none => action s

/-- Check 1 of 60_exceptions.md R159: the block is not halted (R157). -/
def notHalted (s : State) : Bool × Result := (!s.halted, .halted)

/-- The end of the action phase: commit and `return Ok`, or the transport error, or the stall
(41_controller.md R116, 60_exceptions.md R154, R155). -/
def finish (commit : State → State) : Flow → StepOutcome
  | .done s => .next (returns .ok (commit s))
  | .raised r s => raiseTransport r s
  | .stuck s => .fault (.busStalled s)

/-! ## Handing an operation to the block (30_encoding.md R70) -/

/-- What runs next and the state without it: an engine call that is to run by itself (log 10), else the host's next
descriptor; `none` where the host issues nothing (log 1). -/
def fetch (s : State) : Option (Code × State) :=
  match s.engineCalls with
  | symbols :: rest => some (.burst symbols, { s with engineCalls := rest })
  | [] =>
    match s.pending with
    | d :: rest => some (.descriptor d, { s with pending := rest })
    | [] => none

/-- Put a code where `fetch` takes its next one: a burst before the engine calls; a descriptor, which no engine call
then precedes, before the host's descriptors. -/
def place (c : Code) (s : State) : State :=
  match c with
  | .burst symbols => { s with engineCalls := symbols :: s.engineCalls }
  | .descriptor d => { s with engineCalls := [], pending := d :: s.pending }

/-- A code that is no operation. An illegal descriptor returns `IllegalOperation`, after the check of `halted`
(30_encoding.md R77, 60_exceptions.md R158, R159); a list of symbols that is no burst has no meaning (log 13). -/
def rejectCode : DecodeError → State → StepOutcome
  | .unknownOpcode, s => checked [notHalted s] (raisePrecondition .illegalOperation) s
  | .mustBeZero, s => checked [notHalted s] (raisePrecondition .illegalOperation) s
  | .emptyBurst, _ => .refused .notABurst
  | .mixedBurst, _ => .refused .notABurst

end Sys2Proof.Machine
end

