-- ==== Sys2Proof/Machine/Controller.lean ====
section
/-! DEFINITION. The controller group: `hard_reset`, `init`, `set_orientation`, `set_address_window`,
`eat_framebuffer`, `set_backlight` (41_controller.md). -/

namespace Sys2Proof.Machine

/-- The action phase of `hard_reset` (41_controller.md R110). -/
def pulseReset (s : State) : Flow :=
  ((drive .rst .low s).andThen (wait s.cfg.tRstLow)).andThen fun s1 =>
    (drive .rst .high s1).andThen (wait s.cfg.tRstSettle)

/-- `HARD_RESET` (41_controller.md R110). -/
def execHardReset (s : State) : StepOutcome :=
  checked [notHalted s] (fun s => finish commitReset (pulseReset s)) s

/-- One step of the bring-up sequence: the command, its data if any, its wait (41_controller.md R111). -/
def initStep (st : InitStep) (s : State) : Flow :=
  ((sendCommand st.cmd s).andThen fun s1 => if st.data = [] then .done s1 else sendData st.data s1).andThen
    (wait st.waitUs)

/-- The bring-up sequence "in list order" (41_controller.md R111). -/
def runInitSeq : List InitStep → State → Flow
  | [], s => .done s
  | st :: rest, s => (initStep st s).andThen (runInitSeq rest)

/-- `INIT` (41_controller.md R111). -/
def execInit (s : State) : StepOutcome :=
  checked [notHalted s, (isReset s, .invalidState)] (fun s => finish commitInit (runInitSeq s.cfg.initSeq s)) s

/-- The action phase of `set_orientation` (41_controller.md R112). -/
def sendOrientation (mode : Orientation) (s : State) : Flow :=
  (sendCommand s.cfg.cmds.madctl s).andThen (sendData [madctlOf s.cfg mode])

/-- `SET_ORIENTATION` (41_controller.md R112). -/
def execSetOrientation (mode : Orientation) (s : State) : StepOutcome :=
  checked [notHalted s, (isInitializedOrReady s, .invalidState)]
    (fun s => finish commitOrientation (sendOrientation mode s)) s

/-- The action phase of `set_address_window` (41_controller.md R113). -/
def sendWindow (w : AddressWindow) (s : State) : Flow :=
  ((((sendCommand s.cfg.cmds.caset s).andThen (sendData (addressParams w.x0 w.x1))).andThen
    (sendCommand s.cfg.cmds.raset)).andThen (sendData (addressParams w.y0 w.y1))).andThen
      (sendCommand s.cfg.cmds.ramwr)

/-- `SET_ADDRESS_WINDOW` (41_controller.md R113). -/
def execSetAddressWindow (x0 y0 x1 y1 : Field) (s : State) : StepOutcome :=
  checked [notHalted s, (isInitializedOrReady s, .invalidState), (windowValid s.cfg ⟨x0, y0, x1, y1⟩, .invalidWindow)]
    (fun s => finish (commitWindow ⟨x0, y0, x1, y1⟩) (sendWindow ⟨x0, y0, x1, y1⟩ s)) s

/-- The action phase of `eat_framebuffer`: `send_data(View(k))`, the free bytes of the view counted as drawn
(41_controller.md R114, 20_memory.md R55). -/
def sendView (k : Nat) (s : State) : Flow := sendData (view s k).1 { s with freeCount := (view s k).2 }

/-- `EAT_FRAMEBUFFER` (41_controller.md R114). -/
def execEatFramebuffer (k : Field) (s : State) : StepOutcome :=
  checked [notHalted s, (isReady s, .invalidState), (bufferExists s.cfg k, .invalidBuffer)]
    (fun s => finish id (sendView k.toNat s)) s

/-- `SET_BACKLIGHT` (41_controller.md R115). -/
def execSetBacklight (on : Bool) (s : State) : StepOutcome :=
  checked [notHalted s] (fun s => finish id (drive .bl (backlightLevel s.cfg on) s)) s

end Sys2Proof.Machine
end

