-- ==== Sys2Proof/Machine/Engine.lean ====
section
/-! DEFINITION. The Command Protocol engine's calls run alone: `send_command`, `send_data`, and the seven named
command symbols (40_protocol.md, 30_encoding.md R80; log 10, log 11). -/

namespace Sys2Proof.Machine

/-- An engine call as an operation of its own: refused where the block is halted, nothing to commit (log 10). -/
def engineCall (action : State → Flow) (s : State) : StepOutcome :=
  checked [notHalted s] (fun s => finish id (action s)) s

/-- `SEND_COMMAND` (40_protocol.md R103). -/
def execSendCommand (c : Byte) (s : State) : StepOutcome := engineCall (sendCommand c) s

/-- `SEND_DATA`: all bytes in one burst (40_protocol.md R104). -/
def execSendData (b : Byte) (more : List Byte) (s : State) : StepOutcome := engineCall (sendData (b :: more)) s

/-- `WIRE_SLPOUT`: the symbol `C:CMD_SLPOUT` (30_encoding.md R80, 41_controller.md R111). -/
def execWireSlpout (s : State) : StepOutcome := engineCall (sendCommand s.cfg.cmds.slpout) s

/-- `WIRE_COLMOD`: the symbol `C:CMD_COLMOD` (30_encoding.md R80, 41_controller.md R111). -/
def execWireColmod (s : State) : StepOutcome := engineCall (sendCommand s.cfg.cmds.colmod) s

/-- `WIRE_DISPON`: the symbol `C:CMD_DISPON` (30_encoding.md R80, 41_controller.md R111). -/
def execWireDispon (s : State) : StepOutcome := engineCall (sendCommand s.cfg.cmds.dispon) s

/-- `WIRE_MADCTL`: the symbol `C:CMD_MADCTL` (30_encoding.md R80, 41_controller.md R112). -/
def execWireMadctl (s : State) : StepOutcome := engineCall (sendCommand s.cfg.cmds.madctl) s

/-- `WIRE_CASET`: the symbol `C:CMD_CASET` (30_encoding.md R80, 41_controller.md R113). -/
def execWireCaset (s : State) : StepOutcome := engineCall (sendCommand s.cfg.cmds.caset) s

/-- `WIRE_RASET`: the symbol `C:CMD_RASET` (30_encoding.md R80, 41_controller.md R113). -/
def execWireRaset (s : State) : StepOutcome := engineCall (sendCommand s.cfg.cmds.raset) s

/-- `WIRE_RAMWR`: the symbol `C:CMD_RAMWR` (30_encoding.md R80, 41_controller.md R113). -/
def execWireRamwr (s : State) : StepOutcome := engineCall (sendCommand s.cfg.cmds.ramwr) s

end Sys2Proof.Machine
end

