-- ==== Sys2Proof/Machine/Framebuffer.lean ====
section
/-! DEFINITION. The framebuffer group: `fb_set_pixel_xy`, `fb_set_pixel_raw`, `fb_clear` (42_framebuffer.md). -/

namespace Sys2Proof.Machine

/-- `FB_SET_PIXEL_XY` (42_framebuffer.md R130). -/
def execFbSetPixelXy (k x y : Field) (color : Pixel) (s : State) : StepOutcome :=
  checked [notHalted s, (bufferExists s.cfg k, .invalidBuffer), (positionInRange s.cfg x y, .outOfBounds)]
    (fun s => finish id (.done (writePixel k.toNat (pixelIndex s.cfg x y) color s))) s

/-- `FB_SET_PIXEL_RAW` (42_framebuffer.md R131). -/
def execFbSetPixelRaw (k : Field) (offset : BitVec 32) (color : Pixel) (s : State) : StepOutcome :=
  checked [notHalted s, (bufferExists s.cfg k, .invalidBuffer), (offsetInRange s.cfg offset, .outOfBounds)]
    (fun s => finish id (.done (writePixel k.toNat offset.toNat color s))) s

/-- `FB_CLEAR` (42_framebuffer.md R132). -/
def execFbClear (k : Field) (color : Pixel) (s : State) : StepOutcome :=
  checked [notHalted s, (bufferExists s.cfg k, .invalidBuffer)]
    (fun s => finish id (.done (clearPixels k.toNat color s))) s

end Sys2Proof.Machine
end

