-- ==== Sys2Proof/Machine/Dispatch.lean ====
section
/-! DEFINITION. One arm per instruction, each one call of its meaning. -/

namespace Sys2Proof.Machine

def exec (i : Instr) (s : State) : Host.Outcome State Fault Refusal :=
  match i with
  | .hardReset => Sys2Proof.Machine.execHardReset s
  | .init => Sys2Proof.Machine.execInit s
  | .setOrientation mode => Sys2Proof.Machine.execSetOrientation mode s
  | .setAddressWindow x0 y0 x1 y1 => Sys2Proof.Machine.execSetAddressWindow x0 y0 x1 y1 s
  | .eatFramebuffer k => Sys2Proof.Machine.execEatFramebuffer k s
  | .setBacklight on => Sys2Proof.Machine.execSetBacklight on s
  | .fbSetPixelXy k x y color => Sys2Proof.Machine.execFbSetPixelXy k x y color s
  | .fbSetPixelRaw k offset color => Sys2Proof.Machine.execFbSetPixelRaw k offset color s
  | .fbClear k color => Sys2Proof.Machine.execFbClear k color s
  | .sendCommand c => Sys2Proof.Machine.execSendCommand c s
  | .sendData b more => Sys2Proof.Machine.execSendData b more s
  | .wireSlpout => Sys2Proof.Machine.execWireSlpout s
  | .wireColmod => Sys2Proof.Machine.execWireColmod s
  | .wireDispon => Sys2Proof.Machine.execWireDispon s
  | .wireMadctl => Sys2Proof.Machine.execWireMadctl s
  | .wireCaset => Sys2Proof.Machine.execWireCaset s
  | .wireRaset => Sys2Proof.Machine.execWireRaset s
  | .wireRamwr => Sys2Proof.Machine.execWireRamwr s

end Sys2Proof.Machine
end

