-- ==== Sys2Proof/Machine/Step.lean ====
section
/-! DEFINITION. One step: the block runs the host's next operation (or an engine call by itself) to completion. -/

namespace Sys2Proof.Machine

/-- Take the next code, decode it under the configured command bytes, run it (30_encoding.md R70, R91). Where the host
issues nothing the block is idle and nothing changes (log 1). -/
def step (s : State) : Host.Outcome State Fault Refusal :=
  match fetch s with
  | none => .next s
  | some (c, s1) =>
    match decode s1.cfg.cmds c with
    | .ok i => exec i s1
    | .error e => rejectCode e s1

/-- The state in which a table word runs next: a descriptor as the host's next one, a symbol as an engine call (log 1,
log 10, log 23). -/
def State.withFetchWord (s : State) (nbits w : Nat) : State := place (tableCode nbits w) s

end Sys2Proof.Machine
end

