-- ==== Sys2Proof/Machine/Tables.lean ====
section
/-! DEFINITION. The spec's tables over all operations: the event list of each (41_controller.md R116, 10_state.md R34),
where each is accepted and what `ds` becomes (R21, R153), the order of the checks (R159), who raises what (R151). `exec`
uses none of them: statements compare it with them. -/

namespace Sys2Proof.Machine

/-- The events of `drive(role, level)` where it succeeds (40_protocol.md R100). -/
def driveEvents (cfg : Cfg) (role : PinRole) (level : Level) : List Event :=
  if rolePresence cfg role = .present then [.pin role level] else []

/-- The events of `wait(t)` (40_protocol.md R101). -/
def waitEvents (t : Nat) : List Event := if t = 0 then [] else [.wait t]

/-- The events of `send_command(c)` (40_protocol.md R103). -/
def commandEvents (cfg : Cfg) (c : Byte) : List Event := driveEvents cfg .dc cfg.dcCmdLevel ++ [.tx [c]]

/-- The events of `send_data(bs)` (40_protocol.md R104). -/
def dataEvents (cfg : Cfg) (bs : List Byte) : List Event := driveEvents cfg .dc (dcDataLevel cfg) ++ [.tx bs]

/-- The events of one step of the bring-up sequence (41_controller.md R111). -/
def initStepEvents (cfg : Cfg) (st : InitStep) : List Event :=
  commandEvents cfg st.cmd ++ (if st.data = [] then [] else dataEvents cfg st.data) ++ waitEvents st.waitUs

/-- The event list of an operation that succeeds: its pseudocode's primitives in order (41_controller.md R110 to R115,
42_framebuffer.md R135, 40_protocol.md R103, R104). -/
def plannedEvents (s : State) : Instr → List Event
  | .hardReset =>
    driveEvents s.cfg .rst .low ++ waitEvents s.cfg.tRstLow ++ driveEvents s.cfg .rst .high ++
      waitEvents s.cfg.tRstSettle
  | .init => s.cfg.initSeq.flatMap (initStepEvents s.cfg)
  | .setOrientation mode => commandEvents s.cfg s.cfg.cmds.madctl ++ dataEvents s.cfg [madctlOf s.cfg mode]
  | .setAddressWindow x0 y0 x1 y1 =>
    commandEvents s.cfg s.cfg.cmds.caset ++ dataEvents s.cfg [hi8 x0, lo8 x0, hi8 x1, lo8 x1] ++
      commandEvents s.cfg s.cfg.cmds.raset ++ dataEvents s.cfg [hi8 y0, lo8 y0, hi8 y1, lo8 y1] ++
      commandEvents s.cfg s.cfg.cmds.ramwr
  | .eatFramebuffer k => dataEvents s.cfg (view s k.toNat).1
  | .setBacklight on => driveEvents s.cfg .bl (backlightLevel s.cfg on)
  | .fbSetPixelXy _ _ _ _ => []
  | .fbSetPixelRaw _ _ _ => []
  | .fbClear _ _ => []
  | .sendCommand c => commandEvents s.cfg c
  | .sendData b more => dataEvents s.cfg (b :: more)
  | .wireSlpout => commandEvents s.cfg s.cfg.cmds.slpout
  | .wireColmod => commandEvents s.cfg s.cfg.cmds.colmod
  | .wireDispon => commandEvents s.cfg s.cfg.cmds.dispon
  | .wireMadctl => commandEvents s.cfg s.cfg.cmds.madctl
  | .wireCaset => commandEvents s.cfg s.cfg.cmds.caset
  | .wireRaset => commandEvents s.cfg s.cfg.cmds.raset
  | .wireRamwr => commandEvents s.cfg s.cfg.cmds.ramwr

/-- The result and the event with which a planned event fails (40_protocol.md R100, R102). -/
def failsAs : Event → Result → Event → Prop
  | .pin role level, r, f => r = .transportPin ∧ f = .pinFail role level
  | .tx bs, r, f => r = .transportBus ∧ ∃ k, k ≤ bs.length ∧ f = .txFail bs k
  | .pinFail _ _, _, _ => False
  | .wait _, _, _ => False
  | .txFail _ _, _, _ => False

/-- The states in which an operation is accepted: the table of 60_exceptions.md R153. The engine's calls are not in
it and read no `ds`. -/
def acceptedIn : Instr → DisplayState → Bool
  | .hardReset, _ => true
  | .init, ds => decide (ds = .reset)
  | .setOrientation _, ds => decide (ds = .initialized) || decide (ds = .ready)
  | .setAddressWindow _ _ _ _, ds => decide (ds = .initialized) || decide (ds = .ready)
  | .eatFramebuffer _, ds => decide (ds = .ready)
  | .setBacklight _, _ => true
  | .fbSetPixelXy _ _ _ _, _ => true
  | .fbSetPixelRaw _ _ _, _ => true
  | .fbClear _ _, _ => true
  | .sendCommand _, _ => true
  | .sendData _ _, _ => true
  | .wireSlpout, _ => true
  | .wireColmod, _ => true
  | .wireDispon, _ => true
  | .wireMadctl, _ => true
  | .wireCaset, _ => true
  | .wireRaset, _ => true
  | .wireRamwr, _ => true

/-- `ds` after an operation that returns `Ok`: the second table column of 10_state.md R21. -/
def dsAfter : Instr → DisplayState → DisplayState
  | .hardReset, _ => .reset
  | .init, _ => .initialized
  | .setAddressWindow _ _ _ _, _ => .ready
  | .setOrientation _, ds => ds
  | .eatFramebuffer _, ds => ds
  | .setBacklight _, ds => ds
  | .fbSetPixelXy _ _ _ _, ds => ds
  | .fbSetPixelRaw _ _ _, ds => ds
  | .fbClear _ _, ds => ds
  | .sendCommand _, ds => ds
  | .sendData _ _, ds => ds
  | .wireSlpout, ds => ds
  | .wireColmod, ds => ds
  | .wireDispon, ds => ds
  | .wireMadctl, ds => ds
  | .wireCaset, ds => ds
  | .wireRaset, ds => ds
  | .wireRamwr, ds => ds

/-- The framebuffer an operation names. -/
def namedBuffer : Instr → Option Field
  | .eatFramebuffer k => some k
  | .fbSetPixelXy k _ _ _ => some k
  | .fbSetPixelRaw k _ _ => some k
  | .fbClear k _ => some k
  | .hardReset => none
  | .init => none
  | .setOrientation _ => none
  | .setAddressWindow _ _ _ _ => none
  | .setBacklight _ => none
  | .sendCommand _ => none
  | .sendData _ _ => none
  | .wireSlpout => none
  | .wireColmod => none
  | .wireDispon => none
  | .wireMadctl => none
  | .wireCaset => none
  | .wireRaset => none
  | .wireRamwr => none

/-- The window or range error of an operation's operands (60_exceptions.md R159 step 5). -/
def rangeError (cfg : Cfg) : Instr → Option Result
  | .setAddressWindow x0 y0 x1 y1 =>
    if x0.toNat ≤ x1.toNat ∧ x1.toNat < cfg.panelW ∧ y0.toNat ≤ y1.toNat ∧ y1.toNat < cfg.panelH then none
    else some .invalidWindow
  | .fbSetPixelXy _ x y _ => if x.toNat < cfg.fbW ∧ y.toNat < cfg.fbH then none else some .outOfBounds
  | .fbSetPixelRaw _ offset _ => if offset.toNat < cfg.fbW * cfg.fbH then none else some .outOfBounds
  | .hardReset => none
  | .init => none
  | .setOrientation _ => none
  | .eatFramebuffer _ => none
  | .setBacklight _ => none
  | .fbClear _ _ => none
  | .sendCommand _ => none
  | .sendData _ _ => none
  | .wireSlpout => none
  | .wireColmod => none
  | .wireDispon => none
  | .wireMadctl => none
  | .wireCaset => none
  | .wireRaset => none
  | .wireRamwr => none

/-- The error that decides, by the order of 60_exceptions.md R159 steps 1 and 3 to 5. -/
def preconditionError (s : State) (i : Instr) : Option Result :=
  if s.halted then some .halted
  else if acceptedIn i s.ds = false then some .invalidState
  else match namedBuffer i with
    | some k => if s.cfg.nFb ≤ k.toNat then some .invalidBuffer else rangeError s.cfg i
    | none => rangeError s.cfg i

/-- The controller group with a bus write, the other controller operations, the framebuffer group (60_exceptions.md
R151): which operation raises which result. -/
def mayRaise : Instr → Result → Bool
  | _, .ok => true
  | _, .halted => true
  | _, .configMissingPin => false
  | _, .illegalOperation => false
  | .init, .invalidState => true
  | .setOrientation _, .invalidState => true
  | .setAddressWindow _ _ _ _, .invalidState => true
  | .eatFramebuffer _, .invalidState => true
  | _, .invalidState => false
  | .setAddressWindow _ _ _ _, .invalidWindow => true
  | _, .invalidWindow => false
  | .fbSetPixelXy _ _ _ _, .outOfBounds => true
  | .fbSetPixelRaw _ _ _, .outOfBounds => true
  | _, .outOfBounds => false
  | i, .invalidBuffer => (namedBuffer i).isSome
  | .hardReset, .transportBus => false
  | .setBacklight _, .transportBus => false
  | .fbSetPixelXy _ _ _ _, .transportBus => false
  | .fbSetPixelRaw _ _ _, .transportBus => false
  | .fbClear _ _, .transportBus => false
  | _, .transportBus => true
  | .fbSetPixelXy _ _ _ _, .transportPin => false
  | .fbSetPixelRaw _ _ _, .transportPin => false
  | .fbClear _ _, .transportPin => false
  | _, .transportPin => true

/-- The framebuffer group (30_encoding.md R72). -/
def isFramebufferOp : Instr → Bool
  | .fbSetPixelXy _ _ _ _ => true
  | .fbSetPixelRaw _ _ _ => true
  | .fbClear _ _ => true
  | .hardReset => false
  | .init => false
  | .setOrientation _ => false
  | .setAddressWindow _ _ _ _ => false
  | .eatFramebuffer _ => false
  | .setBacklight _ => false
  | .sendCommand _ => false
  | .sendData _ _ => false
  | .wireSlpout => false
  | .wireColmod => false
  | .wireDispon => false
  | .wireMadctl => false
  | .wireCaset => false
  | .wireRaset => false
  | .wireRamwr => false

end Sys2Proof.Machine
end

