-- ==== Sys2Proof/Machine/Construct.lean ====
section
/-! DEFINITION. Block reset: construction of the block from its configuration (10_state.md R38, 60_exceptions.md
R156), and which configurations are well formed (00_scope.md R5, 30_encoding.md R83). -/

namespace Sys2Proof.Machine

/-- A step of `INIT_SEQ` with no data and a given command (30_encoding.md R83, conditions 1 and 3). -/
def bareStep (cmd : Byte) (st : InitStep) : Bool := decide (st.cmd = cmd ∧ st.data = [])

/-- `INIT_SEQ` is well formed (30_encoding.md R83): sleep-out first, pixel-format next, display-on last, and between
the last two a vendor block that uses none of the seven named bytes. -/
def initSeqWf (cfg : Cfg) : Bool :=
  match cfg.initSeq with
  | first :: second :: rest =>
    bareStep cfg.cmds.slpout first &&
    decide (second.cmd = cfg.cmds.colmod ∧ second.data = [cfg.colmodRgb565]) &&
    (match rest.getLast? with
     | some last => bareStep cfg.cmds.dispon last
     | none => false) &&
    rest.dropLast.all (fun st => !cfg.cmds.bytes.contains st.cmd)
  | _ => false

/-- Bits 4 to 0 of an `ORIENT_BITS` byte are clear (30_encoding.md R85). -/
def orientByteWf (b : Byte) : Bool := decide (b &&& 0x1F = 0)

/-- Every entry of `ORIENT_BITS` (30_encoding.md R85). -/
def orientTableWf (t : OrientTable) : Bool :=
  orientByteWf t.portrait && orientByteWf t.landscape && orientByteWf t.landscapeMirrored &&
    orientByteWf t.portraitMirrored

/-- `DMA_ALIGN` is a power of two (00_scope.md R5). -/
def isPowerOfTwo (n : Nat) : Bool := decide (0 < n ∧ 2 ^ n.log2 = n)

/-- The sizes of 00_scope.md R5, and one swap flag per framebuffer (10_state.md R36). -/
def sizesWf (cfg : Cfg) : Bool :=
  decide (1 ≤ cfg.panelW ∧ cfg.panelW ≤ 65536 ∧ 1 ≤ cfg.panelH ∧ cfg.panelH ≤ 65536 ∧ 1 ≤ cfg.nFb ∧
    1 ≤ cfg.fbW ∧ 1 ≤ cfg.fbH ∧ cfg.fbW * cfg.fbH < 4294967296 ∧ cfg.swapBytes.length = cfg.nFb ∧
    1 ≤ cfg.busQueueDepth)

/-- A configuration the model instantiates (00_scope.md R5, 60_exceptions.md R156). -/
def cfgWf (cfg : Cfg) : Bool :=
  decide (cfg.dcRole = .present) && sizesWf cfg && isPowerOfTwo cfg.dmaAlign && decide cfg.cmds.distinct &&
    orientTableWf cfg.orientBits && initSeqWf cfg

/-- What `construct(cfg)` gives: a block, a configuration error handed to the host, or nothing, for a configuration
"outside what the document describes; a model refuses to instantiate it" (60_exceptions.md R156; log 17). -/
inductive Construction where
  | block (s : State)
  | failed (r : Result)
  | notInstantiated
  deriving DecidableEq, Repr

/-- `construct(cfg)`, block reset: drives no pin and writes nothing (10_state.md R38, 30_encoding.md R89). -/
def construct (cfg : Cfg) : Construction :=
  if cfg.dcRole = .absent then .failed .configMissingPin
  else if cfgWf cfg then .block (State.initial cfg)
  else .notInstantiated

end Sys2Proof.Machine
end

