-- ==== Sys2Proof/Machine/HostSide.lean ====
section
/-! DEFINITION. Host-side vocabulary: the pseudo-operations, the swapchain and the render loop as sequences of requests
(30_encoding.md R89, 44_host_swapchain.md). Outside the block (00_scope.md R4): `step` uses none of it; a claim about
the whole system takes it as its premise (log 22). -/

namespace Sys2Proof.Machine

/-- `swap()` on the host's index `back` (44_host_swapchain.md R141). DESIGN CHOICE (log 34): the rule speaks of one or two
framebuffers, and with more of them the index stays. -/
def swapBack (cfg : Cfg) (back : Nat) : Nat := if cfg.nFb = 2 then 1 - back else back

/-- The host's own configuration (44_host_swapchain.md R145). -/
structure HostConfig where
  doubleBuffered : Bool
  showOverlay : Bool
  initialOrientation : Orientation
  clearColor : Pixel
  deriving DecidableEq, Repr

/-- `double_buffered` is `N_FB = 2`, single-buffer mode is `N_FB = 1` (44_host_swapchain.md R144, R145). -/
def hostConfigMatches (h : HostConfig) (cfg : Cfg) : Bool :=
  if h.doubleBuffered then decide (cfg.nFb = 2) else decide (cfg.nFb = 1)

/-- `clear()` (30_encoding.md R89). -/
def hostClear (h : HostConfig) (back : Nat) : Instr := .fbClear (BitVec.ofNat 16 back) h.clearColor

/-- `set_pixel(x, y, color)`, the rasterizer's callback (30_encoding.md R89). -/
def hostSetPixel (back : Nat) (p : Field × Field × Pixel) : Instr :=
  .fbSetPixelXy (BitVec.ofNat 16 back) p.1 p.2.1 p.2.2

/-- `present()`: the request it issues, and `back` after its `swap()` (30_encoding.md R89). -/
def hostPresent (cfg : Cfg) (back : Nat) : Instr × Nat := (.eatFramebuffer (BitVec.ofNat 16 back), swapBack cfg back)

/-- One pass of the render loop: clear, the visible pixels, the overlay's pixels if shown, the transfer; and `back`
after the swap (44_host_swapchain.md R143). DESIGN CHOICE (log 31): step 3 says only that the overlay writes more pixels
into framebuffer `back`, and here it writes each with `fb_set_pixel_xy`, as step 2 does. -/
def renderPass (h : HostConfig) (cfg : Cfg) (back : Nat) (visible overlay : List (Field × Field × Pixel)) :
    List Instr × Nat :=
  (hostClear h back :: visible.map (hostSetPixel back) ++
    (if h.showOverlay then overlay.map (hostSetPixel back) else []) ++ [(hostPresent cfg back).1],
   (hostPresent cfg back).2)

/-- A bring-up in the order of 70_reset_and_hazards.md R182, with the host's initial orientation (44_host_swapchain.md
R145) and a window of the frame's width and height (R186). DESIGN CHOICE (log 32), where the spec leaves the host free:
the window's first corner is (0, 0), although R182 allows any; no `set_backlight` is issued (R184); and where `FB_W` or
`FB_H` exceeds 65536, so that `FB_W - 1` or `FB_H - 1` fits no 16-bit operand, the operand is the number modulo 2^16. -/
def bringUp (h : HostConfig) (cfg : Cfg) : List Instr :=
  [.hardReset, .init, .setOrientation h.initialOrientation,
   .setAddressWindow 0 0 (BitVec.ofNat 16 (cfg.fbW - 1)) (BitVec.ofNat 16 (cfg.fbH - 1))]

/-- The descriptor of an operation; the engine's calls have none (40_protocol.md R105). -/
def descriptorOf (cmds : PanelCommands) (i : Instr) : Option Descriptor :=
  match encode cmds i with
  | .descriptor d => some d
  | .burst _ => none

/-- The requests of a list of operations, as the host hands them over (30_encoding.md R70). -/
def requests (cfg : Cfg) (is : List Instr) : List Descriptor := is.filterMap (descriptorOf cfg.cmds)

/-- The operations that write pixels, with the framebuffer they write (42_framebuffer.md). -/
def writtenBuffer : Instr → Option Nat
  | .fbSetPixelXy k _ _ _ => some k.toNat
  | .fbSetPixelRaw k _ _ => some k.toNat
  | .fbClear k _ => some k.toNat
  | .hardReset => none
  | .init => none
  | .setOrientation _ => none
  | .setAddressWindow _ _ _ _ => none
  | .eatFramebuffer _ => none
  | .setBacklight _ => none
  | .sendCommand _ => none
  | .sendData _ _ => none
  | .wireSlpout => none
  | .wireColmod => none
  | .wireDispon => none
  | .wireMadctl => none
  | .wireCaset => none
  | .wireRaset => none
  | .wireRamwr => none

/-- "The host issues pixel writes only to framebuffer `back`" (44_host_swapchain.md R142), over the operations between
two swaps. -/
def writesOnlyBack (back : Nat) (is : List Instr) : Bool :=
  is.all fun i => match writtenBuffer i with
    | some k => decide (k = back)
    | none => true

end Sys2Proof.Machine
end

