-- ==== Sys2Proof/Machine/Trace.lean ====
section
/-! DEFINITION. What the trace says: the pin waveforms, the wire view, the symbols, the panel commands, the lines of
one burst (10_state.md R25, R28, R29; 30_encoding.md R78, R79; 40_protocol.md R102). -/

namespace Sys2Proof.Machine

/-- What one event leaves in the latch of a role (10_state.md R25, R28). -/
def latchStep (role : PinRole) (latch : Latch) : Event → Latch
  | .pin r l => if r = role then .driven l else latch
  | .pinFail r _ => if r = role then .unknown else latch
  | .wait _ => latch
  | .tx _ => latch
  | .txFail _ _ => latch

/-- The latch of a role after a trace that began at block reset (10_state.md R25, R39). -/
def latchAfter (role : PinRole) (es : List Event) : Latch := es.foldl (latchStep role) .unknown

/-- What a byte is to the panel (10_state.md R29). -/
inductive WireKind where
  | command
  | data
  deriving DecidableEq, Repr

/-- "`data` if `dc_out` equalled the data level when the byte's burst started and `command` if it equalled the command
level" (10_state.md R29); `none` where the level is not known, which 40_protocol.md R107 rules out. -/
def kindOf (cfg : Cfg) : Latch → Option WireKind
  | .unknown => none
  | .driven l => if l = cfg.dcCmdLevel then some .command else some .data

/-- One item of the wire view (10_state.md R29; log 28). -/
inductive WireItem where
  /-- A burst and the kind of its bytes. -/
  | burst (kind : Option WireKind) (bytes : List Byte)
  /-- The bytes of a failed burst that reached the wire. -/
  | cutBurst (kind : Option WireKind) (bytes : List Byte)
  /-- RST changed to a level, or to an unknown one. -/
  | rst (latch : Latch)
  /-- BL changed to a level, or to an unknown one. -/
  | bl (latch : Latch)
  /-- At least so many microseconds without activity. -/
  | pause (t : Nat)
  deriving DecidableEq, Repr

/-- Consecutive waits are one: `Wait(a)`, `Wait(b)` mean the same as `Wait(a+b)` (40_protocol.md R101). -/
def addPause (t : Nat) : List WireItem → List WireItem
  | .pause u :: rest => .pause (t + u) :: rest
  | items => .pause t :: items

/-- The items of a trace, given the three latches before it. A drive of DC is no item, and a drive of RST or BL to the
level it has is none: neither changes the wire view (10_state.md R29, 40_protocol.md R100). -/
def wireItems (cfg : Cfg) : Latch → Latch → Latch → List Event → List WireItem
  | _, _, _, [] => []
  | rst, dc, bl, .pin .rst l :: es =>
    if rst = .driven l then wireItems cfg rst dc bl es
    else .rst (.driven l) :: wireItems cfg (.driven l) dc bl es
  | rst, _, bl, .pin .dc l :: es => wireItems cfg rst (.driven l) bl es
  | rst, dc, bl, .pin .bl l :: es =>
    if bl = .driven l then wireItems cfg rst dc bl es
    else .bl (.driven l) :: wireItems cfg rst dc (.driven l) es
  | _, dc, bl, .pinFail .rst _ :: es => .rst .unknown :: wireItems cfg .unknown dc bl es
  | rst, _, bl, .pinFail .dc _ :: es => wireItems cfg rst .unknown bl es
  | rst, dc, _, .pinFail .bl _ :: es => .bl .unknown :: wireItems cfg rst dc .unknown es
  | rst, dc, bl, .wait t :: es => addPause t (wireItems cfg rst dc bl es)
  | rst, dc, bl, .tx bs :: es => .burst (kindOf cfg dc) bs :: wireItems cfg rst dc bl es
  | rst, dc, bl, .txFail bs k :: es => .cutBurst (kindOf cfg dc) (bs.take k) :: wireItems cfg rst dc bl es

/-- The wire view of a trace from block reset (10_state.md R29). -/
def wireView (cfg : Cfg) (es : List Event) : List WireItem := wireItems cfg .unknown .unknown .unknown es

/-- The symbols of bytes of one kind; bytes of no known kind are no symbols (30_encoding.md R78). -/
def symbolsOf (kind : Option WireKind) (bytes : List Byte) : List Symbol :=
  match kind with
  | some .command => bytes.map commandSymbol
  | some .data => bytes.map dataSymbol
  | none => []

/-- The symbols of one item of the wire view. -/
def itemSymbols : WireItem → List Symbol
  | .burst kind bytes => symbolsOf kind bytes
  | .cutBurst kind bytes => symbolsOf kind bytes
  | .rst _ => []
  | .bl _ => []
  | .pause _ => []

/-- The sequence of wire symbols of a trace, part (1) of the wire view (10_state.md R29). -/
def wireSymbols (cfg : Cfg) (es : List Event) : List Symbol := (wireView cfg es).flatMap itemSymbols

/-- The panel-side decoder (30_encoding.md R79, R92): "a `C:` symbol starts a command; the `D:` symbols that follow, up
to the next `C:` symbol, are its parameters". Data before the first command belongs to none (log 28). -/
def panelCommands : List Symbol → List (Byte × List Byte)
  | [] => []
  | y :: rest =>
    if isDataSymbol y then panelCommands rest
    else (symbolByte y, (rest.takeWhile isDataSymbol).map symbolByte) :: panelCommands rest

/-- The last command symbol of a list of symbols (10_state.md R30). -/
def lastCommand (symbols : List Symbol) : Option Byte :=
  ((symbols.filter fun y => !isDataSymbol y).map symbolByte).getLast?

/-- The least time a trace takes: the sum of its waits (10_state.md R29, 70_reset_and_hazards.md R198). -/
def minElapsed : List Event → Nat
  | [] => 0
  | .wait t :: es => t + minElapsed es
  | .pin _ _ :: es => minElapsed es
  | .pinFail _ _ :: es => minElapsed es
  | .tx _ :: es => minElapsed es
  | .txFail _ _ :: es => minElapsed es

/-- What the lines of the bus do during a burst. -/
inductive LineEvent where
  | cs (level : Level)
  | dataBit (bit : Bool)
  deriving DecidableEq, Repr

/-- The bits of a byte, most significant first (30_encoding.md R78; log 19). -/
def byteBits (b : Byte) : List LineEvent := (List.range 8).map fun i => .dataBit (b.getLsbD (7 - i))

/-- CS driven to a level, where it is Present (40_protocol.md R102). -/
def csLine (cfg : Cfg) (level : Level) : List LineEvent :=
  match cfg.csRole with
  | .present => [.cs level]
  | .absent => []

/-- The lines during `Tx(bs)`: CS active before the first clock edge, the bytes in list order, CS released after the
last (40_protocol.md R102; log 19). -/
def burstLines (cfg : Cfg) (bs : List Byte) : List LineEvent :=
  csLine cfg cfg.csActiveLevel ++ bs.flatMap byteBits ++ csLine cfg (flipLevel cfg.csActiveLevel)

/-- The least time a burst of n bytes occupies the bus, `8*n / BUS_HZ` seconds (70_reset_and_hazards.md R200). No rule
depends on it. DESIGN CHOICE (log 33): in nanoseconds rounded down, and 0 where `BUS_HZ` is 0, which 00_scope.md R5 allows
and for which R200's quotient has no value. -/
def burstNanos (cfg : Cfg) (n : Nat) : Nat := 8 * n * 1000000000 / cfg.busHz

/-- Where the panel puts pixel i of a burst sent into a window: column `x0 + (i mod ww)`, row `y0 + (i div ww)`
(20_memory.md R66, general knowledge of the spec; the panel is outside the block, log 22). -/
def panelPosition (w : AddressWindow) (i : Nat) : Nat × Nat :=
  (w.x0.toNat + i % windowWidth w, w.y0.toNat + i / windowWidth w)

end Sys2Proof.Machine
end

