-- ==== Sys2Proof/Safety.lean ====
section
/-! DEFINITION. What counts as a safe run: the faulted block, the hazards the block does not enforce, and the
invariants of a block that was constructed (70_reset_and_hazards.md, 60_exceptions.md R157). -/

namespace Sys2Proof.Machine

/-- "A model should treat a halted block as *faulted*: never a final state of a successful run" (60_exceptions.md
R157). -/
def State.faulted (s : State) : Bool := s.halted

/-- 70_reset_and_hazards.md R186: the window's width and height are the frame's. -/
def windowMatchesFrame (s : State) : Bool :=
  match s.win with
  | some w => decide (windowWidth w = s.cfg.fbW ∧ windowHeight w = s.cfg.fbH)
  | none => false

/-- The weaker half of R186: the extents are equal, so frames do not drift. -/
def extentMatchesFrame (s : State) : Bool :=
  match s.win with
  | some w => decide (windowExtent w = fbSize s.cfg)
  | none => false

/-- 70_reset_and_hazards.md R187: pixel data would follow a memory-write. -/
def memoryWriteOpen (s : State) : Bool := s.ramwrOpen

/-- What the panel has been told since block reset or the last `hard_reset` that completed (70_reset_and_hazards.md
R191). An orientation is `none` where none was sent: "the panel keeps its reset default" (95_test_vectors.md P2). -/
structure PanelHistory where
  /-- The orientation in force. -/
  orientation : Option Orientation
  /-- The orientation under which the first window was received; `none` where there is no window yet. -/
  firstWindow : Option (Option Orientation)
  /-- The orientation under which the window in force was received; `none` where there is no window yet. -/
  lastWindow : Option (Option Orientation)
  deriving DecidableEq, Repr

/-- Nothing has been told. -/
def PanelHistory.start : PanelHistory := ⟨none, none, none⟩

/-- The history after an operation that returned `Ok`: "The panel interprets window coordinates under the orientation
byte in force when it receives them" (70_reset_and_hazards.md R185). -/
def PanelHistory.afterOk (h : PanelHistory) : Instr → PanelHistory
  | .hardReset => .start
  | .setOrientation mode => { h with orientation := some mode }
  | .setAddressWindow _ _ _ _ =>
    { h with firstWindow := some (h.firstWindow.getD h.orientation), lastWindow := some h.orientation }
  | .init => h
  | .eatFramebuffer _ => h
  | .setBacklight _ => h
  | .fbSetPixelXy _ _ _ _ => h
  | .fbSetPixelRaw _ _ _ => h
  | .fbClear _ _ => h
  | .sendCommand _ => h
  | .sendData _ _ => h
  | .wireSlpout => h
  | .wireColmod => h
  | .wireDispon => h
  | .wireMadctl => h
  | .wireCaset => h
  | .wireRaset => h
  | .wireRamwr => h

/-- The history of the operations of a run, each with its result; one that was refused, or that failed, tells nothing
(log 30). -/
def panelHistory (run : List (Instr × Result)) : PanelHistory :=
  run.foldl (fun h op => if op.2 = .ok then h.afterOk op.1 else h) .start

/-- 70_reset_and_hazards.md R185, to the letter: if a non-default orientation is required (`some mode`), it was in force
when the first window was received. Where none is required, or no window was received, the rule asks nothing. -/
def orientationFirst (required : Option Orientation) (run : List (Instr × Result)) : Bool :=
  match required, (panelHistory run).firstWindow with
  | some mode, some received => decide (received = some mode)
  | some _, none => true
  | none, _ => true

/-- What R185 is for: the window in force was received under the required orientation, whatever came before it
(log 30). -/
def windowUnderOrientation (required : Option Orientation) (run : List (Instr × Result)) : Bool :=
  match required, (panelHistory run).lastWindow with
  | some mode, some received => decide (received = some mode)
  | some _, none => true
  | none, _ => true

/-- 70_reset_and_hazards.md R183 (b): every pixel of framebuffer k has been written. -/
def frameWritten (s : State) (k : Nat) : Bool := (cellsOf s k).all Option.isSome

/-- Every premise a transfer of framebuffer k needs for its image to be the host's (70_reset_and_hazards.md R183,
R186, R187). -/
def frameMeaningful (s : State) (k : Nat) : Bool :=
  decide (s.ds = .ready) && windowMatchesFrame s && memoryWriteOpen s && frameWritten s k

/-- The pixel store is canonical and lists only cells that exist (10_state.md R36, 20_memory.md R50; log 14). -/
def storeInv (s : State) : Prop :=
  Memory.wf s.px ∧ ∀ c ∈ s.px, c.1 < s.cfg.nFb * fbSize s.cfg

/-- The shadow window is valid, a Ready block has one, and a memory-write is open only in Ready (10_state.md R21, R23,
R30). -/
def windowInv (s : State) : Prop :=
  (∀ w, s.win = some w → windowValid s.cfg w = true) ∧ (s.ds = .ready → s.win ≠ none) ∧
    (s.ramwrOpen = true → s.ds = .ready)

/-- The latches are what the trace says was driven last (10_state.md R25, R28). -/
def latchInv (s : State) : Prop := ∀ r, latchOf s r = latchAfter r s.trace

/-- A burst, whole or failed. -/
def burstOf : Event → Option (List Byte)
  | .tx bs => some bs
  | .txFail bs _ => some bs
  | .pin _ _ => none
  | .pinFail _ _ => none
  | .wait _ => none

/-- A burst may follow a drive of DC to level l: of at least one byte, and of exactly one at the command level
(40_protocol.md R107). -/
def burstFits (cfg : Cfg) (l : Level) (bs : List Byte) : Bool :=
  decide (1 ≤ bs.length ∧ (l = cfg.dcCmdLevel → bs.length = 1))

/-- 40_protocol.md R107 over a list of events, given the event before it: every burst comes directly after a drive of
DC that it fits, and a failed burst lost no byte it did not have. -/
def shapedFrom (cfg : Cfg) : Option Event → List Event → Bool
  | _, [] => true
  | before, e :: es =>
    (match burstOf e with
     | none => true
     | some bs =>
       match before with
       | some (.pin .dc l) => burstFits cfg l bs
       | _ => false) &&
    (match e with
     | .txFail bs k => decide (k ≤ bs.length)
     | _ => true) &&
    shapedFrom cfg (some e) es

/-- The trace has the shape of 40_protocol.md R107. -/
def traceInv (s : State) : Prop := shapedFrom s.cfg none s.trace = true

/-- The trace of a block that is not halted holds no failure (60_exceptions.md R154). -/
def failureFree (es : List Event) : Bool :=
  es.all fun e => match e with
    | .pinFail _ _ => false
    | .txFail _ _ => false
    | .pin _ _ => true
    | .wait _ => true
    | .tx _ => true

/-- No transport error without `halted` (10_state.md R26, 60_exceptions.md R154). -/
def haltInv (s : State) : Prop := s.halted = false → failureFree s.trace = true

/-- Every invariant of a constructed block together. -/
structure blockInv (s : State) : Prop where
  cfg : cfgWf s.cfg = true
  store : storeInv s
  window : windowInv s
  latch : latchInv s
  shape : traceInv s
  halt : haltInv s

end Sys2Proof.Machine
end

