-- ==== Sys2Proof/Certificates/Slice0/Obligations.lean ====
section
/-! DEFINITION. The statements for the provers. The helpers under `Sys2Proof.Stated` and the tables of
Machine/Tables.lean are written from the rules, in the spec's own terms, so that a statement compares the machine with
them. -/

namespace Sys2Proof.Stated
open Sys2Proof.Machine

/-- Answer j of the environment to the pin drives that follow (log 2). -/
def pinAnswer (s : State) (j : Nat) : PinAnswer := s.env.pins.getD j .ok

/-- Answer j of the environment to the bus writes that follow (log 2). -/
def busAnswer (s : State) (j : Nat) : BusAnswer := s.env.bus.getD j .ok

/-- The next n pin drives succeed. -/
def pinsOk (s : State) (n : Nat) : Prop := ∀ j, j < n → pinAnswer s j = .ok

/-- The next n bus writes succeed. -/
def busOk (s : State) (n : Nat) : Prop := ∀ j, j < n → busAnswer s j = .ok

/-- The environment after p pin drives and b bus writes. -/
def envAfter (s : State) (p b : Nat) : Environment := ⟨s.env.pins.drop p, s.env.bus.drop b⟩

/-- A descriptor is illegal (30_encoding.md R77): its opcode is none of the nine, or a field its format fixes to zero
is not zero. -/
def illegalDescriptor (d : Descriptor) : Prop :=
  (∀ row ∈ descriptorRows, opField d ≠ row.1) ∨
    ∃ row ∈ descriptorRows, opField d = row.1 ∧ d &&& row.2.2 ≠ row.2.1

/-- The result of a precondition error (60_exceptions.md R152): the state before, and the result. -/
def refusedWith (r : Result) (s : State) : StepOutcome := .next { s with reply := some r }

/-- No engine call is to run by itself: all that runs is what the host issues (40_protocol.md R105; log 10). -/
def hostOnly (s : State) : Prop := s.engineCalls = []

/-- How many of the first n cells of framebuffer k are `Unknown`. -/
def unwritten (s : State) (k n : Nat) : Nat := (List.range n).countP fun j => decide (readPixel s k j = none)

/-- The last command on the wire is the memory-write. -/
def memoryWriteIsLast (s : State) : Prop := lastCommand (wireSymbols s.cfg s.trace) = some s.cfg.cmds.ramwr

/-- 10_state.md R30, "exactly when": a memory-write is open only if it is the last command on the wire, and in
Initialized and Ready it is open also if it is the last (in Reset the converse fails, log 21). -/
def openWriteInv (s : State) : Prop :=
  s.halted = false →
    (s.ramwrOpen = true → memoryWriteIsLast s) ∧
    ((s.ds = .initialized ∨ s.ds = .ready) → memoryWriteIsLast s → s.ramwrOpen = true)

end Sys2Proof.Stated

open Sys2Proof Sys2Proof.Machine Sys2Proof.Stated

/-! ## Encoding -/

/-- Words written out bit by bit from 30_encoding.md R71 to R80 decode to the operations they stand for (a sanity
statement). -/
def Obligations.WrittenOutWordsDecode : Prop :=
  (descriptorOfBytes [0x03, 0x00, 0x01, 0x00, 0x00, 0x00, 0x00, 0x00, 0x00]).map decodeDescriptor =
      some (.ok (.setOrientation .landscape)) ∧
    (descriptorOfBytes [0x04, 0x00, 0x0A, 0x00, 0x14, 0x00, 0xC8, 0x00, 0x64]).map decodeDescriptor =
      some (.ok (.setAddressWindow 10 20 200 100)) ∧
    (descriptorOfBytes [0x11, 0x00, 0x00, 0x00, 0x01, 0x2B, 0xFF, 0x00, 0x1F]).map decodeDescriptor =
      some (.ok (.fbSetPixelRaw 0 76799 0x001F)) ∧
    decode PanelCommands.default (.burst [0b000101010]) = .ok .wireCaset ∧
    decode PanelCommands.default (.burst [0b010110000]) = .ok (.sendCommand 0xB0) ∧
    decode PanelCommands.default (.burst [0b100000000, 0b100111111]) = .ok (.sendData 0x00 [0x3F]) ∧
    (descriptorOfBytes [0x07, 0x00, 0x00, 0x00, 0x00, 0x00, 0x00, 0x00, 0x00]).map decodeDescriptor =
      some (.error .unknownOpcode)

/-- Decode and encode agree on every well-formed instruction, with every operand value. -/
def Obligations.DecodeOfEncodeIsIdentity : Prop :=
  ∀ (cmds : PanelCommands) (i : Instr), cmds.distinct → i.wf cmds = true → decode cmds (encode cmds i) = .ok i

/-- Each code has one meaning: what decodes is well formed and encodes to the same code. -/
def Obligations.EncodeOfDecodeIsIdentity : Prop :=
  ∀ (cmds : PanelCommands) (c : Code) (i : Instr), decode cmds c = .ok i → i.wf cmds = true ∧ encode cmds i = c

/-- 30_encoding.md R91: match and mask decide the operation, the rows are disjoint, the operands are the fields, and
what no row matches is illegal. -/
def Obligations.MatchAndMaskDecideTheOperation : Prop :=
  ∀ d : Descriptor,
    (∀ row ∈ descriptorRows,
      (∃ i, decodeDescriptor d = .ok i ∧ i.opcode = some row.1) ↔ d &&& row.2.2 = row.2.1) ∧
    (∀ row ∈ descriptorRows, ∀ other ∈ descriptorRows,
      d &&& row.2.2 = row.2.1 → d &&& other.2.2 = other.2.1 → row = other) ∧
    (∀ i cmds, decodeDescriptor d = .ok i → encode cmds i = .descriptor d) ∧
    ((∀ row ∈ descriptorRows, d &&& row.2.2 ≠ row.2.1) → ∃ e, decodeDescriptor d = .error e)

/-- 30_encoding.md R77, 60_exceptions.md R158: an illegal descriptor, in a block that is not halted, returns
`IllegalOperation` and has no effect; every other descriptor is an operation. -/
def Obligations.IllegalDescriptorHasNoEffect : Prop :=
  ∀ (s : State) (d : Descriptor) (rest : List Descriptor), hostOnly s → s.pending = d :: rest →
    (illegalDescriptor d → s.halted = false →
      step s = .next { s with pending := rest, reply := some .illegalOperation }) ∧
    (¬ illegalDescriptor d → ∃ i, decodeDescriptor d = .ok i ∧ step s = exec i { s with pending := rest })

/-- A step runs the decoded instruction, the host's next descriptor or an engine call that is to run by itself (log 10);
a table word placed with `withFetchWord` is the next one; a host that issues nothing leaves the block as it is (the
model's convention, log 1). -/
def Obligations.StepRunsTheDecodedOperation : Prop :=
  (∀ (s : State) (d : Descriptor) (rest : List Descriptor) (i : Instr), hostOnly s → s.pending = d :: rest →
    decode s.cfg.cmds (.descriptor d) = .ok i → step s = exec i { s with pending := rest }) ∧
  (∀ (s : State) (symbols : List Symbol) (rest : List (List Symbol)) (i : Instr), s.engineCalls = symbols :: rest →
    decode s.cfg.cmds (.burst symbols) = .ok i → step s = exec i { s with engineCalls := rest }) ∧
  (∀ (s : State) (nbits w : Nat) (i : Instr), decode s.cfg.cmds (tableCode nbits w) = .ok i →
    step (s.withFetchWord nbits w) = exec i (if nbits ≤ 16 then s else { s with engineCalls := [] })) ∧
  (∀ s : State, hostOnly s → s.pending = [] → step s = .next s)

/-- 40_protocol.md R105: the host cannot issue a call of the engine. No descriptor decodes to one and none has a
descriptor; the host's requests are descriptors of the nine operations. The other clauses say it of the model's own
field `engineCalls` (log 10) and its idle step (log 1), both the model's choice: where no engine call is to run by
itself, a step idles, runs one of the nine operations or refuses an illegal descriptor, and none is to run afterwards;
construction starts so, and no operation of either kind makes one. -/
def Obligations.HostCannotIssueEngineCalls : Prop :=
  (∀ (d : Descriptor) (i : Instr), decodeDescriptor d = .ok i → i.opcode.isSome = true) ∧
  (∀ (cmds : PanelCommands) (i : Instr) (d : Descriptor), i.opcode = none → encode cmds i ≠ .descriptor d) ∧
  (∀ (cfg : Cfg) (is : List Instr) (d : Descriptor), d ∈ requests cfg is →
    ∃ i ∈ is, i.opcode.isSome = true ∧ encode cfg.cmds i = .descriptor d) ∧
  (∀ s : State, hostOnly s →
    (s.pending = [] ∧ step s = .next s) ∨
    ∃ d rest, s.pending = d :: rest ∧
      ((∃ i, i.opcode.isSome = true ∧ step s = exec i { s with pending := rest }) ∨
        step s = refusedWith (if s.halted then .halted else .illegalOperation) { s with pending := rest })) ∧
  (∀ s t : State, hostOnly s → step s = .next t → hostOnly t) ∧
  (∀ (cfg : Cfg) (s : State), construct cfg = .block s → hostOnly s) ∧
  (∀ (i : Instr) (s t : State), exec i s = .next t → t.engineCalls = s.engineCalls ∧ t.pending = s.pending)

/-! ## Results -/

/-- 60_exceptions.md R157: a halted block refuses every descriptor, legal or not, and only construction gives a block
that is not halted. -/
def Obligations.HaltedBlockRefusesEveryDescriptor : Prop :=
  (∀ (s : State) (d : Descriptor) (rest : List Descriptor), s.halted = true → hostOnly s → s.pending = d :: rest →
    step s = .next { s with pending := rest, reply := some .halted }) ∧
  (∀ s t : State, s.halted = true → step s = .next t → t.halted = true ∧ t.faulted = true) ∧
  (∀ (cfg : Cfg) (s : State), construct cfg = .block s → s.halted = false)

/-- 60_exceptions.md R152: after a precondition error nothing has changed, and the same operation fails again in the
same way. For the engine's calls, alone or in `engineCalls` (the third clause), this is the model's choice (log 10). -/
def Obligations.PreconditionErrorChangesNothing : Prop :=
  (∀ (i : Instr) (s t : State) (r : Result), exec i s = .next t → t.reply = some r → r.isPrecondition = true →
    t = { s with reply := some r } ∧ exec i t = .next t) ∧
  (∀ (s t : State) (d : Descriptor) (rest : List Descriptor) (r : Result), hostOnly s → s.pending = d :: rest →
    step s = .next t → t.reply = some r → r.isPrecondition = true →
    t = { s with pending := rest, reply := some r } ∧ step { t with pending := d :: rest } = .next t) ∧
  (∀ (s t : State) (symbols : List Symbol) (rest : List (List Symbol)) (r : Result), s.engineCalls = symbols :: rest →
    step s = .next t → t.reply = some r → r.isPrecondition = true →
    t = { s with engineCalls := rest, reply := some r } ∧ step { t with engineCalls := symbols :: rest } = .next t)

/-- 60_exceptions.md R153: the acceptance table, in full. -/
def Obligations.AcceptanceByDisplayState : Prop :=
  ∀ (i : Instr) (s : State), i.opcode.isSome = true → s.halted = false →
    (acceptedIn i s.ds = false → exec i s = refusedWith .invalidState s) ∧
    (acceptedIn i s.ds = true → ∀ t, exec i s = .next t → t.reply ≠ some .invalidState)

/-- 60_exceptions.md R159, 41_controller.md R116; for the engine's calls, whose check of `halted` and result are the
model's choice (log 10), the same: the checks are made in order and the first that fails decides; where none fails the
action phase runs, and ends with `Ok` after every event, with the transport error of the first primitive that fails, or
never. -/
def Obligations.FirstFailingCheckDecides : Prop :=
  (∀ (i : Instr) (s : State) (r : Result), preconditionError s i = some r → exec i s = refusedWith r s) ∧
  (∀ (i : Instr) (s : State), preconditionError s i = none →
    (∃ t, exec i s = .next t ∧ t.reply = some .ok ∧ t.trace = s.trace ++ plannedEvents s i) ∨
      (∃ t r n e f, exec i s = .next t ∧ t.reply = some r ∧ r.isTransport = true ∧
        (plannedEvents s i)[n]? = some e ∧ failsAs e r f ∧ t.trace = s.trace ++ (plannedEvents s i).take n ++ [f]) ∨
      ∃ u, exec i s = .fault (.busStalled u)) ∧
  (∀ (s : State) (d : Descriptor) (rest : List Descriptor), hostOnly s → s.pending = d :: rest → illegalDescriptor d →
    step s = refusedWith (if s.halted then .halted else .illegalOperation) { s with pending := rest })

/-- 60_exceptions.md R150, R151: an operation that returns hands the host a result, and only one its row of the table
names for it (for the engine's calls the transport errors and `Halted`, log 10); the codes of the table. -/
def Obligations.EveryReturnHandsOverItsResult : Prop :=
  (∀ (i : Instr) (s t : State), exec i s = .next t → ∃ r, t.reply = some r ∧ mayRaise i r = true) ∧
  [Result.ok, .invalidState, .invalidWindow, .transportBus, .transportPin, .configMissingPin, .illegalOperation,
    .outOfBounds, .invalidBuffer, .halted].map resultCode = [0, 1, 2, 3, 4, 5, 6, 7, 8, 9]

/-- 60_exceptions.md R154, 40_protocol.md R100, with the model's readings of log 10 (an engine call by itself halts the
block too) and log 29 (the latches): a transport error stops the operation at the primitive that failed. What was
emitted stays, then comes the failure; nothing is committed; every latch is what the drives up to the failure made it,
so a failed pin's is Unknown; the block is halted; the error is the result of every operation in which a primitive
failed. -/
def Obligations.TransportErrorStopsTheOperation : Prop :=
  (∀ (i : Instr) (s t : State) (events : List Event), exec i s = .next t → t.trace = s.trace ++ events →
    (∀ role level, .pinFail role level ∈ events → t.reply = some .transportPin) ∧
    (∀ bs k, .txFail bs k ∈ events → t.reply = some .transportBus)) ∧
  ∀ (i : Instr) (s t : State) (r : Result), exec i s = .next t → t.reply = some r → r.isTransport = true →
    t.halted = true ∧ t.ds = s.ds ∧ t.win = s.win ∧ t.ramwrOpen = s.ramwrOpen ∧ t.px = s.px ∧ t.cfg = s.cfg ∧
    t.pending = s.pending ∧ t.engineCalls = s.engineCalls ∧
    (∃ n e f, (plannedEvents s i)[n]? = some e ∧ failsAs e r f ∧
      t.trace = s.trace ++ (plannedEvents s i).take n ++ [f] ∧
      ∀ q, latchOf t q = ((plannedEvents s i).take n ++ [f]).foldl (latchStep q) (latchOf s q)) ∧
    (∀ role level, t.trace.getLast? = some (.pinFail role level) → latchOf t role = .unknown)

/-- 60_exceptions.md R155, 40_protocol.md R102; for the engine's calls in the frame of log 10, and with the stall as the
fault of log 4, the model's choices: an operation whose bus write never completes returns no result; `halted` stays
false and what was emitted before the write stays. -/
def Obligations.StalledBusNeverReturns : Prop :=
  (∀ (i : Instr) (s : State) (n : Nat), preconditionError s i = none → pinsOk s (plannedEvents s i).length →
    busOk s n → n < (plannedEvents s i).countP (fun e => (burstOf e).isSome) → busAnswer s n = .never →
    ∃ u, exec i s = .fault (.busStalled u)) ∧
  ∀ (i : Instr) (s u : State), exec i s = .fault (.busStalled u) →
    s.halted = false ∧ u.halted = false ∧ u.reply = s.reply ∧ u.ds = s.ds ∧ u.win = s.win ∧
    u.ramwrOpen = s.ramwrOpen ∧ u.px = s.px ∧ .never ∈ s.env.bus ∧
    ∃ n bs, (plannedEvents s i)[n]? = some (.tx bs) ∧ u.trace = s.trace ++ (plannedEvents s i).take n

/-- 70_reset_and_hazards.md R199, one direction for all operations and both for those without a bus write. -/
def Obligations.OperationsReturnWhenTheBusAnswers : Prop :=
  (∀ (i : Instr) (s : State), BusAnswer.never ∉ s.env.bus → ∃ t, exec i s = .next t) ∧
  (∀ (s : State), ∃ t, exec .hardReset s = .next t) ∧
  (∀ (on : Bool) (s : State), ∃ t, exec (.setBacklight on) s = .next t) ∧
  (∀ (i : Instr) (s : State), isFramebufferOp i = true → ∃ t, exec i s = .next t)

/-! ## The controller group -/

/-- 41_controller.md R110, whole: the pulse, RST Absent, a failure of either drive, the halted block, the encoding. -/
def Obligations.HardResetPulsesReset : Prop :=
  ∀ s : State,
    (s.halted = false → s.cfg.rstRole = .present → pinsOk s 2 →
      exec .hardReset s = .next
        { s with ds := .reset, win := none, ramwrOpen := false, rstOut := .driven .high
                 trace := s.trace ++ [.pin .rst .low] ++ waitEvents s.cfg.tRstLow ++ [.pin .rst .high] ++
                   waitEvents s.cfg.tRstSettle
                 env := envAfter s 2 0, reply := some .ok }) ∧
    (s.halted = false → s.cfg.rstRole = .absent →
      exec .hardReset s = .next
        { s with ds := .reset, win := none, ramwrOpen := false
                 trace := s.trace ++ waitEvents s.cfg.tRstLow ++ waitEvents s.cfg.tRstSettle
                 reply := some .ok }) ∧
    (s.halted = false → s.cfg.rstRole = .present → pinAnswer s 0 = .fail →
      exec .hardReset s = .next
        { s with halted := true, rstOut := .unknown, trace := s.trace ++ [.pinFail .rst .low]
                 env := envAfter s 1 0, reply := some .transportPin }) ∧
    (s.halted = false → s.cfg.rstRole = .present → pinAnswer s 0 = .ok → pinAnswer s 1 = .fail →
      exec .hardReset s = .next
        { s with halted := true, rstOut := .unknown
                 trace := s.trace ++ [.pin .rst .low] ++ waitEvents s.cfg.tRstLow ++ [.pinFail .rst .high]
                 env := envAfter s 2 0, reply := some .transportPin }) ∧
    (s.halted = true → exec .hardReset s = refusedWith .halted s) ∧
    (∀ a0 a1 a2 a3 : Field, decodeDescriptor ((0x01 : Byte) ++ a0 ++ a1 ++ a2 ++ a3) =
      if a0 = 0 ∧ a1 = 0 ∧ a2 = 0 ∧ a3 = 0 then .ok .hardReset else .error .mustBeZero)

/-- 41_controller.md R111: `init` from Reset sends the bring-up sequence in list order with its waits, whatever the
sequence is. -/
def Obligations.InitSendsTheBringUpSequence : Prop :=
  ∀ s : State, s.halted = false → s.ds = .reset → s.cfg.dcRole = .present →
    pinsOk s ((s.cfg.initSeq.map fun st => if st.data = [] then 1 else 2).sum) →
    busOk s ((s.cfg.initSeq.map fun st => if st.data = [] then 1 else 2).sum) →
    exec .init s = .next
      { s with ds := .initialized, ramwrOpen := false
               dcOut := match s.cfg.initSeq.getLast? with
                 | none => s.dcOut
                 | some st => .driven (if st.data = [] then s.cfg.dcCmdLevel else dcDataLevel s.cfg)
               trace := s.trace ++ s.cfg.initSeq.flatMap fun st =>
                 [.pin .dc s.cfg.dcCmdLevel, .tx [st.cmd]] ++
                   (if st.data = [] then [] else [.pin .dc (dcDataLevel s.cfg), .tx st.data]) ++
                   waitEvents st.waitUs
               env := envAfter s ((s.cfg.initSeq.map fun st => if st.data = [] then 1 else 2).sum)
                 ((s.cfg.initSeq.map fun st => if st.data = [] then 1 else 2).sum)
               reply := some .ok }

/-- 41_controller.md R112: the orientation command and exactly one data byte, which is `MADCTL_OF(mode)`; `ds` and
`win` stay, `ramwr_open` is cleared. -/
def Obligations.SetOrientationSendsOneControlByte : Prop :=
  ∀ (s : State) (mode : Orientation), s.halted = false → (s.ds = .initialized ∨ s.ds = .ready) →
    s.cfg.dcRole = .present → pinsOk s 2 → busOk s 2 →
    exec (.setOrientation mode) s = .next
      { s with ramwrOpen := false, dcOut := .driven (dcDataLevel s.cfg)
               trace := s.trace ++
                 [.pin .dc s.cfg.dcCmdLevel, .tx [s.cfg.cmds.madctl],
                  .pin .dc (dcDataLevel s.cfg),
                  .tx [orientBitsOf s.cfg.orientBits mode ||| (if s.cfg.colorBgr then 0x08 else 0x00)]]
               env := envAfter s 2 2, reply := some .ok }

/-- 30_encoding.md R84, R85: in a well-formed configuration the control byte has bits 4, 2, 1 and 0 clear, bit 3 is
the colour order, and bits 7 to 5 are the orientation's. -/
def Obligations.ControlByteFields : Prop :=
  ∀ (cfg : Cfg) (mode : Orientation), cfgWf cfg = true →
    madctlOf cfg mode &&& 0x17 = 0 ∧ (madctlOf cfg mode).getLsbD 3 = cfg.colorBgr ∧
      madctlOf cfg mode &&& 0xE0 = orientBitsOf cfg.orientBits mode

/-- 41_controller.md R113: a valid window is sent as column-address-set, row-address-set and memory-write, and becomes
the shadow window of a Ready block. -/
def Obligations.SetAddressWindowOpensMemoryWrite : Prop :=
  ∀ (s : State) (x0 y0 x1 y1 : Field), s.halted = false → (s.ds = .initialized ∨ s.ds = .ready) →
    x0.toNat ≤ x1.toNat → x1.toNat < s.cfg.panelW → y0.toNat ≤ y1.toNat → y1.toNat < s.cfg.panelH →
    s.cfg.dcRole = .present → pinsOk s 5 → busOk s 5 →
    exec (.setAddressWindow x0 y0 x1 y1) s = .next
      { s with ds := .ready, win := some ⟨x0, y0, x1, y1⟩, ramwrOpen := true, dcOut := .driven s.cfg.dcCmdLevel
               trace := s.trace ++
                 [.pin .dc s.cfg.dcCmdLevel, .tx [s.cfg.cmds.caset],
                  .pin .dc (dcDataLevel s.cfg), .tx [hi8 x0, lo8 x0, hi8 x1, lo8 x1],
                  .pin .dc s.cfg.dcCmdLevel, .tx [s.cfg.cmds.raset],
                  .pin .dc (dcDataLevel s.cfg), .tx [hi8 y0, lo8 y0, hi8 y1, lo8 y1],
                  .pin .dc s.cfg.dcCmdLevel, .tx [s.cfg.cmds.ramwr]]
               env := envAfter s 5 5, reply := some .ok }

/-- 41_controller.md R114: a Ready block sends the view as one data burst of exactly `2*FB_W*FB_H` bytes; nothing but
`dc_out` and the trace changes (and the count of free bytes, log 5). -/
def Obligations.EatFramebufferSendsTheWholeView : Prop :=
  ∀ (s : State) (k : Field), s.halted = false → s.ds = .ready → k.toNat < s.cfg.nFb → s.cfg.dcRole = .present →
    pinsOk s 1 → busOk s 1 →
    exec (.eatFramebuffer k) s = .next
      { s with dcOut := .driven (dcDataLevel s.cfg)
               trace := s.trace ++ [.pin .dc (dcDataLevel s.cfg), .tx (view s k.toNat).1]
               env := envAfter s 1 1, freeCount := (view s k.toNat).2, reply := some .ok } ∧
    (view s k.toNat).1.length = 2 * (s.cfg.fbW * s.cfg.fbH)

/-- 41_controller.md R115, whole: BL driven to its on level or the other one, BL Absent, a failed drive, the halted
block; no other operation drives BL; the encoding, at every value of its four fields. -/
def Obligations.SetBacklightDrivesBl : Prop :=
  (∀ (s : State) (on : Bool),
    (s.halted = false → s.cfg.blRole = .present → pinAnswer s 0 = .ok →
      exec (.setBacklight on) s = .next
        { s with blOut := .driven (if on then s.cfg.blOnLevel else flipLevel s.cfg.blOnLevel)
                 trace := s.trace ++ [.pin .bl (if on then s.cfg.blOnLevel else flipLevel s.cfg.blOnLevel)]
                 env := envAfter s 1 0, reply := some .ok }) ∧
    (s.halted = false → s.cfg.blRole = .absent →
      exec (.setBacklight on) s = .next { s with reply := some .ok }) ∧
    (s.halted = false → s.cfg.blRole = .present → pinAnswer s 0 = .fail →
      exec (.setBacklight on) s = .next
        { s with halted := true, blOut := .unknown
                 trace := s.trace ++ [.pinFail .bl (if on then s.cfg.blOnLevel else flipLevel s.cfg.blOnLevel)]
                 env := envAfter s 1 0, reply := some .transportPin }) ∧
    (s.halted = true → exec (.setBacklight on) s = refusedWith .halted s)) ∧
  (∀ (i : Instr) (s t : State), (∀ on, i ≠ .setBacklight on) → exec i s = .next t →
    t.blOut = s.blOut ∧ ∃ events, t.trace = s.trace ++ events ∧ ∀ l, .pin .bl l ∉ events ∧ .pinFail .bl l ∉ events) ∧
  (∀ a0 a1 a2 a3 : Field, decodeDescriptor ((0x06 : Byte) ++ a0 ++ a1 ++ a2 ++ a3) =
    if a0 = 0 ∧ a1 = 0 ∧ a2 = 0 ∧ a3 = 0 then .ok (.setBacklight false)
    else if a0 = 1 ∧ a1 = 0 ∧ a2 = 0 ∧ a3 = 0 then .ok (.setBacklight true)
    else .error .mustBeZero)

/-! ## The framebuffer group -/

/-- 42_framebuffer.md R130: the pixel at (x, y) of framebuffer k is written, every other cell is as before, and
nothing else changes; out of range and no such buffer are refused; the encoding. -/
def Obligations.FbSetPixelXyWritesOneCell : Prop :=
  ∀ (s : State) (k x y : Field) (color : Pixel),
    (s.halted = false → k.toNat < s.cfg.nFb → x.toNat < s.cfg.fbW → y.toNat < s.cfg.fbH →
      ∃ t, exec (.fbSetPixelXy k x y color) s = .next t ∧
        t = { s with px := t.px, reply := some .ok } ∧
        readPixel t k.toNat (y.toNat * s.cfg.fbW + x.toNat) = some color ∧
        ∀ k' i, (k' ≠ k.toNat ∨ i ≠ y.toNat * s.cfg.fbW + x.toNat) → readPixel t k' i = readPixel s k' i) ∧
    (s.halted = false → k.toNat < s.cfg.nFb → ¬ (x.toNat < s.cfg.fbW ∧ y.toNat < s.cfg.fbH) →
      exec (.fbSetPixelXy k x y color) s = refusedWith .outOfBounds s) ∧
    (s.halted = false → s.cfg.nFb ≤ k.toNat → exec (.fbSetPixelXy k x y color) s = refusedWith .invalidBuffer s) ∧
    (s.halted = true → exec (.fbSetPixelXy k x y color) s = refusedWith .halted s) ∧
    decodeDescriptor ((0x10 : Byte) ++ k ++ x ++ y ++ color) = .ok (.fbSetPixelXy k x y color)

/-- 42_framebuffer.md R131: the cell at a raw offset is written, every other cell is as before, and nothing else
changes; its two view bytes are at twice the offset; out of range and no such buffer are refused; the encoding; the
same cell by position is the same operation. -/
def Obligations.FbSetPixelRawWritesOneCell : Prop :=
  ∀ (s : State) (k : Field) (offset : BitVec 32) (color : Pixel),
    (s.halted = false → k.toNat < s.cfg.nFb → offset.toNat < s.cfg.fbW * s.cfg.fbH →
      ∃ t, exec (.fbSetPixelRaw k offset color) s = .next t ∧
        t = { s with px := t.px, reply := some .ok } ∧
        readPixel t k.toNat offset.toNat = some color ∧
        (view t k.toNat).1[2 * offset.toNat]? = some (if swapOf s.cfg k.toNat then lo8 color else hi8 color) ∧
        (view t k.toNat).1[2 * offset.toNat + 1]? = some (if swapOf s.cfg k.toNat then hi8 color else lo8 color) ∧
        ∀ k' i, (k' ≠ k.toNat ∨ i ≠ offset.toNat) → readPixel t k' i = readPixel s k' i) ∧
    (s.halted = false → k.toNat < s.cfg.nFb → s.cfg.fbW * s.cfg.fbH ≤ offset.toNat →
      exec (.fbSetPixelRaw k offset color) s = refusedWith .outOfBounds s) ∧
    (s.halted = false → s.cfg.nFb ≤ k.toNat → exec (.fbSetPixelRaw k offset color) s = refusedWith .invalidBuffer s) ∧
    (s.halted = true → exec (.fbSetPixelRaw k offset color) s = refusedWith .halted s) ∧
    decodeDescriptor ((0x11 : Byte) ++ k ++ offset.extractLsb' 16 16 ++ offset.extractLsb' 0 16 ++ color) =
      .ok (.fbSetPixelRaw k offset color) ∧
    (∀ x y : Field, x.toNat < s.cfg.fbW → y.toNat < s.cfg.fbH → offset.toNat = y.toNat * s.cfg.fbW + x.toNat →
      exec (.fbSetPixelRaw k offset color) s = exec (.fbSetPixelXy k x y color) s)

/-- 42_framebuffer.md R132: every cell of framebuffer k becomes the colour, other framebuffers and everything else are
as before; no such buffer is refused; the encoding. -/
def Obligations.FbClearSetsEveryCell : Prop :=
  ∀ (s : State) (k : Field) (color : Pixel),
    (s.halted = false → k.toNat < s.cfg.nFb →
      ∃ t, exec (.fbClear k color) s = .next t ∧
        t = { s with px := t.px, reply := some .ok } ∧
        (∀ i, i < s.cfg.fbW * s.cfg.fbH → readPixel t k.toNat i = some color) ∧
        (∀ k' i, k' ≠ k.toNat → readPixel t k' i = readPixel s k' i) ∧
        (view t k.toNat).1 = (List.replicate (s.cfg.fbW * s.cfg.fbH)
          (if swapOf s.cfg k.toNat then [lo8 color, hi8 color] else [hi8 color, lo8 color])).flatten) ∧
    (s.halted = false → s.cfg.nFb ≤ k.toNat → exec (.fbClear k color) s = refusedWith .invalidBuffer s) ∧
    (s.halted = true → exec (.fbClear k color) s = refusedWith .halted s) ∧
    (∀ a1 a2 : Field, decodeDescriptor ((0x12 : Byte) ++ k ++ a1 ++ a2 ++ color) =
      if a1 = 0 ∧ a2 = 0 then .ok (.fbClear k color) else .error .mustBeZero)

/-- 42_framebuffer.md R132: on a canonical store, the clear is the loop of its pseudocode, cell by cell. -/
def Obligations.FbClearIsItsLoop : Prop :=
  ∀ (s : State) (k : Nat) (color : Pixel), Memory.wf s.px →
    clearPixels k color s = (List.range (s.cfg.fbW * s.cfg.fbH)).foldl (fun t i => writePixel k i color t) s

/-- 42_framebuffer.md R135: the framebuffer operations change the pixel store alone (and the result), and what they do
depends on the pixel store, the configuration and `halted` alone. -/
def Obligations.FramebufferOpsAreIndependentOfTheController : Prop :=
  ∀ (i : Instr) (s u : State), isFramebufferOp i = true → u.cfg = s.cfg → u.halted = s.halted → u.px = s.px →
    ∃ t v, exec i s = .next t ∧ exec i u = .next v ∧
      t = { s with px := t.px, reply := t.reply } ∧ v = { u with px := t.px, reply := t.reply }

/-! ## The view -/

/-- 20_memory.md R52: the two view bytes of each written pixel, in the order the swap flag says, which no step
changes. -/
def Obligations.ViewBytesFollowTheSwapFlag : Prop :=
  (∀ (s : State) (k i : Nat) (v : Pixel), i < s.cfg.fbW * s.cfg.fbH → readPixel s k i = some v →
    (swapOf s.cfg k = false → (view s k).1[2 * i]? = some (hi8 v) ∧ (view s k).1[2 * i + 1]? = some (lo8 v)) ∧
    (swapOf s.cfg k = true → (view s k).1[2 * i]? = some (lo8 v) ∧ (view s k).1[2 * i + 1]? = some (hi8 v))) ∧
  (∀ s t : State, step s = .next t → t.cfg.swapBytes = s.cfg.swapBytes) ∧
  pixelBytes true 0xABCD = [0xCD, 0xAB] ∧ pixelBytes false 0xABCD = [0xAB, 0xCD]

/-- 20_memory.md R55 as the model draws its unspecified bytes (log 5, log 16): an `Unknown` cell's two view bytes are
free bytes of their own, numbered from the counter on in the order of the view; only a transfer that passed its checks
moves the counter, past all it drew, so that a later transfer draws other ones. Nothing depends on their values. -/
def Obligations.UnwrittenPixelsSendFreeBytes : Prop :=
  (∀ (s : State) (k i : Nat), i < s.cfg.fbW * s.cfg.fbH → readPixel s k i = none →
    (view s k).1[2 * i]? = some (Config.freeByte (s.freeCount + 2 * unwritten s k i)) ∧
    (view s k).1[2 * i + 1]? = some (Config.freeByte (s.freeCount + 2 * unwritten s k i + 1))) ∧
  (∀ (s : State) (k : Nat), (view s k).2 = s.freeCount + 2 * unwritten s k (s.cfg.fbW * s.cfg.fbH)) ∧
  (∀ (i : Instr) (s t : State), (∀ k, i ≠ .eatFramebuffer k) → exec i s = .next t → t.freeCount = s.freeCount) ∧
  (∀ (s t : State) (k : Field), exec (.eatFramebuffer k) s = .next t →
    (t.reply = some .ok ∨ t.reply = some .transportPin ∨ t.reply = some .transportBus →
      t.freeCount = s.freeCount + 2 * unwritten s k.toNat (s.cfg.fbW * s.cfg.fbH)) ∧
    (t.reply ≠ some .ok → t.reply ≠ some .transportPin → t.reply ≠ some .transportBus →
      t.freeCount = s.freeCount)) ∧
  (∀ (s t u : State) (k : Field) (i j : Nat), exec (.eatFramebuffer k) s = .next t → t.reply = some .ok →
    i < s.cfg.fbW * s.cfg.fbH → j < s.cfg.fbW * s.cfg.fbH →
    readPixel s k.toNat i = none → readPixel t k.toNat j = none →
    exec (.eatFramebuffer k) t = .next u → u.reply = some .ok →
    ∃ (first second : List Byte) (a b : Nat), t.trace.getLast? = some (.tx first) ∧ u.trace.getLast? = some (.tx second) ∧
      first[2 * i]? = some (Config.freeByte a) ∧ first[2 * i + 1]? = some (Config.freeByte (a + 1)) ∧
      second[2 * j]? = some (Config.freeByte b) ∧ second[2 * j + 1]? = some (Config.freeByte (b + 1)) ∧ a + 1 < b)

/-- 20_memory.md R54: transferring the same unmodified, fully written framebuffer twice transmits the same bytes twice
and changes no pixel. -/
def Obligations.SameFrameTwiceSendsTheSameBytes : Prop :=
  ∀ (s t u : State) (k : Field), (∀ i, i < s.cfg.fbW * s.cfg.fbH → readPixel s k.toNat i ≠ none) →
    exec (.eatFramebuffer k) s = .next t → t.reply = some .ok →
    exec (.eatFramebuffer k) t = .next u → u.reply = some .ok →
    u.px = s.px ∧ ∃ bs, t.trace.getLast? = some (.tx bs) ∧ u.trace.getLast? = some (.tx bs)

/-! ## The Command Protocol engine -/

/-- 40_protocol.md R103: `send_command` drives DC to the command level, then sends the byte in a burst of its own; a
failed drive sends no byte; its symbol is `0 cccccccc`. -/
def Obligations.SendCommandContract : Prop :=
  ∀ (s : State) (c : Byte), s.cfg.dcRole = .present →
    (pinAnswer s 0 = .fail → sendCommand c s = .raised .transportPin
      { s with dcOut := .unknown, trace := s.trace ++ [.pinFail .dc s.cfg.dcCmdLevel], env := envAfter s 1 0 }) ∧
    (pinAnswer s 0 = .ok → busAnswer s 0 = .ok → sendCommand c s = .done
      { s with dcOut := .driven s.cfg.dcCmdLevel, trace := s.trace ++ [.pin .dc s.cfg.dcCmdLevel, .tx [c]]
               env := envAfter s 1 1 }) ∧
    (∀ k, pinAnswer s 0 = .ok → busAnswer s 0 = .fail k → k ≤ 1 → sendCommand c s = .raised .transportBus
      { s with dcOut := .driven s.cfg.dcCmdLevel
               trace := s.trace ++ [.pin .dc s.cfg.dcCmdLevel, .txFail [c] k], env := envAfter s 1 1 }) ∧
    (pinAnswer s 0 = .ok → busAnswer s 0 = .never → sendCommand c s = .stuck
      { s with dcOut := .driven s.cfg.dcCmdLevel, trace := s.trace ++ [.pin .dc s.cfg.dcCmdLevel]
               env := envAfter s 1 1 }) ∧
    wireSymbols s.cfg [.pin .dc s.cfg.dcCmdLevel, .tx [c]] = [(0#1) ++ c]

/-- 40_protocol.md R104: `send_data` drives DC to the data level, then sends all its bytes in one burst; a failed
drive sends no byte; its symbols are `1 bbbbbbbb`, one per byte. -/
def Obligations.SendDataContract : Prop :=
  ∀ (s : State) (bs : List Byte), s.cfg.dcRole = .present → 1 ≤ bs.length →
    (pinAnswer s 0 = .fail → sendData bs s = .raised .transportPin
      { s with dcOut := .unknown, trace := s.trace ++ [.pinFail .dc (dcDataLevel s.cfg)], env := envAfter s 1 0 }) ∧
    (pinAnswer s 0 = .ok → busAnswer s 0 = .ok → sendData bs s = .done
      { s with dcOut := .driven (dcDataLevel s.cfg), trace := s.trace ++ [.pin .dc (dcDataLevel s.cfg), .tx bs]
               env := envAfter s 1 1 }) ∧
    (∀ k, pinAnswer s 0 = .ok → busAnswer s 0 = .fail k → k ≤ bs.length → sendData bs s = .raised .transportBus
      { s with dcOut := .driven (dcDataLevel s.cfg)
               trace := s.trace ++ [.pin .dc (dcDataLevel s.cfg), .txFail bs k], env := envAfter s 1 1 }) ∧
    (pinAnswer s 0 = .ok → busAnswer s 0 = .never → sendData bs s = .stuck
      { s with dcOut := .driven (dcDataLevel s.cfg), trace := s.trace ++ [.pin .dc (dcDataLevel s.cfg)]
               env := envAfter s 1 1 }) ∧
    wireSymbols s.cfg [.pin .dc (dcDataLevel s.cfg), .tx bs] = bs.map fun b => (1#1) ++ b

/-- The engine's calls as operations of their own (log 10) complete: each sends its burst and changes nothing but
`dc_out` and the trace; a named command symbol is the `send_command` of its configured byte (30_encoding.md R80; log
11). -/
def Obligations.EngineCallsSendOneBurst : Prop :=
  ∀ s : State, s.halted = false → s.cfg.dcRole = .present → pinsOk s 1 → busOk s 1 →
    (∀ c : Byte, exec (.sendCommand c) s = .next
      { s with dcOut := .driven s.cfg.dcCmdLevel, trace := s.trace ++ [.pin .dc s.cfg.dcCmdLevel, .tx [c]]
               env := envAfter s 1 1, reply := some .ok }) ∧
    (∀ (b : Byte) (more : List Byte), exec (.sendData b more) s = .next
      { s with dcOut := .driven (dcDataLevel s.cfg)
               trace := s.trace ++ [.pin .dc (dcDataLevel s.cfg), .tx (b :: more)]
               env := envAfter s 1 1, reply := some .ok }) ∧
    (∀ row ∈ [(Instr.wireSlpout, s.cfg.cmds.slpout), (Instr.wireColmod, s.cfg.cmds.colmod),
              (Instr.wireDispon, s.cfg.cmds.dispon), (Instr.wireMadctl, s.cfg.cmds.madctl),
              (Instr.wireCaset, s.cfg.cmds.caset), (Instr.wireRaset, s.cfg.cmds.raset),
              (Instr.wireRamwr, s.cfg.cmds.ramwr)],
      exec row.1 s = .next
        { s with dcOut := .driven s.cfg.dcCmdLevel, trace := s.trace ++ [.pin .dc s.cfg.dcCmdLevel, .tx [row.2]]
                 env := envAfter s 1 1, reply := some .ok })

/-! ## Trace and wire view -/

/-- 41_controller.md R113: a window that is set puts exactly one column-set, one row-set and one memory-write command
on the wire, in that order, with the bounds as parameters. -/
def Obligations.WindowIsThreePanelCommands : Prop :=
  ∀ (s t : State) (x0 y0 x1 y1 : Field), s.cfg.dcRole = .present →
    exec (.setAddressWindow x0 y0 x1 y1) s = .next t → t.reply = some .ok →
    ∃ events, t.trace = s.trace ++ events ∧
      panelCommands (wireSymbols s.cfg events) =
        [(s.cfg.cmds.caset, [hi8 x0, lo8 x0, hi8 x1, lo8 x1]), (s.cfg.cmds.raset, [hi8 y0, lo8 y0, hi8 y1, lo8 y1]),
         (s.cfg.cmds.ramwr, [])]

/-- 41_controller.md R111, 30_encoding.md R79: a completed `init` puts the bring-up sequence on the wire, each step
one panel command with its data. -/
def Obligations.InitIsItsPanelCommands : Prop :=
  ∀ s t : State, s.cfg.dcRole = .present → exec .init s = .next t → t.reply = some .ok →
    ∃ events, t.trace = s.trace ++ events ∧
      panelCommands (wireSymbols s.cfg events) = s.cfg.initSeq.map fun st => (st.cmd, st.data)

/-- 10_state.md R29: a drive of DC to the level it already has changes nothing in the wire view. -/
def Obligations.RedundantDcDriveIsInvisible : Prop :=
  ∀ (cfg : Cfg) (before after : List Event) (l : Level), latchAfter .dc before = .driven l →
    wireView cfg (before ++ .pin .dc l :: after) = wireView cfg (before ++ after)

/-- 40_protocol.md R101: `wait(t)` emits `Wait(t)` where t > 0 and nothing where it is 0, cannot fail, and takes at
least t; two consecutive waits mean the same as their sum. -/
def Obligations.WaitsAddUp : Prop :=
  (∀ (s : State) (t : Nat), wait t s = .done { s with trace := s.trace ++ if t = 0 then [] else [.wait t] }) ∧
  (∀ (s u : State) (t : Nat), wait t s = .done u → minElapsed u.trace = minElapsed s.trace + t) ∧
  (∀ (cfg : Cfg) (before after : List Event) (a b : Nat),
    wireView cfg (before ++ .wait a :: .wait b :: after) = wireView cfg (before ++ .wait (a + b) :: after) ∧
      minElapsed (before ++ .wait a :: .wait b :: after) = minElapsed (before ++ .wait (a + b) :: after))

/-- 40_protocol.md R107: in a block that keeps its invariants every burst comes directly after a drive of DC, a burst
of more than one byte after a drive to the data level, a burst at the command level is one byte, and every transmitted
byte is a command or a data byte. -/
def Obligations.EveryBurstFollowsItsDcDrive : Prop :=
  ∀ s : State, blockInv s → s.halted = false →
    (∀ before bs after, s.trace = before ++ .tx bs :: after →
      ∃ l, before.getLast? = some (.pin .dc l) ∧ (1 < bs.length → l = dcDataLevel s.cfg) ∧
        (l = s.cfg.dcCmdLevel → bs.length = 1)) ∧
    (∀ bytes, .burst none bytes ∉ wireView s.cfg s.trace)

/-! ## Whole-machine rules and invariants -/

/-- 10_state.md R21; that an engine call by itself leaves `ds` alone is the model's frame (log 10): how `ds` moves. On
`Ok` as the table says, otherwise not at all; forward by at most one step; backward only by `hard_reset`; never to
Uninitialized. -/
def Obligations.DisplayStateMovesByTheTable : Prop :=
  ∀ (i : Instr) (s t : State), exec i s = .next t →
    (t.reply = some .ok → acceptedIn i s.ds = true ∧ t.ds = dsAfter i s.ds) ∧
    (t.reply ≠ some .ok → t.ds = s.ds) ∧
    dsNumber t.ds ≤ dsNumber s.ds + 1 ∧
    (dsNumber t.ds < dsNumber s.ds → i = .hardReset ∧ t.ds = .reset) ∧
    (t.ds = .uninitialized → s.ds = .uninitialized)

/-- 10_state.md R24, R25, 41_controller.md R110, R115: which operation drives which pin. The latches of the others are
as before, and the trace holds no event of them. -/
def Obligations.EachPinHasItsOperations : Prop :=
  ∀ (i : Instr) (s t : State), exec i s = .next t →
    ((∀ on, i ≠ .setBacklight on) → t.blOut = s.blOut) ∧
    (i ≠ .hardReset → t.rstOut = s.rstOut) ∧
    (i = .hardReset ∨ (∃ on, i = .setBacklight on) ∨ isFramebufferOp i = true → t.dcOut = s.dcOut) ∧
    ∃ events, t.trace = s.trace ++ events ∧
      ((∀ on, i ≠ .setBacklight on) → ∀ l, .pin .bl l ∉ events ∧ .pinFail .bl l ∉ events) ∧
      (i ≠ .hardReset → ∀ l, .pin .rst l ∉ events ∧ .pinFail .rst l ∉ events) ∧
      (i = .hardReset ∨ (∃ on, i = .setBacklight on) ∨ isFramebufferOp i = true →
        ∀ l bs n, .pin .dc l ∉ events ∧ .pinFail .dc l ∉ events ∧ .tx bs ∉ events ∧ .txFail bs n ∉ events)

/-- 10_state.md R20, R26, R28, 20_memory.md R50: no step changes the configuration, removes an event or clears
`halted`, and only the framebuffer operations change a pixel. -/
def Obligations.StepKeepsConfigurationAndHistory : Prop :=
  (∀ s t : State, step s = .next t → t.cfg = s.cfg ∧ (∃ events, t.trace = s.trace ++ events) ∧
    (s.halted = true → t.halted = true)) ∧
  (∀ (i : Instr) (s t : State), exec i s = .next t → isFramebufferOp i = false → t.px = s.px)

/-- Every step keeps the invariants of a constructed block: a well-formed configuration; a canonical pixel store that
lists only existing cells; a valid shadow window, present in Ready; latches that are what the trace drove last; the
shape of the trace; no failure without `halted`. -/
def Obligations.StepKeepsBlockInvariant : Prop :=
  ∀ s t : State, blockInv s → step s = .next t → blockInv t

/-- 10_state.md R38, R39, 60_exceptions.md R156: what construction gives. DC Absent is `ConfigMissingPin`; another
malformed configuration is not instantiated; every other role may be Absent; otherwise the block has the reset values
and its invariants. -/
def Obligations.ConstructionGivesTheResetState : Prop :=
  (∀ cfg : Cfg, cfg.dcRole = .absent → construct cfg = .failed .configMissingPin) ∧
  (∀ cfg : Cfg, cfg.dcRole = .present → cfgWf cfg = false → construct cfg = .notInstantiated) ∧
  (∀ (cfg : Cfg) (rst bl cs sdi : Presence), cfgWf cfg = true →
    cfgWf { cfg with rstRole := rst, blRole := bl, csRole := cs, sdiRole := sdi } = true) ∧
  (∀ cfg : Cfg, cfgWf cfg = true → ∃ s, construct cfg = .block s ∧ blockInv s ∧ s.cfg = cfg ∧
    s.ds = .uninitialized ∧ s.halted = false ∧ (∀ r, latchOf s r = .unknown) ∧ s.win = none ∧
    s.ramwrOpen = false ∧ (∀ k i, readPixel s k i = none) ∧ s.trace = [])

/-- The reset state is a constructed block (its configuration is the model's choice, log 7 and log 8) and meets the
invariants. -/
def Obligations.ResetMeetsBlockInvariant : Prop :=
  construct Cfg.default = .block State.reset ∧ blockInv State.reset

/-- 10_state.md R30, 70_reset_and_hazards.md R187: while the host alone issues operations, an open memory-write is the
last command on the wire of a block that is not halted, and in Initialized and Ready a memory-write that is the last
command is open (in Reset it is not, log 21). Construction starts so and every step keeps it. -/
def Obligations.OpenMemoryWriteIsTheLastCommand : Prop :=
  (∀ (cfg : Cfg) (s : State), construct cfg = .block s → hostOnly s ∧ openWriteInv s) ∧
  ∀ s t : State, blockInv s → hostOnly s → openWriteInv s → step s = .next t → hostOnly t ∧ openWriteInv t
end

