-- ==== Sys2Proof/Laws/Codec.lean ====
section
/-! SUPPORT. The fields of a packed descriptor, the bytes of a symbol, the operand codes. -/

namespace Sys2Proof

@[simp] theorem opField_pack (op : Byte) (a0 a1 a2 a3 : Field) : opField (packDescriptor op a0 a1 a2 a3) = op := by
  unfold opField packDescriptor
  apply BitVec.eq_of_getLsbD_eq
  intro i hi
  have h1 : ¬ 64 + i < 16 := by omega
  have h2 : ¬ 64 + i - 16 < 16 := by omega
  have h3 : ¬ 64 + i - 16 - 16 < 16 := by omega
  have h4 : ¬ 64 + i - 16 - 16 - 16 < 16 := by omega
  have h5 : 64 + i - 16 - 16 - 16 - 16 = i := by omega
  simp only [BitVec.getLsbD_extractLsb', BitVec.getLsbD_append, hi, decide_true, Bool.true_and, h1, h2, h3, h4, h5,
    if_false]

@[simp] theorem a0Field_pack (op : Byte) (a0 a1 a2 a3 : Field) : a0Field (packDescriptor op a0 a1 a2 a3) = a0 := by
  unfold a0Field packDescriptor
  apply BitVec.eq_of_getLsbD_eq
  intro i hi
  have h1 : ¬ 48 + i < 16 := by omega
  have h2 : ¬ 48 + i - 16 < 16 := by omega
  have h3 : ¬ 48 + i - 16 - 16 < 16 := by omega
  have h4 : 48 + i - 16 - 16 - 16 = i := by omega
  simp only [BitVec.getLsbD_extractLsb', BitVec.getLsbD_append, hi, decide_true, Bool.true_and, h1, h2, h3, h4, if_true,
    if_false]

@[simp] theorem a1Field_pack (op : Byte) (a0 a1 a2 a3 : Field) : a1Field (packDescriptor op a0 a1 a2 a3) = a1 := by
  unfold a1Field packDescriptor
  apply BitVec.eq_of_getLsbD_eq
  intro i hi
  have h1 : ¬ 32 + i < 16 := by omega
  have h2 : ¬ 32 + i - 16 < 16 := by omega
  have h3 : 32 + i - 16 - 16 = i := by omega
  simp only [BitVec.getLsbD_extractLsb', BitVec.getLsbD_append, hi, decide_true, Bool.true_and, h1, h2, h3, if_true,
    if_false]

@[simp] theorem a2Field_pack (op : Byte) (a0 a1 a2 a3 : Field) : a2Field (packDescriptor op a0 a1 a2 a3) = a2 := by
  unfold a2Field packDescriptor
  apply BitVec.eq_of_getLsbD_eq
  intro i hi
  have h1 : ¬ 16 + i < 16 := by omega
  have h2 : 16 + i - 16 = i := by omega
  simp only [BitVec.getLsbD_extractLsb', BitVec.getLsbD_append, hi, decide_true, Bool.true_and, h1, h2, if_true,
    if_false]

@[simp] theorem a3Field_pack (op : Byte) (a0 a1 a2 a3 : Field) : a3Field (packDescriptor op a0 a1 a2 a3) = a3 := by
  unfold a3Field packDescriptor
  apply BitVec.eq_of_getLsbD_eq
  intro i hi
  simp only [BitVec.getLsbD_extractLsb', BitVec.getLsbD_append, hi, decide_true, Bool.true_and, Nat.zero_add,
    if_true]

/-- A descriptor is its fields: no bit is dropped. -/
theorem pack_fields (d : Descriptor) :
    packDescriptor (opField d) (a0Field d) (a1Field d) (a2Field d) (a3Field d) = d := by
  unfold packDescriptor opField a0Field a1Field a2Field a3Field
  apply BitVec.eq_of_getLsbD_eq
  intro i hi
  simp only [BitVec.getLsbD_extractLsb', BitVec.getLsbD_append]
  split_ifs with h1 h2 h3 h4
  · simp [h1]
  · have : 16 + (i - 16) = i := by omega
    simp [h2, this]
  · have : 32 + (i - 16 - 16) = i := by omega
    simp [h3, this]
  · have : 48 + (i - 16 - 16 - 16) = i := by omega
    simp [h4, this]
  · have : 64 + (i - 16 - 16 - 16 - 16) = i := by omega
    have : i - 16 - 16 - 16 - 16 < 8 := by omega
    simp [*]

/-- The two halves of a raw offset (30_encoding.md R76). -/
theorem offset_halves (offset : BitVec 32) : offset.extractLsb' 16 16 ++ offset.extractLsb' 0 16 = offset := by
  apply BitVec.eq_of_getLsbD_eq
  intro i hi
  simp only [BitVec.getLsbD_extractLsb', BitVec.getLsbD_append]
  split_ifs with h1
  · simp [h1]
  · have : 16 + (i - 16) = i := by omega
    have : i - 16 < 16 := by omega
    simp [*]

theorem append_high (a b : Field) : (a ++ b).extractLsb' 16 16 = a := by
  apply BitVec.eq_of_getLsbD_eq
  intro i hi
  have h1 : ¬ 16 + i < 16 := by omega
  have h2 : 16 + i - 16 = i := by omega
  simp only [BitVec.getLsbD_extractLsb', BitVec.getLsbD_append, hi, decide_true, Bool.true_and, h1, h2,
    if_false]

theorem append_low (a b : Field) : (a ++ b).extractLsb' 0 16 = b := by
  apply BitVec.eq_of_getLsbD_eq
  intro i hi
  simp only [BitVec.getLsbD_extractLsb', BitVec.getLsbD_append, hi, decide_true, Bool.true_and, Nat.zero_add,
    if_true]

@[simp] theorem isDataSymbol_command (c : Byte) : isDataSymbol (commandSymbol c) = false := by
  unfold isDataSymbol commandSymbol
  rw [BitVec.getLsbD_append]
  rfl

@[simp] theorem isDataSymbol_data (b : Byte) : isDataSymbol (dataSymbol b) = true := by
  unfold isDataSymbol dataSymbol
  rw [BitVec.getLsbD_append]
  rfl

@[simp] theorem symbolByte_command (c : Byte) : symbolByte (commandSymbol c) = c := by
  apply BitVec.eq_of_getLsbD_eq
  intro i hi
  simp only [symbolByte, commandSymbol, BitVec.getLsbD_extractLsb', BitVec.getLsbD_append, hi, decide_true,
    Bool.true_and, Nat.zero_add, if_true]

@[simp] theorem symbolByte_data (b : Byte) : symbolByte (dataSymbol b) = b := by
  apply BitVec.eq_of_getLsbD_eq
  intro i hi
  simp only [symbolByte, dataSymbol, BitVec.getLsbD_extractLsb', BitVec.getLsbD_append, hi, decide_true,
    Bool.true_and, Nat.zero_add, if_true]

/-- A data symbol is the symbol of its byte. -/
theorem dataSymbol_symbolByte {y : Symbol} (h : isDataSymbol y = true) : dataSymbol (symbolByte y) = y := by
  apply BitVec.eq_of_getLsbD_eq
  intro i hi
  simp only [symbolByte, dataSymbol, BitVec.getLsbD_extractLsb', BitVec.getLsbD_append]
  split_ifs with h1
  · simp [h1]
  · obtain rfl : i = 8 := by omega
    simpa [isDataSymbol] using h.symm

/-- A command symbol is the symbol of its byte. -/
theorem commandSymbol_symbolByte {y : Symbol} (h : isDataSymbol y = false) : commandSymbol (symbolByte y) = y := by
  apply BitVec.eq_of_getLsbD_eq
  intro i hi
  simp only [symbolByte, commandSymbol, BitVec.getLsbD_extractLsb', BitVec.getLsbD_append]
  split_ifs with h1
  · simp [h1]
  · obtain rfl : i = 8 := by omega
    simpa [isDataSymbol] using h.symm

@[simp] theorem orientationOf_code (m : Orientation) : orientationOf (orientationCode m) = some m := by
  cases m <;> decide

theorem orientationOf_some {a : Field} {m : Orientation} (h : orientationOf a = some m) : orientationCode m = a := by
  unfold orientationOf at h
  split_ifs at h <;> simp_all <;> subst h <;> rfl

@[simp] theorem onOf_code (on : Bool) : onOf (onCode on) = some on := by cases on <;> decide

theorem onOf_some {a : Field} {on : Bool} (h : onOf a = some on) : onCode on = a := by
  unfold onOf at h
  split_ifs at h <;> simp_all <;> subst h <;> rfl

/-! ## Match and mask -/

theorem pack_and_pack (op p : Byte) (a0 a1 a2 a3 b0 b1 b2 b3 : Field) :
    packDescriptor op a0 a1 a2 a3 &&& packDescriptor p b0 b1 b2 b3 =
      packDescriptor (op &&& p) (a0 &&& b0) (a1 &&& b1) (a2 &&& b2) (a3 &&& b3) := by
  unfold packDescriptor
  apply BitVec.eq_of_getLsbD_eq
  intro i hi
  simp only [BitVec.getLsbD_and, BitVec.getLsbD_append]
  split_ifs <;> rfl

theorem pack_inj {op p : Byte} {a0 a1 a2 a3 b0 b1 b2 b3 : Field} :
    packDescriptor op a0 a1 a2 a3 = packDescriptor p b0 b1 b2 b3 ↔
      op = p ∧ a0 = b0 ∧ a1 = b1 ∧ a2 = b2 ∧ a3 = b3 := by
  constructor
  · intro h
    exact ⟨by simpa using congrArg opField h, by simpa using congrArg a0Field h, by simpa using congrArg a1Field h,
      by simpa using congrArg a2Field h, by simpa using congrArg a3Field h⟩
  · rintro ⟨rfl, rfl, rfl, rfl, rfl⟩
    rfl

/-- The match and mask of a row, as a condition on the fields (30_encoding.md R91). -/
theorem row_match (d : Descriptor) (op : Byte) (m0 m1 m2 m3 : Field) :
    d &&& packDescriptor 0xFF m0 m1 m2 m3 = packDescriptor op 0 0 0 0 ↔
      opField d = op ∧ a0Field d &&& m0 = 0 ∧ a1Field d &&& m1 = 0 ∧ a2Field d &&& m2 = 0 ∧ a3Field d &&& m3 = 0 := by
  have all : ∀ b : Byte, b &&& 0xFF = b := fun b => BitVec.and_allOnes (x := b)
  conv_lhs => rw [← pack_fields d, pack_and_pack, pack_inj, all]

/-- A field whose upper bits are clear is small. -/
theorem toNat_lt_of_and (n : Nat) (a : Field) (hn : n < 16) (h : a &&& ~~~(BitVec.ofNat 16 (2 ^ n - 1)) = 0) :
    a.toNat < 2 ^ n := by
  have split : a = (a &&& BitVec.ofNat 16 (2 ^ n - 1)) ||| (a &&& ~~~(BitVec.ofNat 16 (2 ^ n - 1))) := by
    apply BitVec.eq_of_getLsbD_eq
    intro i hi
    simp only [BitVec.getLsbD_or, BitVec.getLsbD_and, BitVec.getLsbD_not, hi, decide_true, Bool.true_and]
    cases a.getLsbD i <;> simp
  replace split : a = a &&& BitVec.ofNat 16 (2 ^ n - 1) := by simpa [h] using split
  have hlt : 2 ^ n < 2 ^ 16 := Nat.pow_lt_pow_right (by omega) hn
  have value := congrArg BitVec.toNat split
  rw [BitVec.toNat_and, BitVec.toNat_ofNat, Nat.mod_eq_of_lt (by omega), Nat.and_two_pow_sub_one_eq_mod] at value
  rw [value]
  exact Nat.mod_lt _ (Nat.two_pow_pos n)

/-- The legal codes of format O (30_encoding.md R74). -/
theorem orientationOf_isSome (a : Field) : (∃ m, orientationOf a = some m) ↔ a &&& 0xFFFC = 0 := by
  constructor
  · rintro ⟨m, h⟩
    rw [← orientationOf_some h]
    cases m <;> decide
  · intro h
    have := toNat_lt_of_and 2 a (by omega) h
    have : a = 0 ∨ a = 1 ∨ a = 2 ∨ a = 3 := by bv_omega
    rcases this with rfl | rfl | rfl | rfl <;> exact ⟨_, rfl⟩

/-- The legal codes of format L (30_encoding.md R74). -/
theorem onOf_isSome (a : Field) : (∃ on, onOf a = some on) ↔ a &&& 0xFFFE = 0 := by
  constructor
  · rintro ⟨on, h⟩
    rw [← onOf_some h]
    cases on <;> decide
  · intro h
    have := toNat_lt_of_and 1 a (by omega) h
    have : a = 0 ∨ a = 1 := by bv_omega
    rcases this with rfl | rfl <;> exact ⟨_, rfl⟩

/-- The table of 30_encoding.md R91, field by field. -/
theorem descriptorRows_eq : descriptorRows =
    [(0x01, packDescriptor 0x01 0 0 0 0, packDescriptor 0xFF 0xFFFF 0xFFFF 0xFFFF 0xFFFF),
     (0x02, packDescriptor 0x02 0 0 0 0, packDescriptor 0xFF 0xFFFF 0xFFFF 0xFFFF 0xFFFF),
     (0x03, packDescriptor 0x03 0 0 0 0, packDescriptor 0xFF 0xFFFC 0xFFFF 0xFFFF 0xFFFF),
     (0x04, packDescriptor 0x04 0 0 0 0, packDescriptor 0xFF 0 0 0 0),
     (0x05, packDescriptor 0x05 0 0 0 0, packDescriptor 0xFF 0 0xFFFF 0xFFFF 0xFFFF),
     (0x06, packDescriptor 0x06 0 0 0 0, packDescriptor 0xFF 0xFFFE 0xFFFF 0xFFFF 0xFFFF),
     (0x10, packDescriptor 0x10 0 0 0 0, packDescriptor 0xFF 0 0 0 0),
     (0x11, packDescriptor 0x11 0 0 0 0, packDescriptor 0xFF 0 0 0 0),
     (0x12, packDescriptor 0x12 0 0 0 0, packDescriptor 0xFF 0 0xFFFF 0xFFFF 0)] := by decide

end Sys2Proof
end

