-- ==== Sys2Proof/Laws/State.lean ====
section
/-! SUPPORT. Each named update of the state, field by field. -/

namespace Sys2Proof.Machine

@[simp] theorem emit_cfg (e : Event) (s : State) : (emit e s).cfg = s.cfg := rfl
@[simp] theorem emit_ds (e : Event) (s : State) : (emit e s).ds = s.ds := rfl
@[simp] theorem emit_halted (e : Event) (s : State) : (emit e s).halted = s.halted := rfl
@[simp] theorem emit_rstOut (e : Event) (s : State) : (emit e s).rstOut = s.rstOut := rfl
@[simp] theorem emit_dcOut (e : Event) (s : State) : (emit e s).dcOut = s.dcOut := rfl
@[simp] theorem emit_blOut (e : Event) (s : State) : (emit e s).blOut = s.blOut := rfl
@[simp] theorem emit_win (e : Event) (s : State) : (emit e s).win = s.win := rfl
@[simp] theorem emit_ramwrOpen (e : Event) (s : State) : (emit e s).ramwrOpen = s.ramwrOpen := rfl
@[simp] theorem emit_px (e : Event) (s : State) : (emit e s).px = s.px := rfl
@[simp] theorem emit_trace (e : Event) (s : State) : (emit e s).trace = s.trace ++ [e] := rfl
@[simp] theorem emit_pending (e : Event) (s : State) : (emit e s).pending = s.pending := rfl
@[simp] theorem emit_engineCalls (e : Event) (s : State) : (emit e s).engineCalls = s.engineCalls := rfl
@[simp] theorem emit_env (e : Event) (s : State) : (emit e s).env = s.env := rfl
@[simp] theorem emit_reply (e : Event) (s : State) : (emit e s).reply = s.reply := rfl
@[simp] theorem emit_freeCount (e : Event) (s : State) : (emit e s).freeCount = s.freeCount := rfl

@[simp] theorem setLatch_rst_rstOut (l : Latch) (s : State) : (setLatch .rst l s).rstOut = l := rfl
@[simp] theorem setLatch_rst_dcOut (l : Latch) (s : State) : (setLatch .rst l s).dcOut = s.dcOut := rfl
@[simp] theorem setLatch_rst_blOut (l : Latch) (s : State) : (setLatch .rst l s).blOut = s.blOut := rfl

@[simp] theorem setLatch_dc_rstOut (l : Latch) (s : State) : (setLatch .dc l s).rstOut = s.rstOut := rfl
@[simp] theorem setLatch_dc_dcOut (l : Latch) (s : State) : (setLatch .dc l s).dcOut = l := rfl
@[simp] theorem setLatch_dc_blOut (l : Latch) (s : State) : (setLatch .dc l s).blOut = s.blOut := rfl

@[simp] theorem setLatch_bl_rstOut (l : Latch) (s : State) : (setLatch .bl l s).rstOut = s.rstOut := rfl
@[simp] theorem setLatch_bl_dcOut (l : Latch) (s : State) : (setLatch .bl l s).dcOut = s.dcOut := rfl
@[simp] theorem setLatch_bl_blOut (l : Latch) (s : State) : (setLatch .bl l s).blOut = l := rfl

@[simp] theorem usePin_cfg (s : State) : (usePin s).cfg = s.cfg := rfl
@[simp] theorem usePin_ds (s : State) : (usePin s).ds = s.ds := rfl
@[simp] theorem usePin_halted (s : State) : (usePin s).halted = s.halted := rfl
@[simp] theorem usePin_rstOut (s : State) : (usePin s).rstOut = s.rstOut := rfl
@[simp] theorem usePin_dcOut (s : State) : (usePin s).dcOut = s.dcOut := rfl
@[simp] theorem usePin_blOut (s : State) : (usePin s).blOut = s.blOut := rfl
@[simp] theorem usePin_win (s : State) : (usePin s).win = s.win := rfl
@[simp] theorem usePin_ramwrOpen (s : State) : (usePin s).ramwrOpen = s.ramwrOpen := rfl
@[simp] theorem usePin_px (s : State) : (usePin s).px = s.px := rfl
@[simp] theorem usePin_trace (s : State) : (usePin s).trace = s.trace := rfl
@[simp] theorem usePin_pending (s : State) : (usePin s).pending = s.pending := rfl
@[simp] theorem usePin_engineCalls (s : State) : (usePin s).engineCalls = s.engineCalls := rfl
@[simp] theorem usePin_env (s : State) : (usePin s).env = ⟨s.env.pins.tail, s.env.bus⟩ := rfl
@[simp] theorem usePin_reply (s : State) : (usePin s).reply = s.reply := rfl
@[simp] theorem usePin_freeCount (s : State) : (usePin s).freeCount = s.freeCount := rfl

@[simp] theorem useBus_cfg (s : State) : (useBus s).cfg = s.cfg := rfl
@[simp] theorem useBus_ds (s : State) : (useBus s).ds = s.ds := rfl
@[simp] theorem useBus_halted (s : State) : (useBus s).halted = s.halted := rfl
@[simp] theorem useBus_rstOut (s : State) : (useBus s).rstOut = s.rstOut := rfl
@[simp] theorem useBus_dcOut (s : State) : (useBus s).dcOut = s.dcOut := rfl
@[simp] theorem useBus_blOut (s : State) : (useBus s).blOut = s.blOut := rfl
@[simp] theorem useBus_win (s : State) : (useBus s).win = s.win := rfl
@[simp] theorem useBus_ramwrOpen (s : State) : (useBus s).ramwrOpen = s.ramwrOpen := rfl
@[simp] theorem useBus_px (s : State) : (useBus s).px = s.px := rfl
@[simp] theorem useBus_trace (s : State) : (useBus s).trace = s.trace := rfl
@[simp] theorem useBus_pending (s : State) : (useBus s).pending = s.pending := rfl
@[simp] theorem useBus_engineCalls (s : State) : (useBus s).engineCalls = s.engineCalls := rfl
@[simp] theorem useBus_env (s : State) : (useBus s).env = ⟨s.env.pins, s.env.bus.tail⟩ := rfl
@[simp] theorem useBus_reply (s : State) : (useBus s).reply = s.reply := rfl
@[simp] theorem useBus_freeCount (s : State) : (useBus s).freeCount = s.freeCount := rfl

@[simp] theorem setHalted_cfg (s : State) : (setHalted s).cfg = s.cfg := rfl
@[simp] theorem setHalted_ds (s : State) : (setHalted s).ds = s.ds := rfl
@[simp] theorem setHalted_halted (s : State) : (setHalted s).halted = true := rfl
@[simp] theorem setHalted_rstOut (s : State) : (setHalted s).rstOut = s.rstOut := rfl
@[simp] theorem setHalted_dcOut (s : State) : (setHalted s).dcOut = s.dcOut := rfl
@[simp] theorem setHalted_blOut (s : State) : (setHalted s).blOut = s.blOut := rfl
@[simp] theorem setHalted_win (s : State) : (setHalted s).win = s.win := rfl
@[simp] theorem setHalted_ramwrOpen (s : State) : (setHalted s).ramwrOpen = s.ramwrOpen := rfl
@[simp] theorem setHalted_px (s : State) : (setHalted s).px = s.px := rfl
@[simp] theorem setHalted_trace (s : State) : (setHalted s).trace = s.trace := rfl
@[simp] theorem setHalted_pending (s : State) : (setHalted s).pending = s.pending := rfl
@[simp] theorem setHalted_engineCalls (s : State) : (setHalted s).engineCalls = s.engineCalls := rfl
@[simp] theorem setHalted_env (s : State) : (setHalted s).env = s.env := rfl
@[simp] theorem setHalted_reply (s : State) : (setHalted s).reply = s.reply := rfl
@[simp] theorem setHalted_freeCount (s : State) : (setHalted s).freeCount = s.freeCount := rfl

@[simp] theorem commitReset_cfg (s : State) : (commitReset s).cfg = s.cfg := rfl
@[simp] theorem commitReset_ds (s : State) : (commitReset s).ds = .reset := rfl
@[simp] theorem commitReset_halted (s : State) : (commitReset s).halted = s.halted := rfl
@[simp] theorem commitReset_rstOut (s : State) : (commitReset s).rstOut = s.rstOut := rfl
@[simp] theorem commitReset_dcOut (s : State) : (commitReset s).dcOut = s.dcOut := rfl
@[simp] theorem commitReset_blOut (s : State) : (commitReset s).blOut = s.blOut := rfl
@[simp] theorem commitReset_win (s : State) : (commitReset s).win = none := rfl
@[simp] theorem commitReset_ramwrOpen (s : State) : (commitReset s).ramwrOpen = false := rfl
@[simp] theorem commitReset_px (s : State) : (commitReset s).px = s.px := rfl
@[simp] theorem commitReset_trace (s : State) : (commitReset s).trace = s.trace := rfl
@[simp] theorem commitReset_pending (s : State) : (commitReset s).pending = s.pending := rfl
@[simp] theorem commitReset_engineCalls (s : State) : (commitReset s).engineCalls = s.engineCalls := rfl
@[simp] theorem commitReset_env (s : State) : (commitReset s).env = s.env := rfl
@[simp] theorem commitReset_reply (s : State) : (commitReset s).reply = s.reply := rfl
@[simp] theorem commitReset_freeCount (s : State) : (commitReset s).freeCount = s.freeCount := rfl

@[simp] theorem commitInit_cfg (s : State) : (commitInit s).cfg = s.cfg := rfl
@[simp] theorem commitInit_ds (s : State) : (commitInit s).ds = .initialized := rfl
@[simp] theorem commitInit_halted (s : State) : (commitInit s).halted = s.halted := rfl
@[simp] theorem commitInit_rstOut (s : State) : (commitInit s).rstOut = s.rstOut := rfl
@[simp] theorem commitInit_dcOut (s : State) : (commitInit s).dcOut = s.dcOut := rfl
@[simp] theorem commitInit_blOut (s : State) : (commitInit s).blOut = s.blOut := rfl
@[simp] theorem commitInit_win (s : State) : (commitInit s).win = s.win := rfl
@[simp] theorem commitInit_ramwrOpen (s : State) : (commitInit s).ramwrOpen = false := rfl
@[simp] theorem commitInit_px (s : State) : (commitInit s).px = s.px := rfl
@[simp] theorem commitInit_trace (s : State) : (commitInit s).trace = s.trace := rfl
@[simp] theorem commitInit_pending (s : State) : (commitInit s).pending = s.pending := rfl
@[simp] theorem commitInit_engineCalls (s : State) : (commitInit s).engineCalls = s.engineCalls := rfl
@[simp] theorem commitInit_env (s : State) : (commitInit s).env = s.env := rfl
@[simp] theorem commitInit_reply (s : State) : (commitInit s).reply = s.reply := rfl
@[simp] theorem commitInit_freeCount (s : State) : (commitInit s).freeCount = s.freeCount := rfl

@[simp] theorem commitOrientation_cfg (s : State) : (commitOrientation s).cfg = s.cfg := rfl
@[simp] theorem commitOrientation_ds (s : State) : (commitOrientation s).ds = s.ds := rfl
@[simp] theorem commitOrientation_halted (s : State) : (commitOrientation s).halted = s.halted := rfl
@[simp] theorem commitOrientation_rstOut (s : State) : (commitOrientation s).rstOut = s.rstOut := rfl
@[simp] theorem commitOrientation_dcOut (s : State) : (commitOrientation s).dcOut = s.dcOut := rfl
@[simp] theorem commitOrientation_blOut (s : State) : (commitOrientation s).blOut = s.blOut := rfl
@[simp] theorem commitOrientation_win (s : State) : (commitOrientation s).win = s.win := rfl
@[simp] theorem commitOrientation_ramwrOpen (s : State) : (commitOrientation s).ramwrOpen = false := rfl
@[simp] theorem commitOrientation_px (s : State) : (commitOrientation s).px = s.px := rfl
@[simp] theorem commitOrientation_trace (s : State) : (commitOrientation s).trace = s.trace := rfl
@[simp] theorem commitOrientation_pending (s : State) : (commitOrientation s).pending = s.pending := rfl
@[simp] theorem commitOrientation_engineCalls (s : State) : (commitOrientation s).engineCalls = s.engineCalls := rfl
@[simp] theorem commitOrientation_env (s : State) : (commitOrientation s).env = s.env := rfl
@[simp] theorem commitOrientation_reply (s : State) : (commitOrientation s).reply = s.reply := rfl
@[simp] theorem commitOrientation_freeCount (s : State) : (commitOrientation s).freeCount = s.freeCount := rfl

@[simp] theorem commitWindow_cfg (w : AddressWindow) (s : State) : (commitWindow w s).cfg = s.cfg := rfl
@[simp] theorem commitWindow_ds (w : AddressWindow) (s : State) : (commitWindow w s).ds = .ready := rfl
@[simp] theorem commitWindow_halted (w : AddressWindow) (s : State) : (commitWindow w s).halted = s.halted := rfl
@[simp] theorem commitWindow_rstOut (w : AddressWindow) (s : State) : (commitWindow w s).rstOut = s.rstOut := rfl
@[simp] theorem commitWindow_dcOut (w : AddressWindow) (s : State) : (commitWindow w s).dcOut = s.dcOut := rfl
@[simp] theorem commitWindow_blOut (w : AddressWindow) (s : State) : (commitWindow w s).blOut = s.blOut := rfl
@[simp] theorem commitWindow_win (w : AddressWindow) (s : State) : (commitWindow w s).win = some w := rfl
@[simp] theorem commitWindow_ramwrOpen (w : AddressWindow) (s : State) : (commitWindow w s).ramwrOpen = true := rfl
@[simp] theorem commitWindow_px (w : AddressWindow) (s : State) : (commitWindow w s).px = s.px := rfl
@[simp] theorem commitWindow_trace (w : AddressWindow) (s : State) : (commitWindow w s).trace = s.trace := rfl
@[simp] theorem commitWindow_pending (w : AddressWindow) (s : State) : (commitWindow w s).pending = s.pending := rfl
@[simp] theorem commitWindow_engineCalls (w : AddressWindow) (s : State) : (commitWindow w s).engineCalls = s.engineCalls := rfl
@[simp] theorem commitWindow_env (w : AddressWindow) (s : State) : (commitWindow w s).env = s.env := rfl
@[simp] theorem commitWindow_reply (w : AddressWindow) (s : State) : (commitWindow w s).reply = s.reply := rfl
@[simp] theorem commitWindow_freeCount (w : AddressWindow) (s : State) : (commitWindow w s).freeCount = s.freeCount := rfl

@[simp] theorem returns_cfg (r : Result) (s : State) : (returns r s).cfg = s.cfg := rfl
@[simp] theorem returns_ds (r : Result) (s : State) : (returns r s).ds = s.ds := rfl
@[simp] theorem returns_halted (r : Result) (s : State) : (returns r s).halted = s.halted := rfl
@[simp] theorem returns_rstOut (r : Result) (s : State) : (returns r s).rstOut = s.rstOut := rfl
@[simp] theorem returns_dcOut (r : Result) (s : State) : (returns r s).dcOut = s.dcOut := rfl
@[simp] theorem returns_blOut (r : Result) (s : State) : (returns r s).blOut = s.blOut := rfl
@[simp] theorem returns_win (r : Result) (s : State) : (returns r s).win = s.win := rfl
@[simp] theorem returns_ramwrOpen (r : Result) (s : State) : (returns r s).ramwrOpen = s.ramwrOpen := rfl
@[simp] theorem returns_px (r : Result) (s : State) : (returns r s).px = s.px := rfl
@[simp] theorem returns_trace (r : Result) (s : State) : (returns r s).trace = s.trace := rfl
@[simp] theorem returns_pending (r : Result) (s : State) : (returns r s).pending = s.pending := rfl
@[simp] theorem returns_engineCalls (r : Result) (s : State) : (returns r s).engineCalls = s.engineCalls := rfl
@[simp] theorem returns_env (r : Result) (s : State) : (returns r s).env = s.env := rfl
@[simp] theorem returns_reply (r : Result) (s : State) : (returns r s).reply = some r := rfl
@[simp] theorem returns_freeCount (r : Result) (s : State) : (returns r s).freeCount = s.freeCount := rfl

@[simp] theorem writePixel_cfg (k i : Nat) (v : Pixel) (s : State) : (writePixel k i v s).cfg = s.cfg := rfl
@[simp] theorem writePixel_ds (k i : Nat) (v : Pixel) (s : State) : (writePixel k i v s).ds = s.ds := rfl
@[simp] theorem writePixel_halted (k i : Nat) (v : Pixel) (s : State) : (writePixel k i v s).halted = s.halted := rfl
@[simp] theorem writePixel_rstOut (k i : Nat) (v : Pixel) (s : State) : (writePixel k i v s).rstOut = s.rstOut := rfl
@[simp] theorem writePixel_dcOut (k i : Nat) (v : Pixel) (s : State) : (writePixel k i v s).dcOut = s.dcOut := rfl
@[simp] theorem writePixel_blOut (k i : Nat) (v : Pixel) (s : State) : (writePixel k i v s).blOut = s.blOut := rfl
@[simp] theorem writePixel_win (k i : Nat) (v : Pixel) (s : State) : (writePixel k i v s).win = s.win := rfl
@[simp] theorem writePixel_ramwrOpen (k i : Nat) (v : Pixel) (s : State) : (writePixel k i v s).ramwrOpen = s.ramwrOpen := rfl
@[simp] theorem writePixel_px (k i : Nat) (v : Pixel) (s : State) : (writePixel k i v s).px = Memory.write s.px (cellAddr s.cfg k i) v := rfl
@[simp] theorem writePixel_trace (k i : Nat) (v : Pixel) (s : State) : (writePixel k i v s).trace = s.trace := rfl
@[simp] theorem writePixel_pending (k i : Nat) (v : Pixel) (s : State) : (writePixel k i v s).pending = s.pending := rfl
@[simp] theorem writePixel_engineCalls (k i : Nat) (v : Pixel) (s : State) : (writePixel k i v s).engineCalls = s.engineCalls := rfl
@[simp] theorem writePixel_env (k i : Nat) (v : Pixel) (s : State) : (writePixel k i v s).env = s.env := rfl
@[simp] theorem writePixel_reply (k i : Nat) (v : Pixel) (s : State) : (writePixel k i v s).reply = s.reply := rfl
@[simp] theorem writePixel_freeCount (k i : Nat) (v : Pixel) (s : State) : (writePixel k i v s).freeCount = s.freeCount := rfl

@[simp] theorem clearPixels_cfg (k : Nat) (v : Pixel) (s : State) : (clearPixels k v s).cfg = s.cfg := rfl
@[simp] theorem clearPixels_ds (k : Nat) (v : Pixel) (s : State) : (clearPixels k v s).ds = s.ds := rfl
@[simp] theorem clearPixels_halted (k : Nat) (v : Pixel) (s : State) : (clearPixels k v s).halted = s.halted := rfl
@[simp] theorem clearPixels_rstOut (k : Nat) (v : Pixel) (s : State) : (clearPixels k v s).rstOut = s.rstOut := rfl
@[simp] theorem clearPixels_dcOut (k : Nat) (v : Pixel) (s : State) : (clearPixels k v s).dcOut = s.dcOut := rfl
@[simp] theorem clearPixels_blOut (k : Nat) (v : Pixel) (s : State) : (clearPixels k v s).blOut = s.blOut := rfl
@[simp] theorem clearPixels_win (k : Nat) (v : Pixel) (s : State) : (clearPixels k v s).win = s.win := rfl
@[simp] theorem clearPixels_ramwrOpen (k : Nat) (v : Pixel) (s : State) : (clearPixels k v s).ramwrOpen = s.ramwrOpen := rfl
@[simp] theorem clearPixels_px (k : Nat) (v : Pixel) (s : State) : (clearPixels k v s).px = Memory.fill s.px (cellAddr s.cfg k 0) (fbSize s.cfg) v := rfl
@[simp] theorem clearPixels_trace (k : Nat) (v : Pixel) (s : State) : (clearPixels k v s).trace = s.trace := rfl
@[simp] theorem clearPixels_pending (k : Nat) (v : Pixel) (s : State) : (clearPixels k v s).pending = s.pending := rfl
@[simp] theorem clearPixels_engineCalls (k : Nat) (v : Pixel) (s : State) : (clearPixels k v s).engineCalls = s.engineCalls := rfl
@[simp] theorem clearPixels_env (k : Nat) (v : Pixel) (s : State) : (clearPixels k v s).env = s.env := rfl
@[simp] theorem clearPixels_reply (k : Nat) (v : Pixel) (s : State) : (clearPixels k v s).reply = s.reply := rfl
@[simp] theorem clearPixels_freeCount (k : Nat) (v : Pixel) (s : State) : (clearPixels k v s).freeCount = s.freeCount := rfl

@[simp] theorem setLatch_cfg (r : PinRole) (l : Latch) (s : State) : (setLatch r l s).cfg = s.cfg := by cases r <;> rfl
@[simp] theorem setLatch_ds (r : PinRole) (l : Latch) (s : State) : (setLatch r l s).ds = s.ds := by cases r <;> rfl
@[simp] theorem setLatch_halted (r : PinRole) (l : Latch) (s : State) : (setLatch r l s).halted = s.halted := by cases r <;> rfl
@[simp] theorem setLatch_win (r : PinRole) (l : Latch) (s : State) : (setLatch r l s).win = s.win := by cases r <;> rfl
@[simp] theorem setLatch_ramwrOpen (r : PinRole) (l : Latch) (s : State) : (setLatch r l s).ramwrOpen = s.ramwrOpen := by cases r <;> rfl
@[simp] theorem setLatch_px (r : PinRole) (l : Latch) (s : State) : (setLatch r l s).px = s.px := by cases r <;> rfl
@[simp] theorem setLatch_trace (r : PinRole) (l : Latch) (s : State) : (setLatch r l s).trace = s.trace := by cases r <;> rfl
@[simp] theorem setLatch_pending (r : PinRole) (l : Latch) (s : State) : (setLatch r l s).pending = s.pending := by cases r <;> rfl
@[simp] theorem setLatch_engineCalls (r : PinRole) (l : Latch) (s : State) : (setLatch r l s).engineCalls = s.engineCalls := by cases r <;> rfl
@[simp] theorem setLatch_env (r : PinRole) (l : Latch) (s : State) : (setLatch r l s).env = s.env := by cases r <;> rfl
@[simp] theorem setLatch_reply (r : PinRole) (l : Latch) (s : State) : (setLatch r l s).reply = s.reply := by cases r <;> rfl
@[simp] theorem setLatch_freeCount (r : PinRole) (l : Latch) (s : State) : (setLatch r l s).freeCount = s.freeCount := by cases r <;> rfl

/-- Setting a latch sets that one alone. -/
@[simp] theorem latchOf_setLatch (r q : PinRole) (l : Latch) (s : State) :
    latchOf (setLatch r l s) q = if r = q then l else latchOf s q := by cases r <;> cases q <;> rfl
@[simp] theorem latchOf_emit (q : PinRole) (e : Event) (s : State) : latchOf (emit e s) q = latchOf s q := by cases q <;> rfl
@[simp] theorem latchOf_usePin (q : PinRole) (s : State) : latchOf (usePin s) q = latchOf s q := by cases q <;> rfl
@[simp] theorem latchOf_useBus (q : PinRole) (s : State) : latchOf (useBus s) q = latchOf s q := by cases q <;> rfl
@[simp] theorem latchOf_setHalted (q : PinRole) (s : State) : latchOf (setHalted s) q = latchOf s q := by cases q <;> rfl
@[simp] theorem latchOf_commitReset (q : PinRole) (s : State) : latchOf (commitReset s) q = latchOf s q := by cases q <;> rfl
@[simp] theorem latchOf_commitInit (q : PinRole) (s : State) : latchOf (commitInit s) q = latchOf s q := by cases q <;> rfl
@[simp] theorem latchOf_commitOrientation (q : PinRole) (s : State) : latchOf (commitOrientation s) q = latchOf s q := by cases q <;> rfl
@[simp] theorem latchOf_commitWindow (q : PinRole) (w : AddressWindow) (s : State) : latchOf (commitWindow w s) q = latchOf s q := by cases q <;> rfl
@[simp] theorem latchOf_returns (q : PinRole) (r : Result) (s : State) : latchOf (returns r s) q = latchOf s q := by cases q <;> rfl
@[simp] theorem latchOf_writePixel (q : PinRole) (k i : Nat) (v : Pixel) (s : State) : latchOf (writePixel k i v s) q = latchOf s q := by cases q <;> rfl
@[simp] theorem latchOf_clearPixels (q : PinRole) (k : Nat) (v : Pixel) (s : State) : latchOf (clearPixels k v s) q = latchOf s q := by cases q <;> rfl

end Sys2Proof.Machine
end

