-- ==== Sys2Proof/Laws/Ops.lean ====
section
/-! SUPPORT. What the shared operations can do, said once: flows, primitives, the check phase, the end of an
operation; and the action phase of every operation as the run of its event list. -/

namespace Sys2Proof.Machine

/-! ## Flows -/

@[simp] theorem Flow.done_andThen (s : State) (g : State → Flow) : (Flow.done s).andThen g = g s := rfl
@[simp] theorem Flow.raised_andThen (r : Result) (s : State) (g : State → Flow) :
    (Flow.raised r s).andThen g = .raised r s := rfl
@[simp] theorem Flow.stuck_andThen (s : State) (g : State → Flow) : (Flow.stuck s).andThen g = .stuck s := rfl

theorem Flow.andThen_assoc (f : Flow) (g h : State → Flow) :
    (f.andThen g).andThen h = f.andThen fun s => (g s).andThen h := by cases f <;> rfl

@[simp] theorem Flow.andThen_done (f : Flow) : f.andThen .done = f := by cases f <;> rfl

/-! ## Checks and results -/

@[simp] theorem firstFailure_nil : firstFailure [] = none := rfl

@[simp] theorem firstFailure_cons (b : Bool) (r : Result) (cs : List (Bool × Result)) :
    firstFailure ((b, r) :: cs) = if b then firstFailure cs else some r := by cases b <;> rfl

/-- The check phase either ends the operation with the first failure or goes on to the action. -/
theorem checked_cases (cs : List (Bool × Result)) (act : State → StepOutcome) (s : State) :
    (∃ r, firstFailure cs = some r ∧ checked cs act s = .next (returns r s)) ∨
      (firstFailure cs = none ∧ checked cs act s = act s) := by
  unfold checked
  cases firstFailure cs with
  | none => exact .inr ⟨rfl, rfl⟩
  | some r => exact .inl ⟨r, rfl, rfl⟩

/-- An operation that answers a next state has committed, or has raised a transport error. -/
theorem finish_next {commit : State → State} {f : Flow} {t : State} (h : finish commit f = .next t) :
    (∃ s, f = .done s ∧ t = returns .ok (commit s)) ∨ ∃ r s, f = .raised r s ∧ t = returns r (setHalted s) := by
  cases f with
  | done s => exact .inl ⟨s, rfl, by simpa [finish] using h.symm⟩
  | raised r s => exact .inr ⟨r, s, rfl, by simpa [finish, raiseTransport] using h.symm⟩
  | stuck s => cases h

/-! ## Running an event list -/

/-- One planned event, performed: the primitive that emits it. -/
def runEvent : Event → State → Flow
  | .pin role level, s =>
    match nextPin s with
    | .ok => .done (emit (.pin role level) (setLatch role (.driven level) (usePin s)))
    | .fail => .raised .transportPin (emit (.pinFail role level) (setLatch role .unknown (usePin s)))
  | .wait t, s => .done (emit (.wait t) s)
  | .tx bs, s => busWrite bs s
  | .pinFail role level, s => .done (emit (.pinFail role level) s)
  | .txFail bs k, s => .done (emit (.txFail bs k) s)

/-- An event list, performed from first to last. -/
def runPlan : List Event → State → Flow
  | [], s => .done s
  | e :: es, s => (runEvent e s).andThen (runPlan es)

@[simp] theorem runPlan_nil (s : State) : runPlan [] s = .done s := rfl
@[simp] theorem runPlan_cons (e : Event) (es : List Event) (s : State) :
    runPlan (e :: es) s = (runEvent e s).andThen (runPlan es) := rfl

@[simp] theorem runPlan_single (e : Event) (s : State) : runPlan [e] s = runEvent e s := by
  have : runPlan [] = Flow.done := rfl
  rw [runPlan_cons, this, Flow.andThen_done]

theorem runPlan_append (es fs : List Event) (s : State) :
    runPlan (es ++ fs) s = (runPlan es s).andThen (runPlan fs) := by
  induction es generalizing s with
  | nil => rfl
  | cons e es ih =>
    rw [List.cons_append, runPlan_cons, runPlan_cons, Flow.andThen_assoc]
    congr 1
    funext t
    exact ih t

/-- What the primitives of an operation leave alone, wherever they have got to. -/
structure ActionFrame (s t : State) : Prop where
  cfg : t.cfg = s.cfg
  ds : t.ds = s.ds
  halted : t.halted = s.halted
  win : t.win = s.win
  ramwrOpen : t.ramwrOpen = s.ramwrOpen
  px : t.px = s.px
  pending : t.pending = s.pending
  engineCalls : t.engineCalls = s.engineCalls
  reply : t.reply = s.reply
  freeCount : t.freeCount = s.freeCount

theorem ActionFrame.refl (s : State) : ActionFrame s s := ⟨rfl, rfl, rfl, rfl, rfl, rfl, rfl, rfl, rfl, rfl⟩

theorem ActionFrame.trans {s t u : State} (h : ActionFrame s t) (g : ActionFrame t u) : ActionFrame s u :=
  ⟨g.cfg.trans h.cfg, g.ds.trans h.ds, g.halted.trans h.halted, g.win.trans h.win, g.ramwrOpen.trans h.ramwrOpen,
   g.px.trans h.px, g.pending.trans h.pending, g.engineCalls.trans h.engineCalls, g.reply.trans h.reply,
   g.freeCount.trans h.freeCount⟩

/-- What the environment has still to answer after an event. -/
def envStep (env : Environment) : Event → Environment
  | .pin _ _ => ⟨env.pins.tail, env.bus⟩
  | .tx _ => ⟨env.pins, env.bus.tail⟩
  | .wait _ => env
  | .pinFail _ _ => env
  | .txFail _ _ => env

/-- Everything one planned event can do. -/
theorem runEvent_cases (e : Event) (s : State) :
    (∃ t, runEvent e s = .done t ∧ ActionFrame s t ∧ t.trace = s.trace ++ [e] ∧ t.env = envStep s.env e ∧
      ((∀ r l, e ≠ .pinFail r l) → ∀ r, latchOf t r = latchStep r (latchOf s r) e)) ∨
    (∃ r t f, runEvent e s = .raised r t ∧ ActionFrame s t ∧ failsAs e r f ∧ t.trace = s.trace ++ [f] ∧
      ∀ q, latchOf t q = latchStep q (latchOf s q) f) ∨
    (∃ bs t, e = .tx bs ∧ runEvent e s = .stuck t ∧ ActionFrame s t ∧ t.trace = s.trace ∧ .never ∈ s.env.bus ∧
      ∀ q, latchOf t q = latchOf s q) := by
  have frame : ∀ (f : Event) (r : PinRole) (l : Latch), ActionFrame s (emit f (setLatch r l (usePin s))) := by
    intro f r l
    constructor <;> simp
  have busFrame : ∀ f : Event, ActionFrame s (emit f (useBus s)) := by
    intro f
    constructor <;> simp
  cases e with
  | pin role level =>
    cases h : nextPin s with
    | ok =>
      have hrun : runEvent (.pin role level) s =
          .done (emit (.pin role level) (setLatch role (.driven level) (usePin s))) := by simp only [runEvent, h]
      refine .inl ⟨_, hrun, frame _ _ _, by simp, by simp [envStep], fun _ r => ?_⟩
      simp only [latchOf_emit, latchOf_setLatch, latchOf_usePin, latchStep]
    | fail =>
      have hrun : runEvent (.pin role level) s =
          .raised .transportPin (emit (.pinFail role level) (setLatch role .unknown (usePin s))) := by
        simp only [runEvent, h]
      refine .inr (.inl ⟨_, _, .pinFail role level, hrun, frame _ _ _, ⟨rfl, rfl⟩, by simp, fun q => ?_⟩)
      simp only [latchOf_emit, latchOf_setLatch, latchOf_usePin, latchStep]
  | wait t => exact .inl ⟨_, rfl, by constructor <;> simp, by simp, by simp [envStep], fun _ r => by simp [latchStep]⟩
  | tx bs =>
    cases h : nextBus s with
    | ok =>
      have hrun : runEvent (.tx bs) s = .done (emit (.tx bs) (useBus s)) := by simp only [runEvent, busWrite, h]
      exact .inl ⟨_, hrun, busFrame _, by simp, by simp [envStep], fun _ r => by simp [latchStep]⟩
    | fail k =>
      have hrun : runEvent (.tx bs) s = .raised .transportBus (emit (.txFail bs (min k bs.length)) (useBus s)) := by
        simp only [runEvent, busWrite, h]
      exact .inr (.inl ⟨_, _, .txFail bs (min k bs.length), hrun, busFrame _, ⟨rfl, _, Nat.min_le_right _ _, rfl⟩, by simp,
        fun q => by simp [latchStep]⟩)
    | never =>
      have hrun : runEvent (.tx bs) s = .stuck (useBus s) := by simp only [runEvent, busWrite, h]
      refine .inr (.inr ⟨bs, _, rfl, hrun, by constructor <;> simp, by simp, ?_, fun q => by simp⟩)
      unfold nextBus at h
      cases hb : s.env.bus with
      | nil => rw [hb] at h; cases h
      | cons b bs => rw [hb] at h; exact List.mem_cons.mpr (.inl h.symm)
  | pinFail role level =>
    exact .inl ⟨_, rfl, by constructor <;> simp, by simp, by simp [envStep], fun h => absurd rfl (h _ _)⟩
  | txFail bs k =>
    exact .inl ⟨_, rfl, by constructor <;> simp, by simp, by simp [envStep], fun _ r => by simp [latchStep]⟩

/-- Everything an event list can do: it is performed whole, or one event of it fails, or the bus stalls at one. -/
theorem runPlan_cases (es : List Event) (hes : ∀ r l, Event.pinFail r l ∉ es) (s : State) :
    (∃ t, runPlan es s = .done t ∧ ActionFrame s t ∧ t.trace = s.trace ++ es ∧ t.env = es.foldl envStep s.env ∧
      ∀ r, latchOf t r = es.foldl (latchStep r) (latchOf s r)) ∨
    (∃ r t n e f, runPlan es s = .raised r t ∧ ActionFrame s t ∧ es[n]? = some e ∧ failsAs e r f ∧
      t.trace = s.trace ++ (es.take n ++ [f]) ∧
      ∀ q, latchOf t q = (es.take n ++ [f]).foldl (latchStep q) (latchOf s q)) ∨
    (∃ t n bs, runPlan es s = .stuck t ∧ ActionFrame s t ∧ es[n]? = some (.tx bs) ∧
      t.trace = s.trace ++ es.take n ∧ .never ∈ s.env.bus ∧
      ∀ q, latchOf t q = (es.take n).foldl (latchStep q) (latchOf s q)) := by
  induction es generalizing s with
  | nil => exact .inl ⟨s, rfl, .refl s, by simp, rfl, fun r => rfl⟩
  | cons e es ih =>
    have hne : ∀ r l, e ≠ .pinFail r l := fun r l he => hes r l (he ▸ List.mem_cons_self ..)
    have hes' : ∀ r l, Event.pinFail r l ∉ es := fun r l h => hes r l (List.mem_cons_of_mem _ h)
    rw [runPlan_cons]
    rcases runEvent_cases e s with ⟨t, ht, hf, htr, henv, hl⟩ | ⟨r, t, f, ht, hf, hfail, htr, hl⟩ |
      ⟨bs, t, rfl, ht, hf, htr, hnever, hl⟩
    · rw [ht, Flow.done_andThen]
      have hl := hl hne
      rcases ih hes' t with ⟨u, hu, hfu, htu, heu, hlu⟩ | ⟨r, u, n, e', f, hu, hfu, hn, hfail, htu, hlu⟩ |
        ⟨u, n, bs, hu, hfu, hn, htu, hnever, hlu⟩
      · exact .inl ⟨u, hu, hf.trans hfu, by simp [htu, htr], by simp [heu, henv],
          fun r => by simp [hlu, hl]⟩
      · exact .inr (.inl ⟨r, u, n + 1, e', f, hu, hf.trans hfu, by simpa using hn, hfail, by simp [htu, htr],
          fun q => by simp [hlu, hl]⟩)
      · refine .inr (.inr ⟨u, n + 1, bs, hu, hf.trans hfu, by simpa using hn, by simp [htu, htr], ?_,
          fun q => by simp [hlu, hl]⟩)
        rw [henv] at hnever
        cases e <;> simp only [envStep] at hnever <;> first | exact hnever | exact List.mem_of_mem_tail hnever
    · rw [ht, Flow.raised_andThen]
      exact .inr (.inl ⟨r, t, 0, e, f, rfl, hf, by simp, hfail, by simp [htr], fun q => by simp [hl]⟩)
    · rw [ht, Flow.stuck_andThen]
      exact .inr (.inr ⟨t, 0, bs, rfl, hf, by simp, by simp [htr], hnever, fun q => by simp [hl]⟩)

/-! ## The primitives as event lists -/

theorem drive_eq_runPlan (role : PinRole) (level : Level) (s : State) :
    drive role level s = runPlan (driveEvents s.cfg role level) s := by
  unfold drive driveEvents
  cases rolePresence s.cfg role with
  | absent => rfl
  | present => rw [if_pos rfl, runPlan_single]; rfl

theorem wait_eq_runPlan (t : Nat) (s : State) : wait t s = runPlan (waitEvents t) s := by
  unfold wait waitEvents
  by_cases h : t = 0
  · simp [h]
  · rw [if_pos (Nat.pos_of_ne_zero h), if_neg h, runPlan_single]; rfl

theorem busWrite_eq_runPlan (bs : List Byte) (s : State) : busWrite bs s = runPlan [.tx bs] s := by
  rw [runPlan_single]; rfl

/-- The configuration is the same wherever an event list has got to, so that the next primitive plans as the first. -/
theorem runPlan_then (es : List Event) (g : State → Flow) (fs : List Event) (s : State)
    (h : ∀ t, t.cfg = s.cfg → g t = runPlan fs t) : (runPlan es s).andThen g = runPlan (es ++ fs) s := by
  rw [runPlan_append]
  have key : ∀ (es : List Event) (s t : State), runPlan es s = .done t → t.cfg = s.cfg := by
    intro es
    induction es with
    | nil => rintro s t h; cases h; rfl
    | cons e es ih =>
      intro s t h
      rw [runPlan_cons] at h
      rcases runEvent_cases e s with ⟨u, hu, hf, -⟩ | ⟨r, u, f, hu, -⟩ | ⟨bs, u, -, hu, -⟩
      · rw [hu] at h
        exact (ih u t h).trans hf.cfg
      · rw [hu] at h; cases h
      · rw [hu] at h; cases h
  cases hrun : runPlan es s with
  | done t => exact h t (key es s t hrun)
  | raised r t => rfl
  | stuck t => rfl

theorem sendCommand_eq_runPlan (c : Byte) (s : State) : sendCommand c s = runPlan (commandEvents s.cfg c) s := by
  unfold sendCommand commandEvents
  rw [drive_eq_runPlan]
  exact runPlan_then _ _ _ _ fun t _ => busWrite_eq_runPlan _ t

theorem sendData_eq_runPlan (bs : List Byte) (s : State) : sendData bs s = runPlan (dataEvents s.cfg bs) s := by
  unfold sendData dataEvents
  rw [drive_eq_runPlan]
  exact runPlan_then _ _ _ _ fun t _ => busWrite_eq_runPlan _ t

/-! ## An environment that answers Ok -/

/-- The pin drives of an event list. -/
def pinDrives (es : List Event) : Nat := es.countP fun e => match e with
  | .pin _ _ => true
  | _ => false

/-- The bus writes of an event list. -/
def busWrites (es : List Event) : Nat := es.countP fun e => match e with
  | .tx _ => true
  | _ => false

/-- An event list whose drives and writes all succeed is performed whole. -/
theorem runPlan_done (es : List Event) (s : State)
    (hp : ∀ j, j < pinDrives es → s.env.pins.getD j .ok = .ok)
    (hb : ∀ j, j < busWrites es → s.env.bus.getD j .ok = .ok) : ∃ t, runPlan es s = .done t := by
  induction es generalizing s with
  | nil => exact ⟨s, rfl⟩
  | cons e es ih =>
    rw [runPlan_cons]
    cases e with
    | pin r l =>
      have h0 : nextPin s = .ok := by
        have := hp 0 (by simp [pinDrives])
        unfold nextPin
        cases hs : s.env.pins <;> simp_all
      simp only [runEvent, h0, Flow.done_andThen]
      apply ih
      · intro j hj
        have := hp (j+1) (by simp [pinDrives] at *; omega)
        cases hs : s.env.pins <;> simp_all
      · intro j hj
        have := hb j (by simp [busWrites] at *; omega)
        simpa using this
    | tx bs =>
      have h0 : nextBus s = .ok := by
        have := hb 0 (by simp [busWrites])
        unfold nextBus
        cases hs : s.env.bus <;> simp_all
      simp only [runEvent, busWrite, h0, Flow.done_andThen]
      apply ih
      · intro j hj
        have := hp j (by simp [pinDrives] at *; omega)
        simpa using this
      · intro j hj
        have := hb (j+1) (by simp [busWrites] at *; omega)
        cases hs : s.env.bus <;> simp_all
    | wait t =>
      simp only [runEvent, Flow.done_andThen]
      exact ih _ (by simpa [pinDrives] using hp) (by simpa [busWrites] using hb)
    | pinFail r l =>
      simp only [runEvent, Flow.done_andThen]
      exact ih _ (by simpa [pinDrives] using hp) (by simpa [busWrites] using hb)
    | txFail r l =>
      simp only [runEvent, Flow.done_andThen]
      exact ih _ (by simpa [pinDrives] using hp) (by simpa [busWrites] using hb)

theorem foldl_envStep (es : List Event) (env : Environment) :
    es.foldl envStep env = ⟨env.pins.drop (pinDrives es), env.bus.drop (busWrites es)⟩ := by
  induction es generalizing env with
  | nil => simp [pinDrives, busWrites]
  | cons e es ih =>
    rw [List.foldl_cons, ih]
    cases e <;> simp [envStep, pinDrives, busWrites, Nat.add_comm]

/-- The frame as one equation: the latches, the trace and the answers are all that can differ. -/
theorem ActionFrame.eq {s t : State} (h : ActionFrame s t) :
    t = { s with rstOut := t.rstOut, dcOut := t.dcOut, blOut := t.blOut, trace := t.trace, env := t.env } := by
  obtain ⟨h1, h2, h3, h4, h5, h6, h7, h8, h9, h10⟩ := h
  cases s; cases t; simp_all


theorem driveEvents_present {cfg : Cfg} {role : PinRole} (h : rolePresence cfg role = .present) (l : Level) :
    driveEvents cfg role l = [.pin role l] := if_pos h

theorem driveEvents_absent {cfg : Cfg} {role : PinRole} (h : rolePresence cfg role = .absent) (l : Level) :
    driveEvents cfg role l = [] := if_neg (by rw [h]; decide)

theorem commandEvents_present {cfg : Cfg} (h : cfg.dcRole = .present) (c : Byte) :
    commandEvents cfg c = [.pin .dc cfg.dcCmdLevel, .tx [c]] := by
  rw [commandEvents, driveEvents_present (role := .dc) h]; rfl

theorem dataEvents_present {cfg : Cfg} (h : cfg.dcRole = .present) (bs : List Byte) :
    dataEvents cfg bs = [.pin .dc (dcDataLevel cfg), .tx bs] := by
  rw [dataEvents, driveEvents_present (role := .dc) h]; rfl

@[simp] theorem pinDrives_wait (t : Nat) : pinDrives (waitEvents t) = 0 := by unfold waitEvents; split <;> rfl
@[simp] theorem busWrites_wait (t : Nat) : busWrites (waitEvents t) = 0 := by unfold waitEvents; split <;> rfl

@[simp] theorem latchStep_wait (r : PinRole) (t : Nat) (l : Latch) : (waitEvents t).foldl (latchStep r) l = l := by
  unfold waitEvents; split <;> rfl

theorem pinDrives_append (es fs : List Event) : pinDrives (es ++ fs) = pinDrives es + pinDrives fs :=
  List.countP_append

theorem busWrites_append (es fs : List Event) : busWrites (es ++ fs) = busWrites es + busWrites fs :=
  List.countP_append

end Sys2Proof.Machine
end

