-- ==== Sys2Proof/Laws/Exec.lean ====
section
/-! SUPPORT. `exec` in one form for every instruction: the deciding precondition error, or the run of the operation's
event list and its commit. Later proofs cite `exec_eq` and `exec_next` and unfold no meaning. -/

namespace Sys2Proof.Machine

/-- What an operation does before its primitives: a pixel write or clear, the count of free bytes. -/
def prepare : Instr → State → State
  | .eatFramebuffer k, s => { s with freeCount := (view s k.toNat).2 }
  | .fbSetPixelXy k x y color, s => writePixel k.toNat (pixelIndex s.cfg x y) color s
  | .fbSetPixelRaw k offset color, s => writePixel k.toNat offset.toNat color s
  | .fbClear k color, s => clearPixels k.toNat color s
  | .hardReset, s => s
  | .init, s => s
  | .setOrientation _, s => s
  | .setAddressWindow _ _ _ _, s => s
  | .setBacklight _, s => s
  | .sendCommand _, s => s
  | .sendData _ _, s => s
  | .wireSlpout, s => s
  | .wireColmod, s => s
  | .wireDispon, s => s
  | .wireMadctl, s => s
  | .wireCaset, s => s
  | .wireRaset, s => s
  | .wireRamwr, s => s

/-- The commit phase of an operation (41_controller.md R116). -/
def commitOf : Instr → State → State
  | .hardReset => commitReset
  | .init => commitInit
  | .setOrientation _ => commitOrientation
  | .setAddressWindow x0 y0 x1 y1 => commitWindow ⟨x0, y0, x1, y1⟩
  | .eatFramebuffer _ => id
  | .setBacklight _ => id
  | .fbSetPixelXy _ _ _ _ => id
  | .fbSetPixelRaw _ _ _ => id
  | .fbClear _ _ => id
  | .sendCommand _ => id
  | .sendData _ _ => id
  | .wireSlpout => id
  | .wireColmod => id
  | .wireDispon => id
  | .wireMadctl => id
  | .wireCaset => id
  | .wireRaset => id
  | .wireRamwr => id

/-! ## The action phases as event lists -/

theorem pulseReset_eq_runPlan (s : State) : pulseReset s = runPlan (plannedEvents s .hardReset) s := by
  unfold pulseReset plannedEvents
  rw [drive_eq_runPlan, runPlan_then _ _ _ _ fun t _ => wait_eq_runPlan _ t, List.append_assoc]
  refine runPlan_then _ _ _ _ fun t ht => ?_
  rw [drive_eq_runPlan, ht]
  exact runPlan_then _ _ _ _ fun u hu => by rw [wait_eq_runPlan]

theorem initStep_eq_runPlan (st : InitStep) (s : State) : initStep st s = runPlan (initStepEvents s.cfg st) s := by
  unfold initStep initStepEvents
  rw [sendCommand_eq_runPlan]
  refine (congrArg (fun f : Flow => f.andThen (wait st.waitUs)) (runPlan_then _ _ (if st.data = [] then [] else
    dataEvents s.cfg st.data) _ fun t ht => ?_)).trans (runPlan_then _ _ _ _ fun t _ => wait_eq_runPlan _ t)
  split
  · rfl
  · rw [sendData_eq_runPlan, ht]

theorem runInitSeq_eq_runPlan (seq : List InitStep) (s : State) :
    runInitSeq seq s = runPlan (seq.flatMap (initStepEvents s.cfg)) s := by
  induction seq generalizing s with
  | nil => rfl
  | cons st seq ih =>
    rw [runInitSeq, initStep_eq_runPlan, List.flatMap_cons]
    exact runPlan_then _ _ _ _ fun t ht => by rw [ih, ht]

theorem sendOrientation_eq_runPlan (mode : Orientation) (s : State) :
    sendOrientation mode s = runPlan (plannedEvents s (.setOrientation mode)) s := by
  unfold sendOrientation plannedEvents
  rw [sendCommand_eq_runPlan]
  exact runPlan_then _ _ _ _ fun t ht => by rw [sendData_eq_runPlan, ht]

theorem sendWindow_eq_runPlan (x0 y0 x1 y1 : Field) (s : State) :
    sendWindow ⟨x0, y0, x1, y1⟩ s = runPlan (plannedEvents s (.setAddressWindow x0 y0 x1 y1)) s := by
  unfold sendWindow plannedEvents addressParams
  rw [sendCommand_eq_runPlan, runPlan_then _ _ _ _ fun t ht => by rw [sendData_eq_runPlan, ht],
    runPlan_then _ _ _ _ fun t ht => by rw [sendCommand_eq_runPlan, ht],
    runPlan_then _ _ _ _ fun t ht => by rw [sendData_eq_runPlan, ht],
    runPlan_then _ _ _ _ fun t ht => by rw [sendCommand_eq_runPlan, ht]]

theorem sendView_eq_runPlan (k : Field) (s : State) :
    sendView k.toNat s = runPlan (plannedEvents s (.eatFramebuffer k)) (prepare (.eatFramebuffer k) s) := by
  unfold sendView
  rw [sendData_eq_runPlan]
  rfl

/-! ## One form of `exec` -/

/-- A check phase that begins with `halted`. -/
theorem checked_notHalted (cs : List (Bool × Result)) (act : State → StepOutcome) (s : State) :
    checked (notHalted s :: cs) act s =
      if s.halted then .next (returns .halted s)
      else match firstFailure cs with
        | some r => .next (returns r s)
        | none => act s := by
  unfold checked notHalted
  cases s.halted with
  | true => rfl
  | false =>
    simp only [Bool.not_false, firstFailure_cons, if_true, Bool.false_eq_true, if_false]
    cases firstFailure cs <;> rfl

/-- Every instruction, in one form. -/
theorem exec_eq (i : Instr) (s : State) :
    exec i s = match preconditionError s i with
      | some r => .next (returns r s)
      | none => finish (commitOf i) (runPlan (plannedEvents s i) (prepare i s)) := by
  cases i with
  | hardReset =>
    simp only [exec, execHardReset, checked_notHalted, preconditionError, acceptedIn, namedBuffer, rangeError,
      pulseReset_eq_runPlan]
    cases s.halted <;> rfl
  | init =>
    simp only [exec, execInit, checked_notHalted, preconditionError, acceptedIn, namedBuffer, rangeError,
      runInitSeq_eq_runPlan, isReset]
    cases s.halted <;> cases s.ds <;> rfl
  | setOrientation mode =>
    simp only [exec, execSetOrientation, checked_notHalted, preconditionError, acceptedIn, namedBuffer, rangeError,
      sendOrientation_eq_runPlan, isInitializedOrReady]
    cases s.halted <;> cases s.ds <;> rfl
  | setAddressWindow x0 y0 x1 y1 =>
    simp only [exec, execSetAddressWindow, checked_notHalted, preconditionError, acceptedIn, namedBuffer, rangeError,
      sendWindow_eq_runPlan, isInitializedOrReady, windowValid, firstFailure_cons, firstFailure_nil]
    by_cases hw : x0.toNat ≤ x1.toNat ∧ x1.toNat < s.cfg.panelW ∧ y0.toNat ≤ y1.toNat ∧ y1.toNat < s.cfg.panelH <;>
      cases s.halted <;> cases s.ds <;> simp only [hw, if_true, if_false, decide_true, decide_false] <;> rfl
  | eatFramebuffer k =>
    simp only [exec, execEatFramebuffer, checked_notHalted, preconditionError, acceptedIn, namedBuffer, rangeError,
      sendView_eq_runPlan, isReady, bufferExists, firstFailure_cons, firstFailure_nil]
    by_cases hk : k.toNat < s.cfg.nFb
    · have := Nat.not_le.mpr hk
      cases s.halted <;> cases s.ds <;> simp [*, commitOf]
    · have := Nat.not_lt.mp hk
      cases s.halted <;> cases s.ds <;> simp [*]
  | setBacklight on =>
    simp only [exec, execSetBacklight, checked_notHalted, preconditionError, acceptedIn, namedBuffer, rangeError,
      drive_eq_runPlan]
    cases s.halted <;> rfl
  | fbSetPixelXy k x y color =>
    simp only [exec, execFbSetPixelXy, checked_notHalted, preconditionError, acceptedIn, namedBuffer, rangeError,
      bufferExists, positionInRange, firstFailure_cons, firstFailure_nil]
    by_cases hk : k.toNat < s.cfg.nFb
    · have := Nat.not_le.mpr hk
      by_cases hr : x.toNat < s.cfg.fbW ∧ y.toNat < s.cfg.fbH <;>
        cases s.halted <;> simp [*, commitOf, plannedEvents, prepare]
    · have := Nat.not_lt.mp hk
      cases s.halted <;> simp [*]
  | fbSetPixelRaw k offset color =>
    simp only [exec, execFbSetPixelRaw, checked_notHalted, preconditionError, acceptedIn, namedBuffer, rangeError,
      bufferExists, offsetInRange, fbSize, firstFailure_cons, firstFailure_nil]
    by_cases hk : k.toNat < s.cfg.nFb
    · have := Nat.not_le.mpr hk
      by_cases hr : offset.toNat < s.cfg.fbW * s.cfg.fbH <;>
        cases s.halted <;> simp [*, commitOf, plannedEvents, prepare]
    · have := Nat.not_lt.mp hk
      cases s.halted <;> simp [*]
  | fbClear k color =>
    simp only [exec, execFbClear, checked_notHalted, preconditionError, acceptedIn, namedBuffer, rangeError,
      bufferExists, firstFailure_cons, firstFailure_nil]
    by_cases hk : k.toNat < s.cfg.nFb
    · have := Nat.not_le.mpr hk
      cases s.halted <;> simp [*, commitOf, plannedEvents, prepare]
    · have := Nat.not_lt.mp hk
      cases s.halted <;> simp [*]
  | sendCommand c =>
    simp only [exec, execSendCommand, engineCall, checked_notHalted, preconditionError, acceptedIn, namedBuffer,
      rangeError, sendCommand_eq_runPlan]
    cases s.halted <;> rfl
  | sendData b more =>
    simp only [exec, execSendData, engineCall, checked_notHalted, preconditionError, acceptedIn, namedBuffer,
      rangeError, sendData_eq_runPlan]
    cases s.halted <;> rfl
  | wireSlpout =>
    simp only [exec, execWireSlpout, engineCall, checked_notHalted, preconditionError, acceptedIn, namedBuffer,
      rangeError, sendCommand_eq_runPlan]
    cases s.halted <;> rfl
  | wireColmod =>
    simp only [exec, execWireColmod, engineCall, checked_notHalted, preconditionError, acceptedIn, namedBuffer,
      rangeError, sendCommand_eq_runPlan]
    cases s.halted <;> rfl
  | wireDispon =>
    simp only [exec, execWireDispon, engineCall, checked_notHalted, preconditionError, acceptedIn, namedBuffer,
      rangeError, sendCommand_eq_runPlan]
    cases s.halted <;> rfl
  | wireMadctl =>
    simp only [exec, execWireMadctl, engineCall, checked_notHalted, preconditionError, acceptedIn, namedBuffer,
      rangeError, sendCommand_eq_runPlan]
    cases s.halted <;> rfl
  | wireCaset =>
    simp only [exec, execWireCaset, engineCall, checked_notHalted, preconditionError, acceptedIn, namedBuffer,
      rangeError, sendCommand_eq_runPlan]
    cases s.halted <;> rfl
  | wireRaset =>
    simp only [exec, execWireRaset, engineCall, checked_notHalted, preconditionError, acceptedIn, namedBuffer,
      rangeError, sendCommand_eq_runPlan]
    cases s.halted <;> rfl
  | wireRamwr =>
    simp only [exec, execWireRamwr, engineCall, checked_notHalted, preconditionError, acceptedIn, namedBuffer,
      rangeError, sendCommand_eq_runPlan]
    cases s.halted <;> rfl

/-- No operation plans a failure. -/
theorem pinFail_notMem_plannedEvents (i : Instr) (s : State) (r : PinRole) (l : Level) :
    Event.pinFail r l ∉ plannedEvents s i := by
  have hd : ∀ cfg q m, Event.pinFail r l ∉ driveEvents cfg q m := by
    intro cfg q m
    unfold driveEvents
    split <;> simp
  have hw : ∀ t, Event.pinFail r l ∉ waitEvents t := by
    intro t
    unfold waitEvents
    split <;> simp
  have hc : ∀ cfg c, Event.pinFail r l ∉ commandEvents cfg c := by
    intro cfg c
    simp [commandEvents, hd]
  have hb : ∀ cfg bs, Event.pinFail r l ∉ dataEvents cfg bs := by
    intro cfg bs
    simp [dataEvents, hd]
  have hi : ∀ cfg st, Event.pinFail r l ∉ initStepEvents cfg st := by
    intro cfg st
    unfold initStepEvents
    split <;> simp [hc, hb, hw]
  cases i <;> simp [plannedEvents, hd, hw, hc, hb, hi]

/-- Everything an instruction can do when it answers a next state: a precondition error and nothing else, its whole
event list and its commit, or a failure inside its event list. -/
theorem exec_next {i : Instr} {s t : State} (h : exec i s = .next t) :
    (∃ r, preconditionError s i = some r ∧ t = returns r s) ∨
    (preconditionError s i = none ∧ ∃ u, ActionFrame (prepare i s) u ∧
      u.trace = (prepare i s).trace ++ plannedEvents s i ∧
      u.env = (plannedEvents s i).foldl envStep (prepare i s).env ∧
      (∀ r, latchOf u r = (plannedEvents s i).foldl (latchStep r) (latchOf (prepare i s) r)) ∧
      t = returns .ok (commitOf i u)) ∨
    (preconditionError s i = none ∧ ∃ u r n e f, ActionFrame (prepare i s) u ∧ (plannedEvents s i)[n]? = some e ∧
      failsAs e r f ∧ u.trace = (prepare i s).trace ++ ((plannedEvents s i).take n ++ [f]) ∧
      (∀ q, latchOf u q = ((plannedEvents s i).take n ++ [f]).foldl (latchStep q) (latchOf (prepare i s) q)) ∧
      t = returns r (setHalted u)) := by
  rw [exec_eq] at h
  cases hp : preconditionError s i with
  | some r =>
    rw [hp] at h
    exact .inl ⟨r, rfl, (Host.Outcome.next.inj h).symm⟩
  | none =>
    rw [hp] at h
    rcases runPlan_cases (plannedEvents s i) (pinFail_notMem_plannedEvents i s) (prepare i s) with
      ⟨u, hu, hf, htr, henv, hl⟩ | ⟨r, u, n, e, f, hu, hf, hn, hfail, htr, hl⟩ | ⟨u, n, bs, hu, -⟩
    · simp only [hu, finish, Host.Outcome.next.injEq] at h
      exact .inr (.inl ⟨rfl, u, hf, htr, henv, hl, h.symm⟩)
    · simp only [hu, finish, raiseTransport, Host.Outcome.next.injEq] at h
      exact .inr (.inr ⟨rfl, u, r, n, e, f, hf, hn, hfail, htr, hl, h.symm⟩)
    · simp only [hu, finish] at h
      cases h

/-- Everything an instruction can do when it does not answer a next state: its bus stalls inside its event list. -/
theorem exec_fault {i : Instr} {s u : State} (h : exec i s = .fault (.busStalled u)) :
    preconditionError s i = none ∧ ActionFrame (prepare i s) u ∧ .never ∈ (prepare i s).env.bus ∧
      ∃ n bs, (plannedEvents s i)[n]? = some (.tx bs) ∧
        u.trace = (prepare i s).trace ++ (plannedEvents s i).take n := by
  rw [exec_eq] at h
  cases hp : preconditionError s i with
  | some r => rw [hp] at h; cases h
  | none =>
    rw [hp] at h
    rcases runPlan_cases (plannedEvents s i) (pinFail_notMem_plannedEvents i s) (prepare i s) with
      ⟨v, hv, -⟩ | ⟨r, v, n, e, f, hv, -⟩ | ⟨v, n, bs, hv, hf, hn, htr, hnever, -⟩
    · simp only [hv, finish] at h
      cases h
    · simp only [hv, finish, raiseTransport] at h
      cases h
    · simp only [hv, finish, Host.Outcome.fault.injEq, Fault.busStalled.injEq] at h
      subst h
      exact ⟨rfl, hf, hnever, n, bs, hn, htr⟩

/-- An instruction answers a next state, or its bus stalls; it is never refused. -/
theorem exec_next_or_fault (i : Instr) (s : State) :
    (∃ t, exec i s = .next t) ∨ ∃ u, exec i s = .fault (.busStalled u) := by
  rw [exec_eq]
  cases preconditionError s i with
  | some r => exact .inl ⟨_, rfl⟩
  | none =>
    cases hrun : runPlan (plannedEvents s i) (prepare i s) with
    | done u => exact .inl ⟨_, rfl⟩
    | raised r u => exact .inl ⟨_, rfl⟩
    | stuck u => exact .inr ⟨_, rfl⟩

/-- What comes before the primitives changes the pixel store and the count of free bytes alone. -/
theorem prepare_frame (i : Instr) (s : State) :
    prepare i s = { s with px := (prepare i s).px, freeCount := (prepare i s).freeCount } := by cases i <;> rfl

/-- The commit changes `ds`, `win` and `ramwr_open` alone. -/
theorem commitOf_frame (i : Instr) (s : State) :
    commitOf i s = { s with ds := (commitOf i s).ds, win := (commitOf i s).win,
                            ramwrOpen := (commitOf i s).ramwrOpen } := by cases i <;> rfl

/-- An operation whose checks pass and whose environment answers Ok. -/
theorem exec_ok (i : Instr) (s : State) (hpre : preconditionError s i = none)
    (hp : ∀ j, j < pinDrives (plannedEvents s i) → s.env.pins.getD j .ok = .ok)
    (hb : ∀ j, j < busWrites (plannedEvents s i) → s.env.bus.getD j .ok = .ok) :
    exec i s = .next (returns .ok (commitOf i
      { prepare i s with
          rstOut := (plannedEvents s i).foldl (latchStep .rst) s.rstOut
          dcOut := (plannedEvents s i).foldl (latchStep .dc) s.dcOut
          blOut := (plannedEvents s i).foldl (latchStep .bl) s.blOut
          trace := s.trace ++ plannedEvents s i
          env := ⟨s.env.pins.drop (pinDrives (plannedEvents s i)), s.env.bus.drop (busWrites (plannedEvents s i))⟩ })) := by
  have hprep := prepare_frame i s
  obtain ⟨t, ht⟩ := runPlan_done (plannedEvents s i) (prepare i s) (by rw [hprep]; exact hp) (by rw [hprep]; exact hb)
  rw [exec_eq, hpre]
  simp only [ht, finish]
  rcases runPlan_cases (plannedEvents s i) (pinFail_notMem_plannedEvents i s) (prepare i s) with
      ⟨u, hu, hf, htr, henv, hl⟩ | ⟨r, u, n, e, f, hu, hf, hn, hfail, htr, hl⟩ | ⟨u, n, bs, hu, -⟩
  · rw [ht] at hu; cases hu
    have e := hf.eq
    have l1 := hl .rst
    have l2 := hl .dc
    have l3 := hl .bl
    simp only [latchOf] at l1 l2 l3
    rw [foldl_envStep] at henv
    rw [htr, henv, l1, l2, l3] at e
    rw [e]
    have : (prepare i s).trace = s.trace ∧ (prepare i s).env = s.env ∧ (prepare i s).rstOut = s.rstOut ∧ (prepare i s).dcOut = s.dcOut ∧ (prepare i s).blOut = s.blOut := by rw [hprep]; simp
    simp only [this]
  · rw [ht] at hu; cases hu
  · rw [ht] at hu; cases hu

/-- A halted block refuses every operation (60_exceptions.md R157). -/
theorem exec_halted {s : State} (h : s.halted = true) (i : Instr) : exec i s = .next (returns .halted s) := by
  rw [exec_eq]
  simp [preconditionError, h]

theorem txFail_notMem_plannedEvents (i : Instr) (s : State) (bs : List Byte) (k : Nat) :
    Event.txFail bs k ∉ plannedEvents s i := by
  have hd : ∀ cfg q m, Event.txFail bs k ∉ driveEvents cfg q m := by
    intro cfg q m
    unfold driveEvents
    split <;> simp
  have hw : ∀ t, Event.txFail bs k ∉ waitEvents t := by
    intro t
    unfold waitEvents
    split <;> simp
  have hi : ∀ cfg st, Event.txFail bs k ∉ initStepEvents cfg st := by
    intro cfg st
    unfold initStepEvents
    split <;> simp [commandEvents, dataEvents, hd, hw]
  cases i <;> simp [plannedEvents, commandEvents, dataEvents, hd, hw, hi]

/-- A primitive fails with a transport error. -/
theorem failsAs_isTransport {e f : Event} {r : Result} (h : failsAs e r f) : r.isTransport = true := by
  cases e <;> simp only [failsAs] at h
  · rw [h.1]; rfl
  · rw [h.1]; rfl

/-- No check raises `Ok`. -/
theorem preconditionError_ne_ok (i : Instr) (s : State) : preconditionError s i ≠ some .ok := by
  have hr : rangeError s.cfg i ≠ some .ok := by cases i <;> simp [rangeError]
  unfold preconditionError
  split
  · simp
  · split
    · simp
    · split
      · split
        · simp
        · exact hr
      · exact hr

/-- What no instruction changes, and what only the framebuffer operations change. -/
theorem exec_frame {i : Instr} {s t : State} (h : exec i s = .next t) :
    t.cfg = s.cfg ∧ t.pending = s.pending ∧ t.engineCalls = s.engineCalls ∧ (s.halted = true → t.halted = true) ∧
      (isFramebufferOp i = false → t.px = s.px) := by
  have hp : isFramebufferOp i = false → (prepare i s).px = s.px := by cases i <;> simp [prepare, isFramebufferOp]
  have hc : (prepare i s).cfg = s.cfg ∧ (prepare i s).halted = s.halted ∧ (prepare i s).pending = s.pending ∧
      (prepare i s).engineCalls = s.engineCalls := by
    rw [prepare_frame]; simp
  rcases exec_next h with ⟨r, -, rfl⟩ | ⟨-, u, hf, -, -, -, rfl⟩ | ⟨-, u, r, n, e, f, hf, -, -, -, -, rfl⟩
  · simp
  · rw [commitOf_frame]
    exact ⟨hf.cfg.trans hc.1, hf.pending.trans hc.2.2.1, hf.engineCalls.trans hc.2.2.2,
      fun h => (hf.halted.trans hc.2.1).trans h,
      fun h => hf.px.trans (hp h)⟩
  · exact ⟨hf.cfg.trans hc.1, hf.pending.trans hc.2.2.1, hf.engineCalls.trans hc.2.2.2, fun _ => rfl, fun h => hf.px.trans (hp h)⟩

end Sys2Proof.Machine
end

