-- ==== Sys2Proof/Laws/Memory.lean ====
section
/-! SUPPORT. The laws of the pixel store: read after write, the canonical form, extensionality, the fill, the view. -/

namespace Sys2Proof.Machine

@[simp] theorem Memory.read_nil (a : Nat) : Memory.read [] a = none := rfl

theorem Memory.read_cons (c : Nat × Pixel) (m : Memory) (a : Nat) :
    Memory.read (c :: m) a = if a = c.1 then some c.2 else Memory.read m a := rfl

/-- Reading a cell after writing it gives the pixel written. -/
@[simp] theorem Memory.read_write_same (m : Memory) (a : Nat) (v : Pixel) :
    Memory.read (Memory.write m a v) a = some v := by
  induction m with
  | nil => simp [Memory.write, Memory.read_cons]
  | cons c m ih =>
    obtain ⟨b, w⟩ := c
    unfold Memory.write
    split
    · simp [Memory.read_cons]
    · split
      · simp [Memory.read_cons]
      · rename_i h
        simp [Memory.read_cons, h, ih]

/-- A write leaves every other cell alone. -/
theorem Memory.read_write_other (m : Memory) {a a' : Nat} (v : Pixel) (h : a' ≠ a) :
    Memory.read (Memory.write m a v) a' = Memory.read m a' := by
  induction m with
  | nil => simp [Memory.write, Memory.read_cons, h]
  | cons c m ih =>
    obtain ⟨b, w⟩ := c
    unfold Memory.write
    split
    · simp [Memory.read_cons, h]
    · split
      · rename_i hb
        subst hb
        simp [Memory.read_cons, h]
      · simp [Memory.read_cons, ih]

/-- A cell listed after a write is the written one or was listed before. -/
theorem Memory.mem_write {m : Memory} {a : Nat} {v : Pixel} {c : Nat × Pixel} (h : c ∈ Memory.write m a v) :
    c = (a, v) ∨ c ∈ m := by
  induction m with
  | nil => simpa [Memory.write] using h
  | cons d m ih =>
    obtain ⟨b, w⟩ := d
    unfold Memory.write at h
    split at h
    · simpa using h
    · split at h
      · rcases List.mem_cons.mp h with h | h
        · exact .inl h
        · exact .inr (List.mem_cons_of_mem _ h)
      · rcases List.mem_cons.mp h with h | h
        · exact .inr (h ▸ List.mem_cons_self ..)
        · rcases ih h with h | h
          · exact .inl h
          · exact .inr (List.mem_cons_of_mem _ h)

theorem Memory.wf_cons {c : Nat × Pixel} {m : Memory} :
    Memory.wf (c :: m) ↔ (∀ d ∈ m, c.1 < d.1) ∧ Memory.wf m := by
  simp [Memory.wf]

/-- A write keeps the canonical form. -/
theorem Memory.wf_write {m : Memory} (a : Nat) (v : Pixel) (h : Memory.wf m) : Memory.wf (Memory.write m a v) := by
  induction m with
  | nil => simp [Memory.write, Memory.wf]
  | cons c m ih =>
    obtain ⟨b, w⟩ := c
    obtain ⟨hlt, hm⟩ := Memory.wf_cons.mp h
    unfold Memory.write
    split
    · rename_i hab
      refine Memory.wf_cons.mpr ⟨fun d hd => ?_, h⟩
      rcases List.mem_cons.mp hd with rfl | hd
      · exact hab
      · exact Nat.lt_trans hab (hlt d hd)
    · split
      · rename_i hab
        subst hab
        exact Memory.wf_cons.mpr ⟨hlt, hm⟩
      · rename_i h1 h2
        refine Memory.wf_cons.mpr ⟨fun d hd => ?_, ih hm⟩
        rcases Memory.mem_write hd with rfl | hd
        · simp only
          omega
        · exact hlt d hd

/-- A cell below every listed one reads as Unknown. -/
theorem Memory.read_eq_none {m : Memory} {a : Nat} (h : ∀ c ∈ m, c.1 ≠ a) : Memory.read m a = none := by
  induction m with
  | nil => rfl
  | cons c m ih =>
    rw [Memory.read_cons, if_neg (fun e => h c (List.mem_cons_self ..) e.symm)]
    exact ih fun d hd => h d (List.mem_cons_of_mem _ hd)

/-- Canonical stores that read alike are equal. -/
theorem Memory.ext {m n : Memory} (hm : Memory.wf m) (hn : Memory.wf n)
    (h : ∀ a, Memory.read m a = Memory.read n a) : m = n := by
  induction m generalizing n with
  | nil =>
    cases n with
    | nil => rfl
    | cons c n => simpa [Memory.read_cons] using h c.1
  | cons c m ih =>
    obtain ⟨hcm, hm'⟩ := Memory.wf_cons.mp hm
    cases n with
    | nil => simpa [Memory.read_cons] using h c.1
    | cons d n =>
      obtain ⟨hdn, hn'⟩ := Memory.wf_cons.mp hn
      have key : ∀ {x y : Nat × Pixel} {p q : Memory}, (∀ e ∈ q, y.1 < e.1) → x.1 < y.1 →
          Memory.read (x :: p) x.1 ≠ Memory.read (y :: q) x.1 := by
        intro x y p q hq hxy e
        have hnone : Memory.read (y :: q) x.1 = none := Memory.read_eq_none fun c hc => by
          rcases List.mem_cons.mp hc with rfl | hc
          · omega
          · have := hq c hc
            omega
        rw [hnone, Memory.read_cons, if_pos rfl] at e
        cases e
      have h1 : c.1 = d.1 := by
        rcases Nat.lt_trichotomy c.1 d.1 with hlt | heq | hgt
        · exact absurd (h c.1) (key hdn hlt)
        · exact heq
        · exact absurd (h d.1).symm (key hcm hgt)
      have h2 : c.2 = d.2 := by
        have := h c.1
        rw [Memory.read_cons, Memory.read_cons, if_pos rfl, if_pos h1] at this
        exact Option.some.inj this
      have hcd : c = d := Prod.ext h1 h2
      subst hcd
      refine congrArg _ (ih hm' hn' fun a => ?_)
      by_cases hac : a = c.1
      · rw [Memory.read_eq_none fun e he => by have := hcm e he; omega,
          Memory.read_eq_none fun e he => by have := hdn e he; omega]
      · simpa [Memory.read_cons, hac] using h a

theorem Memory.read_append (m n : Memory) (a : Nat) :
    Memory.read (m ++ n) a = (Memory.read m a).or (Memory.read n a) := by
  induction m with
  | nil => simp
  | cons c m ih =>
    rw [List.cons_append, Memory.read_cons, Memory.read_cons]
    split
    · simp
    · exact ih

theorem Memory.read_filter (m : Memory) (p : Nat → Bool) (a : Nat) :
    Memory.read (m.filter fun c => p c.1) a = if p a then Memory.read m a else none := by
  induction m with
  | nil => simp
  | cons c m ih =>
    by_cases hc : p c.1 = true
    · rw [List.filter_cons_of_pos (by simpa using hc), Memory.read_cons, Memory.read_cons, ih]
      by_cases hac : a = c.1
      · simp [hac, hc]
      · simp [hac]
    · rw [List.filter_cons_of_neg (by simpa using hc), ih, Memory.read_cons]
      by_cases hac : a = c.1
      · simp [hac, hc]
      · simp [hac]

theorem Memory.read_range (base n : Nat) (v : Pixel) (a : Nat) :
    Memory.read ((List.range' base n).map fun b => (b, v)) a = if base ≤ a ∧ a < base + n then some v else none := by
  induction n generalizing base with
  | zero => simp
  | succ n ih =>
    rw [List.range'_succ, List.map_cons, Memory.read_cons, ih]
    by_cases h : a = base
    · simp [h]
    · rw [if_neg (by simpa using h)]
      congr 1
      simp only [eq_iff_iff]
      omega

/-- What each cell holds after a fill. -/
theorem Memory.read_fill (m : Memory) (base n : Nat) (v : Pixel) (a : Nat) :
    Memory.read (Memory.fill m base n v) a = if base ≤ a ∧ a < base + n then some v else Memory.read m a := by
  unfold Memory.fill
  rw [Memory.read_append, Memory.read_append, Memory.read_filter m (fun b => decide (b < base)),
    Memory.read_filter m (fun b => decide (base + n ≤ b)), Memory.read_range]
  by_cases h1 : a < base
  · have : ¬ (base ≤ a ∧ a < base + n) := by omega
    have : ¬ base + n ≤ a := by omega
    simp [*]
  · by_cases h2 : a < base + n
    · have : base ≤ a ∧ a < base + n := by omega
      simp [*]
    · have : ¬ (base ≤ a ∧ a < base + n) := by omega
      have : base + n ≤ a := by omega
      simp [*]

/-- A fill keeps the canonical form. -/
theorem Memory.wf_fill {m : Memory} (base n : Nat) (v : Pixel) (h : Memory.wf m) :
    Memory.wf (Memory.fill m base n v) := by
  have hsub : ∀ p : Nat × Pixel → Bool, Memory.wf (m.filter p) := fun p =>
    List.Pairwise.sublist (List.Sublist.map _ List.filter_sublist) h
  have hrange : Memory.wf ((List.range' base n).map fun a => (a, v)) := by
    simp only [Memory.wf, List.map_map]
    have : (Prod.fst ∘ fun a : Nat => (a, v)) = id := rfl
    rw [this, List.map_id]
    exact List.pairwise_lt_range'
  unfold Memory.fill
  unfold Memory.wf at *
  rw [List.map_append, List.map_append, List.pairwise_append, List.pairwise_append]
  refine ⟨⟨hsub _, hrange, ?_⟩, hsub _, ?_⟩
  · intro a ha b hb
    simp only [List.mem_map, List.mem_filter, List.mem_range'_1, decide_eq_true_eq] at ha hb
    obtain ⟨c, ⟨-, hc⟩, rfl⟩ := ha
    obtain ⟨d, ⟨e, he, rfl⟩, rfl⟩ := hb
    simp only
    omega
  · intro a ha b hb
    simp only [List.mem_append, List.mem_map, List.mem_filter, List.mem_range'_1, decide_eq_true_eq] at ha hb
    obtain ⟨d, ⟨-, hd⟩, rfl⟩ := hb
    rcases ha with ⟨c, ⟨-, hc⟩, rfl⟩ | ⟨c, ⟨e, he, rfl⟩, rfl⟩
    · omega
    · simp only
      omega

/-- A cell listed after a fill is in the filled range or was listed before. -/
theorem Memory.mem_fill {m : Memory} {base n : Nat} {v : Pixel} {c : Nat × Pixel} (h : c ∈ Memory.fill m base n v) :
    (base ≤ c.1 ∧ c.1 < base + n) ∨ c ∈ m := by
  unfold Memory.fill at h
  simp only [List.mem_append, List.mem_map, List.mem_filter, List.mem_range'_1, decide_eq_true_eq] at h
  rcases h with (⟨h, -⟩ | ⟨e, he, rfl⟩) | ⟨h, -⟩
  · exact .inr h
  · exact .inl he
  · exact .inr h

/-- Cells of framebuffers that exist have addresses of their own (log 14). -/
theorem cellAddr_inj {cfg : Cfg} {k k' i i' : Nat} (hi : i < fbSize cfg) (hi' : i' < fbSize cfg)
    (h : cellAddr cfg k i = cellAddr cfg k' i') : k = k' ∧ i = i' := by
  unfold cellAddr at h
  have hpos : 0 < fbSize cfg := by omega
  have hk : (k * fbSize cfg + i) / fbSize cfg = (k' * fbSize cfg + i') / fbSize cfg := by rw [h]
  rw [Nat.mul_comm k, Nat.mul_comm k', Nat.mul_add_div hpos, Nat.mul_add_div hpos, Nat.div_eq_of_lt hi,
    Nat.div_eq_of_lt hi'] at hk
  have : k = k' := by omega
  subst this
  exact ⟨rfl, by omega⟩

/-- The cells of existing framebuffers lie below `N_FB * FB_W * FB_H`. -/
theorem cellAddr_lt {cfg : Cfg} {k i : Nat} (hk : k < cfg.nFb) (hi : i < fbSize cfg) :
    cellAddr cfg k i < cfg.nFb * fbSize cfg := by
  unfold cellAddr
  have : (k + 1) * fbSize cfg ≤ cfg.nFb * fbSize cfg := Nat.mul_le_mul_right _ hk
  rw [Nat.succ_mul] at this
  omega

/-- A pixel write, cell by cell. -/
theorem readPixel_writePixel (s : State) {k i : Nat} (v : Pixel) (hi : i < fbSize s.cfg) (k' i' : Nat) :
    readPixel (writePixel k i v s) k' i' = if k' = k ∧ i' = i then some v else readPixel s k' i' := by
  unfold readPixel writePixel
  by_cases hi' : i' < fbSize s.cfg
  · simp only [if_pos hi']
    by_cases h : k' = k ∧ i' = i
    · obtain ⟨rfl, rfl⟩ := h
      simp
    · rw [if_neg h, Memory.read_write_other]
      intro e
      exact h (cellAddr_inj hi' hi e)
  · have : ¬ (k' = k ∧ i' = i) := fun h => hi' (h.2 ▸ hi)
    simp [hi', this]

/-- A clear, cell by cell. -/
theorem readPixel_clearPixels (s : State) (k : Nat) (v : Pixel) (k' i' : Nat) :
    readPixel (clearPixels k v s) k' i' = if k' = k ∧ i' < fbSize s.cfg then some v else readPixel s k' i' := by
  have hcfg : (clearPixels k v s).cfg = s.cfg := rfl
  have hpx : (clearPixels k v s).px = Memory.fill s.px (cellAddr s.cfg k 0) (fbSize s.cfg) v := rfl
  unfold readPixel
  rw [hcfg, hpx]
  by_cases hi' : i' < fbSize s.cfg
  · rw [if_pos hi', if_pos hi', Memory.read_fill]
    by_cases hk : k' = k
    · subst hk
      rw [if_pos (by unfold cellAddr; omega), if_pos ⟨rfl, hi'⟩]
    · rw [if_neg (fun h => hk ?_), if_neg (fun h => hk h.1)]
      obtain ⟨d, hd⟩ := Nat.exists_eq_add_of_le h.1
      refine (cellAddr_inj (i' := d) hi' ?_ ?_).1
      · have := h.2
        omega
      · rw [hd]
        unfold cellAddr
        omega
  · simp [hi']

/-- The view of a list of cells has two bytes a cell. -/
@[simp] theorem viewFrom_length (swap : Bool) (cells : List (Option Pixel)) (n : Nat) :
    (viewFrom swap cells n).1.length = 2 * cells.length := by
  induction cells generalizing n with
  | nil => rfl
  | cons c cells ih =>
    cases c with
    | none => simp [viewFrom, ih]; omega
    | some v => cases swap <;> simp [viewFrom, ih, pixelBytes] <;> omega

@[simp] theorem cellsOf_length (s : State) (k : Nat) : (cellsOf s k).length = fbSize s.cfg := by simp [cellsOf]

theorem cellsOf_getElem? (s : State) (k : Nat) {i : Nat} (h : i < fbSize s.cfg) :
    (cellsOf s k)[i]? = some (readPixel s k i) := by simp [cellsOf, h]

/-- The framebuffer's cells do not depend on anything but the store and the configuration. -/
theorem cellsOf_congr {s t : State} (hc : t.cfg = s.cfg) (hp : t.px = s.px) (k : Nat) : cellsOf t k = cellsOf s k := by
  unfold cellsOf readPixel
  rw [hc, hp]

/-- The two view bytes of a written cell. -/
theorem viewFrom_getElem? (swap : Bool) (cells : List (Option Pixel)) (n i : Nat) (v : Pixel)
    (h : cells[i]? = some (some v)) :
    (viewFrom swap cells n).1[2 * i]? = (pixelBytes swap v)[0]? ∧
      (viewFrom swap cells n).1[2 * i + 1]? = (pixelBytes swap v)[1]? := by
  induction cells generalizing n i with
  | nil => simp at h
  | cons c cells ih =>
    cases i with
    | zero =>
      simp only [List.getElem?_cons_zero, Option.some.injEq] at h
      subst h
      cases swap <;> simp [viewFrom, pixelBytes]
    | succ i =>
      have e : 2 * (i + 1) = 2 * i + 1 + 1 := by omega
      cases c with
      | none => simpa [viewFrom, e] using ih (n + 2) i (by simpa using h)
      | some w => cases swap <;> simpa [viewFrom, pixelBytes, e] using ih n i (by simpa using h)

/-- The two view bytes of an `Unknown` cell: the next free bytes after those of the `Unknown` cells before it. -/
theorem viewFrom_unwritten (swap : Bool) (cells : List (Option Pixel)) (n i : Nat) (h : cells[i]? = some none) :
    (viewFrom swap cells n).1[2 * i]? = some (Config.freeByte (n + 2 * (cells.take i).countP Option.isNone)) ∧
      (viewFrom swap cells n).1[2 * i + 1]? =
        some (Config.freeByte (n + 2 * (cells.take i).countP Option.isNone + 1)) := by
  induction cells generalizing n i with
  | nil => simp at h
  | cons c cells ih =>
    cases i with
    | zero =>
      simp only [List.getElem?_cons_zero, Option.some.injEq] at h
      subst h
      simp [viewFrom]
    | succ i =>
      have e : 2 * (i + 1) = 2 * i + 1 + 1 := by omega
      cases c with
      | none =>
        have key := ih (n + 2) i (by simpa using h)
        simp only [viewFrom, e, List.take_succ_cons, List.countP_cons, Option.isNone, List.cons_append,
          List.nil_append, List.getElem?_cons_succ, if_true]
        rw [key.1, key.2]
        constructor <;> (congr 2; omega)
      | some w => cases swap <;> simpa [viewFrom, pixelBytes, e] using ih n i (by simpa using h)

/-- A view draws two free bytes for each `Unknown` cell. -/
theorem viewFrom_count (swap : Bool) (cells : List (Option Pixel)) (n : Nat) :
    (viewFrom swap cells n).2 = n + 2 * cells.countP Option.isNone := by
  induction cells generalizing n with
  | nil => rfl
  | cons c cells ih => cases c <;> simp [viewFrom, ih]; omega

/-- The view of a fully written framebuffer draws no free byte. -/
theorem viewFrom_written (swap : Bool) (cells : List (Option Pixel)) (n m : Nat) (h : none ∉ cells) :
    (viewFrom swap cells n).1 = (viewFrom swap cells m).1 := by
  induction cells with
  | nil => rfl
  | cons c cells ih =>
    cases c with
    | none => simp at h
    | some v =>
      simp only [viewFrom, List.append_cancel_left_eq]
      exact ih (by simpa using h)

end Sys2Proof.Machine
end

