-- ==== Sys2Proof/Laws/PerInstr.lean ====
section
/-! SUPPORT. The per-instruction families: one lemma per constructor. -/

namespace Sys2Proof.Laws.EncodedOpcode

/-- A host operation encodes to a descriptor whose opcode byte is its row's (30_encoding.md R71, R72); an engine call has
no opcode and encodes to a burst of one or more symbols (30_encoding.md R72, R78). -/
def Statement (i : Instr) : Prop :=
  ∀ cmds : PanelCommands, match encode cmds i with
    | .descriptor d => i.opcode = some (opField d)
    | .burst symbols => i.opcode = none ∧ symbols ≠ []

theorem hardReset : Statement .hardReset := fun _ => congrArg some (opField_pack _ _ _ _ _).symm
theorem init : Statement .init := fun _ => congrArg some (opField_pack _ _ _ _ _).symm
theorem setOrientation (mode : Orientation) : Statement (.setOrientation mode) :=
  fun _ => congrArg some (opField_pack _ _ _ _ _).symm
theorem setAddressWindow (x0 y0 x1 y1 : Field) : Statement (.setAddressWindow x0 y0 x1 y1) :=
  fun _ => congrArg some (opField_pack _ _ _ _ _).symm
theorem eatFramebuffer (k : Field) : Statement (.eatFramebuffer k) := fun _ => congrArg some (opField_pack _ _ _ _ _).symm
theorem setBacklight (on : Bool) : Statement (.setBacklight on) := fun _ => congrArg some (opField_pack _ _ _ _ _).symm
theorem fbSetPixelXy (k x y : Field) (color : Pixel) : Statement (.fbSetPixelXy k x y color) :=
  fun _ => congrArg some (opField_pack _ _ _ _ _).symm
theorem fbSetPixelRaw (k : Field) (offset : BitVec 32) (color : Pixel) : Statement (.fbSetPixelRaw k offset color) :=
  fun _ => congrArg some (opField_pack _ _ _ _ _).symm
theorem fbClear (k : Field) (color : Pixel) : Statement (.fbClear k color) :=
  fun _ => congrArg some (opField_pack _ _ _ _ _).symm
theorem sendCommand (c : Byte) : Statement (.sendCommand c) := fun _ => ⟨rfl, List.cons_ne_nil _ _⟩
theorem sendData (b : Byte) (more : List Byte) : Statement (.sendData b more) := fun _ => ⟨rfl, List.cons_ne_nil _ _⟩
theorem wireSlpout : Statement .wireSlpout := fun _ => ⟨rfl, List.cons_ne_nil _ _⟩
theorem wireColmod : Statement .wireColmod := fun _ => ⟨rfl, List.cons_ne_nil _ _⟩
theorem wireDispon : Statement .wireDispon := fun _ => ⟨rfl, List.cons_ne_nil _ _⟩
theorem wireMadctl : Statement .wireMadctl := fun _ => ⟨rfl, List.cons_ne_nil _ _⟩
theorem wireCaset : Statement .wireCaset := fun _ => ⟨rfl, List.cons_ne_nil _ _⟩
theorem wireRaset : Statement .wireRaset := fun _ => ⟨rfl, List.cons_ne_nil _ _⟩
theorem wireRamwr : Statement .wireRamwr := fun _ => ⟨rfl, List.cons_ne_nil _ _⟩

end Sys2Proof.Laws.EncodedOpcode
end

