-- ==== Sys2Proof/Laws/Trace.lean ====
section
/-! SUPPORT. How the readings of a trace go over concatenation. -/

namespace Sys2Proof.Machine

theorem latchAfter_append (r : PinRole) (es fs : List Event) :
    latchAfter r (es ++ fs) = fs.foldl (latchStep r) (latchAfter r es) := by
  unfold latchAfter
  rw [List.foldl_append]

/-- The wire view of a trace that goes on: the items of the rest depend on the latches where it starts. -/
theorem wireItems_congr_tail (cfg : Cfg) (rst dc bl : Latch) (es : List Event) {fs gs : List Event}
    (h : wireItems cfg (es.foldl (latchStep .rst) rst) (es.foldl (latchStep .dc) dc) (es.foldl (latchStep .bl) bl) fs =
      wireItems cfg (es.foldl (latchStep .rst) rst) (es.foldl (latchStep .dc) dc) (es.foldl (latchStep .bl) bl) gs) :
    wireItems cfg rst dc bl (es ++ fs) = wireItems cfg rst dc bl (es ++ gs) := by
  induction es generalizing rst dc bl with
  | nil => exact h
  | cons e es ih =>
    have key := ih (latchStep .rst rst e) (latchStep .dc dc e) (latchStep .bl bl e) (by simpa using h)
    cases e with
    | pin role l =>
      cases role with
      | rst =>
        by_cases hl : rst = .driven l
        · subst hl
          simpa [wireItems, latchStep] using key
        · simpa [wireItems, latchStep, hl] using key
      | dc => simpa [wireItems, latchStep] using key
      | bl =>
        by_cases hl : bl = .driven l
        · subst hl
          simpa [wireItems, latchStep] using key
        · simpa [wireItems, latchStep, hl] using key
    | pinFail role l => cases role <;> simpa [wireItems, latchStep] using key
    | wait t => simpa [wireItems, latchStep] using congrArg (addPause t) key
    | tx bs => simpa [wireItems, latchStep] using key
    | txFail bs k => simpa [wireItems, latchStep] using key

/-- Symbols come from the bursts alone: the latches of RST and BL and the waits add none. -/
def symbolsFrom (cfg : Cfg) : Latch → List Event → List Symbol
  | _, [] => []
  | dc, e :: es =>
    (match e with
     | .tx bs => symbolsOf (kindOf cfg dc) bs
     | .txFail bs k => symbolsOf (kindOf cfg dc) (bs.take k)
     | .pin _ _ => []
     | .pinFail _ _ => []
     | .wait _ => []) ++ symbolsFrom cfg (latchStep .dc dc e) es

theorem addPause_symbols (t : Nat) (items : List WireItem) :
    (addPause t items).flatMap itemSymbols = items.flatMap itemSymbols := by
  cases items with
  | nil => rfl
  | cons i items => cases i <;> rfl

theorem wireItems_symbols (cfg : Cfg) (rst dc bl : Latch) (es : List Event) :
    (wireItems cfg rst dc bl es).flatMap itemSymbols = symbolsFrom cfg dc es := by
  induction es generalizing rst dc bl with
  | nil => rfl
  | cons e es ih =>
    cases e with
    | pin role l =>
      cases role with
      | rst =>
        by_cases hl : rst = .driven l
        · subst hl
          simp [wireItems, symbolsFrom, latchStep, ih]
        · simp [wireItems, symbolsFrom, latchStep, ih, hl, itemSymbols]
      | dc => simp [wireItems, symbolsFrom, latchStep, ih]
      | bl =>
        by_cases hl : bl = .driven l
        · subst hl
          simp [wireItems, symbolsFrom, latchStep, ih]
        · simp [wireItems, symbolsFrom, latchStep, ih, hl, itemSymbols]
    | pinFail role l => cases role <;> simp [wireItems, symbolsFrom, latchStep, ih, itemSymbols]
    | wait t => simp [wireItems, symbolsFrom, latchStep, ih, addPause_symbols]
    | tx bs => simp [wireItems, symbolsFrom, latchStep, ih, itemSymbols]
    | txFail bs k => simp [wireItems, symbolsFrom, latchStep, ih, itemSymbols]

/-- The symbols of a trace, from its bursts. -/
theorem wireSymbols_eq (cfg : Cfg) (es : List Event) : wireSymbols cfg es = symbolsFrom cfg .unknown es :=
  wireItems_symbols cfg _ _ _ es

theorem symbolsFrom_append (cfg : Cfg) (dc : Latch) (es fs : List Event) :
    symbolsFrom cfg dc (es ++ fs) = symbolsFrom cfg dc es ++ symbolsFrom cfg (es.foldl (latchStep .dc) dc) fs := by
  induction es generalizing dc with
  | nil => rfl
  | cons e es ih => simp [symbolsFrom, ih]

/-- The symbols of a trace that goes on. -/
theorem wireSymbols_append (cfg : Cfg) (es fs : List Event) :
    wireSymbols cfg (es ++ fs) = wireSymbols cfg es ++ symbolsFrom cfg (latchAfter .dc es) fs := by
  rw [wireSymbols_eq, wireSymbols_eq, symbolsFrom_append]
  rfl

theorem kindOf_command (cfg : Cfg) : kindOf cfg (.driven cfg.dcCmdLevel) = some .command := by simp [kindOf]

theorem kindOf_data (cfg : Cfg) : kindOf cfg (.driven (dcDataLevel cfg)) = some .data := by
  unfold kindOf dcDataLevel
  cases cfg.dcCmdLevel <;> simp [flipLevel]

/-- The last command of symbols that go on without a command is the one before. -/
theorem lastCommand_append_data (ys zs : List Symbol) (h : ∀ z ∈ zs, isDataSymbol z = true) :
    lastCommand (ys ++ zs) = lastCommand ys := by
  have hz : zs.filter (fun y => !isDataSymbol y) = [] := List.filter_eq_nil_iff.mpr fun z hz => by simp [h z hz]
  unfold lastCommand
  rw [List.filter_append, hz, List.append_nil]

/-- The last command of symbols that end with a command symbol. -/
theorem lastCommand_append_command (ys : List Symbol) (c : Byte) :
    lastCommand (ys ++ [commandSymbol c]) = some c := by
  unfold lastCommand
  rw [List.filter_append, List.map_append, List.filter_cons_of_pos (by simp)]
  simp

theorem minElapsed_append (es fs : List Event) : minElapsed (es ++ fs) = minElapsed es + minElapsed fs := by
  induction es with
  | nil => simp [minElapsed]
  | cons e es ih => cases e <;> simp [minElapsed, ih, Nat.add_assoc]

/-- Panel commands of symbols that go on with a command, or not at all. -/
theorem panelCommands_append (ys zs : List Symbol) (h : ∀ z ∈ zs.head?, isDataSymbol z = false) :
    panelCommands (ys ++ zs) = panelCommands ys ++ panelCommands zs := by
  have take : ∀ ys : List Symbol, (ys ++ zs).takeWhile isDataSymbol = ys.takeWhile isDataSymbol := by
    intro ys
    induction ys with
    | nil =>
      cases zs with
      | nil => rfl
      | cons z zs =>
        have hz : isDataSymbol z = false := h z rfl
        simp [hz]
    | cons y ys ih => simp only [List.cons_append, List.takeWhile_cons, ih]
  induction ys with
  | nil => rfl
  | cons y ys ih =>
    simp only [List.cons_append, panelCommands, ih, take]
    split <;> rfl

/-- One command and its data are one panel command (30_encoding.md R79). -/
theorem panelCommands_single (c : Byte) (bs : List Byte) :
    panelCommands (commandSymbol c :: bs.map dataSymbol) = [(c, bs)] := by
  have none : panelCommands (bs.map dataSymbol) = [] := by induction bs <;> simp_all [panelCommands]
  have all : (bs.map dataSymbol).takeWhile isDataSymbol = bs.map dataSymbol := by induction bs <;> simp_all
  have back : (bs.map dataSymbol).map symbolByte = bs := by simp [Function.comp_def]
  simp only [panelCommands, isDataSymbol_command, none, all, back, symbolByte_command, Bool.false_eq_true, if_false]

end Sys2Proof.Machine
end

