-- ==== Sys2Proof/Laws/Safety.lean ====
section
/-! SUPPORT. The shape of a trace over concatenation. -/

namespace Sys2Proof.Machine

theorem shapedFrom_append (cfg : Cfg) (before : Option Event) (es fs : List Event) :
    shapedFrom cfg before (es ++ fs) = (shapedFrom cfg before es && shapedFrom cfg (es.getLast?.or before) fs) := by
  induction es generalizing before with
  | nil => simp [shapedFrom]
  | cons e es ih =>
    simp only [List.cons_append, shapedFrom, ih]
    cases es with
    | nil => simp [shapedFrom]
    | cons a rest =>
      rw [List.getLast?_cons_cons]
      cases h : (a :: rest).getLast? with
      | none => simp at h
      | some v => simp [Bool.and_assoc]

theorem failureFree_append (es fs : List Event) :
    failureFree (es ++ fs) = (failureFree es && failureFree fs) := List.all_append

end Sys2Proof.Machine
end

