-- ==== Sys2Proof/Laws/Step.lean ====
section
/-! SUPPORT. Everything a step can do, said once. -/

namespace Sys2Proof.Machine

/-! ## What runs next -/

theorem fetch_idle {s : State} (he : s.engineCalls = []) (hp : s.pending = []) : fetch s = none := by
  unfold fetch; rw [he, hp]

theorem fetch_host {s : State} {d : Descriptor} {rest : List Descriptor} (he : s.engineCalls = [])
    (hp : s.pending = d :: rest) : fetch s = some (.descriptor d, { s with pending := rest }) := by
  unfold fetch; rw [he, hp]

theorem fetch_engine {s : State} {symbols : List Symbol} {rest : List (List Symbol)}
    (he : s.engineCalls = symbols :: rest) : fetch s = some (.burst symbols, { s with engineCalls := rest }) := by
  unfold fetch; rw [he]

/-- Everything a fetch can take: the host's next descriptor, where no engine call is to run by itself, or such a call. -/
theorem fetch_cases {s u : State} {c : Code} (h : fetch s = some (c, u)) :
    (∃ d rest, c = .descriptor d ∧ s.engineCalls = [] ∧ s.pending = d :: rest ∧ u = { s with pending := rest }) ∨
      ∃ symbols rest, c = .burst symbols ∧ s.engineCalls = symbols :: rest ∧ u = { s with engineCalls := rest } := by
  cases he : s.engineCalls with
  | cons symbols rest =>
    rw [fetch_engine he, Option.some.injEq, Prod.mk.injEq] at h
    exact .inr ⟨symbols, rest, h.1.symm, rfl, h.2.symm⟩
  | nil =>
    cases hp : s.pending with
    | nil => rw [fetch_idle he hp] at h; cases h
    | cons d rest =>
      rw [fetch_host he hp, Option.some.injEq, Prod.mk.injEq] at h
      exact .inl ⟨d, rest, h.1.symm, rfl, rfl, by rw [← h.2, ← he]⟩

/-- A fetch changes nothing but what is still to run. -/
theorem fetch_frame {s u : State} {c : Code} (h : fetch s = some (c, u)) :
    u = { s with pending := u.pending, engineCalls := u.engineCalls } := by
  rcases fetch_cases h with ⟨d, rest, -, -, -, rfl⟩ | ⟨symbols, rest, -, -, rfl⟩ <;> rfl

theorem fetch_place_burst (symbols : List Symbol) (s : State) :
    fetch (place (.burst symbols) s) = some (.burst symbols, s) := rfl

theorem fetch_place_descriptor (d : Descriptor) (s : State) :
    fetch (place (.descriptor d) s) = some (.descriptor d, { s with engineCalls := [] }) := rfl

/-! ## The step -/

theorem step_idle {s : State} (h : fetch s = none) : step s = .next s := by unfold step; rw [h]

theorem step_fetch {s u : State} {c : Code} (h : fetch s = some (c, u)) :
    step s = match decode s.cfg.cmds c with
      | .ok i => exec i u
      | .error e => rejectCode e u := by
  have hc : u.cfg = s.cfg := by rw [fetch_frame h]
  unfold step
  rw [h, ← hc] <;> rfl

/-- What a rejected code does: the halted check, then `IllegalOperation`; or a refusal. -/
theorem rejectCode_cases (e : DecodeError) (s : State) :
    ((e = .unknownOpcode ∨ e = .mustBeZero) ∧
      rejectCode e s = .next (returns (if s.halted then .halted else .illegalOperation) s)) ∨
    ((e = .emptyBurst ∨ e = .mixedBurst) ∧ rejectCode e s = .refused .notABurst) := by
  cases e <;> simp [rejectCode, checked, notHalted, raisePrecondition] <;> cases s.halted <;> rfl

/-- A step that answers a next state: the idle block, one instruction, or a rejected code that changed the result
alone. -/
theorem step_next {s t : State} (h : step s = .next t) :
    (fetch s = none ∧ t = s) ∨
    (∃ c u i, fetch s = some (c, u) ∧ decode s.cfg.cmds c = .ok i ∧ exec i u = .next t) ∨
    (∃ c u e, fetch s = some (c, u) ∧ decode s.cfg.cmds c = .error e ∧
      t = returns (if s.halted then .halted else .illegalOperation) u) := by
  cases hf : fetch s with
  | none =>
    rw [step_idle hf] at h
    exact .inl ⟨rfl, (Host.Outcome.next.inj h).symm⟩
  | some cu =>
    obtain ⟨c, u⟩ := cu
    rw [step_fetch hf] at h
    cases hd : decode s.cfg.cmds c with
    | ok i =>
      rw [hd] at h
      exact .inr (.inl ⟨c, u, i, rfl, hd, h⟩)
    | error e =>
      have hh : u.halted = s.halted := by rw [fetch_frame hf]
      rw [hd] at h
      dsimp only at h
      refine .inr (.inr ⟨c, u, e, rfl, hd, ?_⟩)
      rcases rejectCode_cases e u with ⟨-, hr⟩ | ⟨-, hr⟩
      · rw [hr, hh] at h
        exact (Host.Outcome.next.inj h).symm
      · rw [hr] at h
        cases h

/-- A step runs no engine call of its own accord: without one to run by itself there is none afterwards. -/
theorem step_engineCalls {s t : State} (h : step s = .next t) (he : s.engineCalls = []) : t.engineCalls = [] := by
  have key : ∀ {c u}, fetch s = some (c, u) → u.engineCalls = [] := by
    intro c u hf
    rcases fetch_cases hf with ⟨d, rest, -, -, -, rfl⟩ | ⟨symbols, rest, -, hs, -⟩
    · exact he
    · rw [he] at hs; cases hs
  rcases step_next h with ⟨-, rfl⟩ | ⟨c, u, i, hf, -, hx⟩ | ⟨c, u, e, hf, -, rfl⟩
  · exact he
  · exact (exec_frame hx).2.2.1.trans (key hf)
  · exact (key hf : u.engineCalls = [])

end Sys2Proof.Machine
end

