-- ==== Sys2Proof/Machine/Text.lean ====
section
/-! DEFINITION. The textual syntax of the operations and of the wire symbols (30_encoding.md R88, R89, R78). The machine
uses none of it. -/

namespace Sys2Proof.Machine

/-- One hexadecimal digit, capital letters as 30_encoding.md writes them. -/
def hexDigit (n : Nat) : Char := ("0123456789ABCDEF".toList).getD n '0'

/-- A byte as two hexadecimal digits. -/
def hexByte (b : Byte) : String := String.ofList [hexDigit (b.toNat / 16), hexDigit (b.toNat % 16)]

/-- `C:xx` for a command symbol, `D:xx` for a data symbol (30_encoding.md R78). -/
def symbolText (y : Symbol) : String := (if isDataSymbol y then "D:" else "C:") ++ hexByte (symbolByte y)

/-- "a lower-case name and a parenthesised, comma-separated operand list" (30_encoding.md R88). -/
def callText (name : String) (operands : List String) : String :=
  name ++ "(" ++ String.intercalate ", " operands ++ ")"

/-- An operand in decimal (30_encoding.md R88). -/
def numberText {w : Nat} (v : BitVec w) : String := toString v.toNat

/-- The names of the orientations (10_state.md R22). -/
def orientationText : Orientation → String
  | .portrait => "Portrait"
  | .landscape => "Landscape"
  | .landscapeMirrored => "LandscapeMirrored"
  | .portraitMirrored => "PortraitMirrored"

/-- The text of an operation (30_encoding.md R88); the engine's calls are written as calls too, though they encode to
no descriptor (R89), and a panel command is written as its symbol (R78, R80). -/
def instrText (cmds : PanelCommands) : Instr → String
  | .hardReset => callText "hard_reset" []
  | .init => callText "init" []
  | .setOrientation mode => callText "set_orientation" [orientationText mode]
  | .setAddressWindow x0 y0 x1 y1 =>
    callText "set_address_window" [numberText x0, numberText y0, numberText x1, numberText y1]
  | .eatFramebuffer k => callText "eat_framebuffer" [numberText k]
  | .setBacklight on => callText "set_backlight" [if on then "on" else "off"]
  | .fbSetPixelXy k x y color =>
    callText "fb_set_pixel_xy" [numberText k, numberText x, numberText y, numberText color]
  | .fbSetPixelRaw k offset color => callText "fb_set_pixel_raw" [numberText k, numberText offset, numberText color]
  | .fbClear k color => callText "fb_clear" [numberText k, numberText color]
  | .sendCommand c => callText "send_command" ["0x" ++ hexByte c]
  | .sendData b more =>
    callText "send_data" ["[" ++ String.intercalate ", " ((b :: more).map fun x => "0x" ++ hexByte x) ++ "]"]
  | .wireSlpout => symbolText (commandSymbol cmds.slpout)
  | .wireColmod => symbolText (commandSymbol cmds.colmod)
  | .wireDispon => symbolText (commandSymbol cmds.dispon)
  | .wireMadctl => symbolText (commandSymbol cmds.madctl)
  | .wireCaset => symbolText (commandSymbol cmds.caset)
  | .wireRaset => symbolText (commandSymbol cmds.raset)
  | .wireRamwr => symbolText (commandSymbol cmds.ramwr)

end Sys2Proof.Machine
end

