-- ==== Sys2Proof/Tests/Slice0.lean ====
section
/-! SUPPORT. Tests, with expected results from 95_test_vectors.md and 30_encoding.md, and the witnesses of the
statements' hypotheses. -/

namespace Sys2Proof.Tests
open Sys2Proof.Machine Sys2Proof.Stated

/-! ## Well-formed instructions -/

/-- Every named byte as a plain `SEND_COMMAND` is refused by the check (30_encoding.md R80; log 11). -/
theorem test_wf_refuses_named_bytes :
    [0x11, 0x3A, 0x36, 0x2A, 0x2B, 0x2C, 0x29].all
      (fun c => !(Instr.sendCommand c).wf PanelCommands.default) = true := by decide

theorem test_wf_accepts_vendor_byte : (Instr.sendCommand 0xB0).wf PanelCommands.default = true := by decide

/-! ## Decoding: 95_test_vectors.md B1, as bytes most significant first -/

/-- Nine bytes, decoded. -/
def decodeBytes (bs : List Byte) : Option (Except DecodeError Instr) := (descriptorOfBytes bs).map decodeDescriptor

theorem test_decode_hardReset : decodeBytes [0x01, 0, 0, 0, 0, 0, 0, 0, 0] = some (.ok .hardReset) := by decide
theorem test_decode_init : decodeBytes [0x02, 0, 0, 0, 0, 0, 0, 0, 0] = some (.ok .init) := by decide
theorem test_decode_setOrientation :
    decodeBytes [0x03, 0, 0x02, 0, 0, 0, 0, 0, 0] = some (.ok (.setOrientation .landscapeMirrored)) ∧
      decodeBytes [0x03, 0, 0x03, 0, 0, 0, 0, 0, 0] = some (.ok (.setOrientation .portraitMirrored)) := by decide
theorem test_decode_setAddressWindow :
    decodeBytes [0x04, 0x00, 0x0A, 0x00, 0x14, 0x00, 0xC8, 0x00, 0x64] = some (.ok (.setAddressWindow 10 20 200 100)) ∧
      decodeBytes [0x04, 0xFF, 0xFF, 0xFF, 0xFF, 0xFF, 0xFF, 0xFF, 0xFF] =
        some (.ok (.setAddressWindow 65535 65535 65535 65535)) := by decide
theorem test_decode_eatFramebuffer :
    decodeBytes [0x05, 0x00, 0x01, 0, 0, 0, 0, 0, 0] = some (.ok (.eatFramebuffer 1)) := by decide
theorem test_decode_setBacklight :
    decodeBytes [0x06, 0x00, 0x01, 0, 0, 0, 0, 0, 0] = some (.ok (.setBacklight true)) ∧
      decodeBytes [0x06, 0x00, 0x00, 0, 0, 0, 0, 0, 0] = some (.ok (.setBacklight false)) := by decide
theorem test_decode_fbSetPixelXy :
    decodeBytes [0x10, 0x00, 0x00, 0x00, 0x05, 0x00, 0x02, 0xF8, 0x00] = some (.ok (.fbSetPixelXy 0 5 2 0xF800)) := by
  decide
theorem test_decode_fbSetPixelRaw :
    decodeBytes [0x11, 0x00, 0x00, 0x00, 0x01, 0x2B, 0xFF, 0x00, 0x1F] = some (.ok (.fbSetPixelRaw 0 76799 0x001F)) ∧
      decodeBytes [0x11, 0x00, 0x01, 0x00, 0x00, 0x00, 0x02, 0x12, 0x34] =
        some (.ok (.fbSetPixelRaw 1 2 0x1234)) := by decide
theorem test_decode_fbClear :
    decodeBytes [0x12, 0x00, 0x01, 0, 0, 0, 0, 0x07, 0xE0] = some (.ok (.fbClear 1 0x07E0)) := by decide

/-- One symbol, decoded under the default command bytes; bit 8 is 0 for a command, 1 for data (30_encoding.md R78). -/
def decodeSymbol (y : Symbol) : Except DecodeError Instr := decode PanelCommands.default (.burst [y])

theorem test_decode_sendCommand : decodeSymbol 0b010110000 = .ok (.sendCommand 0xB0) := by decide
theorem test_decode_sendData :
    decode PanelCommands.default (.burst [0b100000000, 0b100000000, 0b100000001, 0b100111111]) =
      .ok (.sendData 0x00 [0x00, 0x01, 0x3F]) := by decide
theorem test_decode_wireSlpout : decodeSymbol 0b000010001 = .ok .wireSlpout := by decide
theorem test_decode_wireColmod : decodeSymbol 0b000111010 = .ok .wireColmod := by decide
theorem test_decode_wireDispon : decodeSymbol 0b000101001 = .ok .wireDispon := by decide
theorem test_decode_wireMadctl : decodeSymbol 0b000110110 = .ok .wireMadctl := by decide
theorem test_decode_wireCaset : decodeSymbol 0b000101010 = .ok .wireCaset := by decide
theorem test_decode_wireRaset : decodeSymbol 0b000101011 = .ok .wireRaset := by decide
theorem test_decode_wireRamwr : decodeSymbol 0b000101100 = .ok .wireRamwr := by decide

/-- The illegal descriptors of B1. -/
theorem test_illegal_opcodes :
    [0x00, 0xFF, 0x07, 0x0F, 0x13, 0x20].all (fun op => decide (decodeBytes [op, 0, 0, 0, 0, 0, 0, 0, 0] =
      some (.error .unknownOpcode))) = true := by decide
theorem test_illegal_fields :
    [[0x01, 0, 0, 0, 0, 0, 0, 0, 0x01], [0x02, 0x80, 0, 0, 0, 0, 0, 0, 0], [0x03, 0, 0x04, 0, 0, 0, 0, 0, 0],
     [0x03, 0, 0x01, 0, 0x01, 0, 0, 0, 0], [0x05, 0, 0, 0, 0x01, 0, 0, 0, 0], [0x06, 0, 0x02, 0, 0, 0, 0, 0, 0],
     [0x12, 0, 0, 0, 0x01, 0, 0, 0, 0], [0x12, 0, 0, 0, 0, 0, 0x01, 0xFF, 0xFF]].all
      (fun bs => decide (decodeBytes bs = some (.error .mustBeZero))) = true := by decide

/-- There is one length (30_encoding.md R71). -/
theorem test_one_length : decodeBytes [0x01, 0, 0, 0, 0, 0, 0, 0] = none ∧
    decodeBytes [0x01, 0, 0, 0, 0, 0, 0, 0, 0, 0] = none := by decide

theorem test_no_burst : decode PanelCommands.default (.burst []) = .error .emptyBurst ∧
    decode PanelCommands.default (.burst [0x02A, 0x100]) = .error .mixedBurst := by decide

/-- Table words, a row of 72 bits and a row of 9 bits in whole bytes. -/
theorem test_table_words :
    decodeTableWord 72 0x060001000000000000 = some (.setBacklight true) ∧
      decodeTableWord 16 0x02C = some .wireRamwr ∧ decodeTableWord 16 0x155 = some (.sendData 0x55 []) ∧
      decodeTableWord 16 0x200 = none ∧ decodeTableWord 72 (2 ^ 72) = none := by decide

theorem test_fetchWord :
    step (State.reset.withFetchWord 72 0x010000000000000000) = exec .hardReset State.reset ∧
      step (State.reset.withFetchWord 16 0x02A) = exec .wireCaset State.reset := ⟨rfl, rfl⟩

/-- 30_encoding.md R88, R78. -/
theorem test_text :
    instrText PanelCommands.default (.setAddressWindow 0 0 319 239) = "set_address_window(0, 0, 319, 239)" ∧
      instrText PanelCommands.default .wireCaset = "C:2A" ∧ symbolText 0x13F = "D:3F" := by decide

/-! ## Behaviour: `CFG2` of 95_test_vectors.md, a 2 x 2 framebuffer with swapped bytes -/

def cfg2 : Cfg := { Cfg.default with nFb := 1, fbW := 2, fbH := 2, swapBytes := [true] }

/-- The block in a display state, with pixels. -/
def blockIn (ds : DisplayState) (px : Memory) : State := { State.initial cfg2 with ds := ds, px := px }

/-- The state after an instruction that answers one. -/
def after (i : Instr) (s : State) : Option State :=
  match exec i s with
  | .next t => some t
  | .fault _ => none
  | .refused _ => none

/-- What an instruction answers: result, display state, new trace of a block whose trace was empty. -/
def summary (i : Instr) (s : State) : Option (Option Result × DisplayState × List Event) :=
  (after i s).map fun t => (t.reply, t.ds, t.trace)

/-- The frame of program P2. -/
def frameP2 : Memory := [(0, 0x0000), (1, 0xABCD), (2, 0x1234), (3, 0x0000)]

/-- B5, first row. -/
theorem test_hardReset : summary .hardReset (blockIn .uninitialized []) = some (some .ok, .reset,
    [.pin .rst .low, .wait 10, .pin .rst .high, .wait 120000]) := by decide
/-- B5, second RST drive fails. -/
theorem test_hardReset_fails :
    summary .hardReset { blockIn .ready [] with env := ⟨[.ok, .fail], []⟩ } = some (some .transportPin, .ready,
      [.pin .rst .low, .wait 10, .pinFail .rst .high]) := by decide
/-- B5, default sequence. -/
theorem test_init : summary .init (blockIn .reset []) = some (some .ok, .initialized,
    [.pin .dc .low, .tx [0x11], .wait 120000, .pin .dc .low, .tx [0x3A], .pin .dc .high, .tx [0x55], .pin .dc .low,
     .tx [0x29]]) := by decide
/-- B5, bus fails on the pixel-format byte. -/
theorem test_init_fails :
    summary .init { blockIn .reset [] with env := ⟨[], [.ok, .ok, .fail 1]⟩ } = some (some .transportBus, .reset,
      [.pin .dc .low, .tx [0x11], .wait 120000, .pin .dc .low, .tx [0x3A], .pin .dc .high, .txFail [0x55] 1]) := by
  decide
/-- B8, first row: `dc_out` keeps the level driven before the burst that failed. -/
theorem test_window_fails :
    (after (.setAddressWindow 0 0 319 239)
        { blockIn .initialized [] with dcOut := .driven .low, env := ⟨[], [.ok, .ok, .ok, .fail 2]⟩ }).map
      (fun t => (t.reply, t.win, t.halted, t.dcOut)) = some (some .transportBus, none, true, .driven .high) := by decide
/-- B3. -/
theorem test_setOrientation : summary (.setOrientation .landscape) (blockIn .ready []) = some (some .ok, .ready,
    [.pin .dc .low, .tx [0x36], .pin .dc .high, .tx [0x60]]) := by decide
/-- B3, with the other colour order. -/
theorem test_orientation_bytes :
    [Orientation.portrait, .landscape, .landscapeMirrored, .portraitMirrored].map
      (madctlOf { cfg2 with colorBgr := true }) = [0x08, 0x68, 0xA8, 0xC8] := by decide
/-- B4, second row. -/
theorem test_setAddressWindow :
    summary (.setAddressWindow 10 20 200 100) (blockIn .initialized []) = some (some .ok, .ready,
      [.pin .dc .low, .tx [0x2A], .pin .dc .high, .tx [0x00, 0x0A, 0x00, 0xC8], .pin .dc .low, .tx [0x2B],
       .pin .dc .high, .tx [0x00, 0x14, 0x00, 0x64], .pin .dc .low, .tx [0x2C]]) := by decide
/-- B4, the windows at the edges. -/
theorem test_window_edges :
    [(319, 239, 319, 239), (7, 7, 7, 7), (5, 0, 4, 0), (0, 9, 0, 8), (0, 0, 320, 239), (0, 0, 319, 240),
     (320, 0, 320, 0), (0, 0, 65535, 0)].map (fun w : Field × Field × Field × Field =>
        windowValid cfg2 ⟨w.1, w.2.1, w.2.2.1, w.2.2.2⟩) =
      [true, true, false, false, false, false, false, false] := by decide
/-- P2, step 7: bytes swapped. -/
theorem test_eatFramebuffer : summary (.eatFramebuffer 0) (blockIn .ready frameP2) = some (some .ok, .ready,
    [.pin .dc .high, .tx [0x00, 0x00, 0xCD, 0xAB, 0x34, 0x12, 0x00, 0x00]]) := by decide
/-- P4, steps 9 and 12. -/
theorem test_eatFramebuffer_order :
    (summary (.eatFramebuffer 5) (blockIn .initialized frameP2)).map Prod.fst = some (some .invalidState) ∧
      (summary (.eatFramebuffer 5) (blockIn .ready frameP2)).map Prod.fst = some (some .invalidBuffer) := by decide
/-- B9. -/
theorem test_setBacklight :
    summary (.setBacklight true) (blockIn .uninitialized []) = some (some .ok, .uninitialized, [.pin .bl .high]) ∧
      summary (.setBacklight true)
        { blockIn .uninitialized [] with cfg := { cfg2 with blOnLevel := .low } } =
          some (some .ok, .uninitialized, [.pin .bl .low]) := by decide
/-- B9, BL Absent. -/
theorem test_setBacklight_absent :
    summary (.setBacklight true)
      { blockIn .uninitialized [] with cfg := { cfg2 with blRole := .absent }, env := ⟨[.fail], []⟩ } =
        some (some .ok, .uninitialized, []) := by decide
/-- P2, step 4: position (1, 0) is cell 1. -/
theorem test_fbSetPixelXy :
    (after (.fbSetPixelXy 0 1 0 0xABCD) (blockIn .uninitialized [])).map State.px = some [(1, 0xABCD)] := by decide
/-- B7: a column past the edge is refused, though its index exists. -/
theorem test_fbSetPixelXy_edge :
    (summary (.fbSetPixelXy 0 2 0 0xABCD) (blockIn .uninitialized [])).map Prod.fst = some (some .outOfBounds) ∧
      (summary (.fbSetPixelXy 9 999 999 0) (blockIn .uninitialized [])).map Prod.fst = some (some .invalidBuffer) := by
  decide
/-- P2, step 5. -/
theorem test_fbSetPixelRaw :
    (after (.fbSetPixelRaw 0 2 0x1234) (blockIn .uninitialized [(1, 0xABCD)])).map State.px =
      some [(1, 0xABCD), (2, 0x1234)] := by decide
/-- B7: the last cell, and one past it. -/
theorem test_fbSetPixelRaw_edge :
    (summary (.fbSetPixelRaw 0 3 0) (blockIn .uninitialized [])).map Prod.fst = some (some .ok) ∧
      (summary (.fbSetPixelRaw 0 4 0) (blockIn .uninitialized [])).map Prod.fst = some (some .outOfBounds) := by decide
/-- 42_framebuffer.md R132, example. -/
theorem test_fbClear :
    (after (.fbClear 0 0x07E0) (blockIn .uninitialized frameP2)).map (fun t => (view t 0).1) =
      some [0xE0, 0x07, 0xE0, 0x07, 0xE0, 0x07, 0xE0, 0x07] := by decide
/-- P4, step 16. -/
theorem test_fbClear_halted :
    after (.fbClear 0 0) { blockIn .ready [] with halted := true } =
      some { blockIn .ready [] with halted := true, reply := some .halted } := by decide
/-- B2. -/
theorem test_sendCommand : summary (.sendCommand 0xB0) (blockIn .uninitialized []) = some (some .ok, .uninitialized,
    [.pin .dc .low, .tx [0xB0]]) := by decide
/-- B2: a failed drive sends no byte; a bus that never answers gives no result. -/
theorem test_engine_failures :
    summary (.sendCommand 0xB0) { blockIn .uninitialized [] with env := ⟨[.fail], []⟩ } =
        some (some .transportPin, .uninitialized, [.pinFail .dc .low]) ∧
      after (.wireDispon) { blockIn .uninitialized [] with env := ⟨[], [.never]⟩ } = none := by decide
/-- B2: one burst; a failure after k bytes. -/
theorem test_sendData :
    summary (.sendData 1 [2, 3]) (blockIn .uninitialized []) =
        some (some .ok, .uninitialized, [.pin .dc .high, .tx [1, 2, 3]]) ∧
      summary (.sendData 1 [2, 3]) { blockIn .uninitialized [] with env := ⟨[], [.fail 2]⟩ } =
        some (some .transportBus, .uninitialized, [.pin .dc .high, .txFail [1, 2, 3] 2]) := by decide
/-- 30_encoding.md R80: the seven symbols. -/
theorem test_wire_bytes :
    [Instr.wireSlpout, .wireColmod, .wireDispon, .wireMadctl, .wireCaset, .wireRaset, .wireRamwr].map
        (fun i => (summary i (blockIn .uninitialized [])).map fun r => r.2.2) =
      [0x11, 0x3A, 0x29, 0x36, 0x2A, 0x2B, 0x2C].map fun c => some [.pin .dc .low, .tx [c]] := by decide

/-- 20_memory.md R52 with 95_test_vectors.md B7. -/
theorem test_view_vectors :
    (viewFrom false [some 0x00FF, some 0xFF00] 0).1 = [0x00, 0xFF, 0xFF, 0x00] ∧
      (viewFrom true [some 0x00FF, some 0xFF00] 0).1 = [0xFF, 0x00, 0x00, 0xFF] ∧
      (viewFrom false [some 0xF800, none] 7).2 = 9 := by decide

/-- B5: a vendor block is well formed; the ill-formed sequences of B5 are not. -/
theorem test_initSeq :
    initSeqWf { cfg2 with initSeq :=
      [⟨0x11, [], 120000⟩, ⟨0x3A, [0x55], 0⟩, ⟨0xB0, [0x01, 0x02], 0⟩, ⟨0xB1, [], 10000⟩, ⟨0x29, [], 0⟩] } = true ∧
    [[⟨0x11, [], 0⟩, ⟨0x29, [], 0⟩], [⟨0x3A, [0x55], 0⟩, ⟨0x11, [], 0⟩, ⟨0x29, [], 0⟩],
     [⟨0x11, [], 0⟩, ⟨0x3A, [0x55], 0⟩, ⟨0x2C, [], 0⟩, ⟨0x29, [], 0⟩], [⟨0x11, [], 0⟩, ⟨0x3A, [0x05], 0⟩, ⟨0x29, [], 0⟩],
     [⟨0x11, [], 0⟩, ⟨0x3A, [0x55], 0⟩, ⟨0x29, [], 0⟩, ⟨0xB0, [], 0⟩], []].all
      (fun q => !initSeqWf { cfg2 with initSeq := q }) = true := by decide

/-- B4: the wire view of a window; B2: its symbols with the other DC level are the same. -/
theorem test_wire_symbols :
    wireSymbols { cfg2 with dcCmdLevel := .high } [.pin .dc .high, .tx [0x2A], .pin .dc .low, .tx [0x01, 0x3F]] =
      [0x02A, 0x101, 0x13F] := by decide

/-- 40_protocol.md R102: CS frames the burst, most significant bit first (30_encoding.md R78). -/
theorem test_burst_lines :
    burstLines cfg2 [0x81] = [.cs .low, .dataBit true, .dataBit false, .dataBit false, .dataBit false, .dataBit false,
      .dataBit false, .dataBit false, .dataBit true, .cs .high] := by decide

/-- 70_reset_and_hazards.md R186, R187 on the end state of P2 and after step 1 of P5. -/
theorem test_hazards :
    frameMeaningful { blockIn .ready frameP2 with win := some ⟨10, 20, 11, 21⟩, ramwrOpen := true } 0 = true ∧
      frameMeaningful { blockIn .ready frameP2 with win := some ⟨10, 20, 11, 21⟩ } 0 = false ∧
      memoryWriteOpen (blockIn .ready frameP2) = false := by decide

/-- 95_test_vectors.md P2 and P5: a window under the panel's own orientation, then the orientation and, as the repair,
the window again. -/
def runP5 : List (Instr × Result) :=
  [(.hardReset, .ok), (.init, .ok), (.setAddressWindow 10 20 11 21, .ok), (.setOrientation .portraitMirrored, .ok),
   (.setAddressWindow 10 20 11 21, .ok)]

/-- R185 asks for nothing where no orientation is required; where one is, P5 came too late for the first window, and its
repair puts the window in force under the required orientation. -/
theorem test_orientation_P5 :
    orientationFirst none runP5 = true ∧ orientationFirst (some .portraitMirrored) runP5 = false ∧
      windowUnderOrientation (some .portraitMirrored) runP5 = true ∧
      windowUnderOrientation (some .portraitMirrored) (runP5.take 4) = false := by decide

/-- R185: the order it asks for; one never issued; one refused before `init`; a refused window counts for nothing; a
reset starts again (R191). -/
theorem test_orientation_first :
    orientationFirst (some .landscape) [(.hardReset, .ok), (.init, .ok), (.setAddressWindow 5 0 4 0, .invalidWindow),
        (.setOrientation .landscape, .ok), (.setAddressWindow 0 0 1 1, .ok)] = true ∧
      orientationFirst (some .landscape) [(.hardReset, .ok), (.init, .ok), (.setAddressWindow 0 0 1 1, .ok)] = false ∧
      orientationFirst (some .landscape) [(.hardReset, .ok), (.setOrientation .landscape, .invalidState), (.init, .ok),
        (.setAddressWindow 0 0 1 1, .ok)] = false ∧
      orientationFirst (some .portraitMirrored) (runP5 ++ [(.hardReset, .ok)]) = true := by decide

/-- 44_host_swapchain.md R141 (A4), R142, R143. -/
theorem test_host :
    swapBack Cfg.default 0 = 1 ∧ swapBack cfg2 0 = 0 ∧
      renderPass ⟨true, false, .portrait, 0⟩ Cfg.default 1 [(1, 0, 0x001F)] [] =
        ([.fbClear 1 0, .fbSetPixelXy 1 1 0 0x001F, .eatFramebuffer 1], 0) ∧
      writesOnlyBack 1 [.fbClear 1 0, .eatFramebuffer 0, .fbClear 0 0] = false := by decide

/-- 70_reset_and_hazards.md R200 with 20_memory.md R60: a 320 x 240 frame takes at least 15.36 ms at 80 MHz. -/
theorem test_frame_time : burstNanos Cfg.default (2 * fbSize Cfg.default) = 15360000 := by decide

/-- The reset store is canonical, and so is a store after a write or a clear. -/
theorem test_memory_wf : Memory.wf State.reset.px ∧ Memory.wf (Memory.write frameP2 2 7) ∧
    Memory.wf (Memory.fill frameP2 1 2 7) := by decide

/-! ## Witnesses: for each statement with hypotheses, data that meet them, clause by clause -/

/-- A block that keeps the invariants, with a command burst behind it and a request before it. -/
def working : State :=
  { blockIn .ready frameP2 with
    win := some ⟨0, 0, 319, 239⟩, ramwrOpen := true, dcOut := .driven .low
    trace := [.pin .dc .low, .tx [0x2C]], pending := [0x050000000000000000] }

/-- The same with data on the wire last. -/
def workingData : State :=
  { working with dcOut := .driven .high, trace := [.pin .dc .low, .tx [0x2C], .pin .dc .high, .tx [0xAB, 0xCD]] }

theorem working_inv : blockInv working :=
  ⟨by decide, ⟨by decide, by decide⟩, ⟨fun w hw => by cases hw; decide, by decide, by decide⟩,
   fun r => by cases r <;> rfl, by unfold traceInv; decide, by unfold haltInv; decide⟩

theorem workingData_inv : blockInv workingData :=
  ⟨by decide, ⟨by decide, by decide⟩, ⟨fun w hw => by cases hw; decide, by decide, by decide⟩,
   fun r => by cases r <;> rfl, by unfold traceInv; decide, by unfold haltInv; decide⟩

/-- An environment that answers nothing else answers Ok (log 2). -/
theorem blockIn_ok (ds : DisplayState) (px : Memory) (n : Nat) :
    pinsOk (blockIn ds px) n ∧ busOk (blockIn ds px) n := ⟨fun _ _ => rfl, fun _ _ => rfl⟩

def haltedBlock : State := { blockIn .ready frameP2 with halted := true }

theorem witness_DecodeOfEncodeIsIdentity : PanelCommands.default.distinct ∧
    (Instr.sendCommand 0x00).wf PanelCommands.default = true ∧ (Instr.fbClear 0xFFFF 0xFFFF).wf PanelCommands.default =
      true := by decide
theorem witness_EncodeOfDecodeIsIdentity :
    decode PanelCommands.default (.descriptor 0x120000000000000000) = .ok (.fbClear 0 0) ∧
      decode PanelCommands.default (.burst [0x1FF]) = .ok (.sendData 0xFF []) := by decide
/-- A property of the nine rows, checked row by row. -/
theorem rows_all (p : Byte × Descriptor × Descriptor → Bool) (h : descriptorRows.all p = true) :
    ∀ row ∈ descriptorRows, p row = true := List.all_eq_true.mp h

theorem witness_MatchAndMaskDecideTheOperation :
    (0x030003000000000000 : Descriptor) &&& 0xFFFFFCFFFFFFFFFFFF = 0x030000000000000000 ∧
      decodeDescriptor 0x030003000000000000 = .ok (.setOrientation .portraitMirrored) ∧
      ∀ row ∈ descriptorRows, (0x030004000000000000 : Descriptor) &&& row.2.2 ≠ row.2.1 :=
  ⟨by decide, by decide, fun row hr => of_decide_eq_true
    (rows_all (fun row => decide ((0x030004000000000000 : Descriptor) &&& row.2.2 ≠ row.2.1)) (by decide) row hr)⟩
theorem witness_IllegalDescriptorHasNoEffect :
    illegalDescriptor 0x070000000000000000 ∧ illegalDescriptor 0x010000000000000001 ∧
      ¬ illegalDescriptor 0x04FFFFFFFFFFFFFFFF ∧ (blockIn .uninitialized []).halted = false := by
  refine ⟨.inl fun row hr => of_decide_eq_true (rows_all (fun row => decide (opField 0x070000000000000000 ≠ row.1))
      (by decide) row hr), .inr ⟨(0x01, 0x010000000000000000, 0xFFFFFFFFFFFFFFFFFF), by decide, by decide, by decide⟩,
    ?_, rfl⟩
  rintro (h | ⟨row, hr, h⟩)
  · exact h (0x04, 0x040000000000000000, 0xFF0000000000000000) (by decide) (by decide)
  · exact of_decide_eq_true (rows_all (fun row => decide (¬ (opField 0x04FFFFFFFFFFFFFFFF = row.1 ∧
      (0x04FFFFFFFFFFFFFFFF : Descriptor) &&& row.2.2 ≠ row.2.1))) (by decide) row hr) h
theorem witness_StepRunsTheDecodedOperation :
    decode working.cfg.cmds (.descriptor 0x050000000000000000) = .ok (.eatFramebuffer 0) ∧
      hostOnly working ∧ working.pending = 0x050000000000000000 :: [] ∧
      decode State.reset.cfg.cmds (tableCode 16 0x1FF) = .ok (.sendData 0xFF []) ∧
      (State.reset.withFetchWord 16 0x1FF).engineCalls = [0x1FF] :: [] ∧ hostOnly State.reset ∧
      State.reset.pending = [] := by
  refine ⟨by decide, rfl, rfl, by decide, by decide, rfl, rfl⟩
theorem witness_HostCannotIssueEngineCalls :
    decodeDescriptor 0x050000000000000000 = .ok (.eatFramebuffer 0) ∧ (Instr.sendCommand 0xB0).opcode = none ∧
      requests cfg2 [.hardReset, .sendCommand 0xB0] = [0x010000000000000000] ∧ hostOnly working ∧
      (∃ t, step working = .next t) ∧ construct cfg2 = .block (State.initial cfg2) ∧
      ∃ t, exec (.sendCommand 0xB0) working = .next t :=
  ⟨by decide, rfl, by decide, rfl, ⟨_, rfl⟩, by decide, ⟨_, rfl⟩⟩
theorem witness_HaltedBlockRefusesEveryDescriptor :
    haltedBlock.halted = true ∧ (∃ t, step haltedBlock = .next t) ∧ construct cfg2 = .block (State.initial cfg2) ∧
      hostOnly { haltedBlock with pending := [0x070000000000000000] } :=
  ⟨rfl, ⟨_, rfl⟩, by decide, rfl⟩
theorem witness_PreconditionErrorChangesNothing :
    after .init (blockIn .ready []) = some { blockIn .ready [] with reply := some .invalidState } ∧
      (∃ t, step { blockIn .ready [] with pending := [0x070000000000000000] } = .next t ∧
        t.reply = some .illegalOperation) ∧
      (∃ t, step { haltedBlock with engineCalls := [[0x02C]] } = .next t ∧ t.reply = some .halted) ∧
      Result.invalidState.isPrecondition = true ∧ Result.illegalOperation.isPrecondition = true ∧
      Result.halted.isPrecondition = true := ⟨by decide, ⟨_, rfl, rfl⟩, ⟨_, rfl, rfl⟩, rfl, rfl, rfl⟩
theorem witness_AcceptanceByDisplayState :
    acceptedIn .init .ready = false ∧ acceptedIn (.setAddressWindow 0 0 0 0) .initialized = true ∧
      after (.setAddressWindow 0 0 0 0) (blockIn .initialized []) ≠ none := by decide
theorem witness_FirstFailingCheckDecides :
    preconditionError (blockIn .reset []) (.setAddressWindow 5 0 4 0) = some .invalidState ∧
      preconditionError (blockIn .ready []) (.setAddressWindow 5 0 4 0) = some .invalidWindow ∧
      preconditionError (blockIn .uninitialized []) (.fbSetPixelXy 1 2 0 0) = some .invalidBuffer ∧
      preconditionError haltedBlock .hardReset = some .halted ∧
      preconditionError (blockIn .ready []) (.setAddressWindow 319 239 319 239) = none := by decide
/-- B6: legality before the display state. -/
theorem witness_FirstFailingCheckDecides_illegal : illegalDescriptor 0x050000000100000000 :=
  .inr ⟨(0x05, 0x050000000000000000, 0xFF0000FFFFFFFFFFFF), by decide, by decide, by decide⟩
theorem witness_EveryReturnHandsOverItsResult : ∃ t, exec .hardReset (blockIn .uninitialized []) = .next t := ⟨_, rfl⟩
theorem witness_TransportErrorStopsTheOperation :
    (after .hardReset { blockIn .ready [] with env := ⟨[.ok, .fail], []⟩ }).map (fun t => (t.reply, t.trace)) =
        some (some .transportPin, [.pin .rst .low, .wait 10, .pinFail .rst .high]) ∧
      (after (.eatFramebuffer 0) { blockIn .ready frameP2 with env := ⟨[], [.fail 8]⟩ }).map (fun t => t.reply) =
        some (some .transportBus) ∧
      Result.transportPin.isTransport = true ∧ Result.transportBus.isTransport = true := by decide
theorem witness_StalledBusNeverReturns :
    preconditionError (blockIn .reset []) .init = none ∧
      1 < (plannedEvents (blockIn .reset []) .init).countP (fun e => (burstOf e).isSome) ∧
      busAnswer { blockIn .reset [] with env := ⟨[], [.ok, .never]⟩ } 1 = .never ∧
      ∃ u, exec .init { blockIn .reset [] with env := ⟨[], [.ok, .never]⟩ } = .fault (.busStalled u) :=
  ⟨by decide, by decide, by decide, ⟨_, rfl⟩⟩
theorem witness_OperationsReturnWhenTheBusAnswers :
    BusAnswer.never ∉ [BusAnswer.ok, .fail 0] ∧ isFramebufferOp (.fbClear 0 0) = true := by decide
theorem witness_HardResetPulsesReset :
    (blockIn .uninitialized []).halted = false ∧ (blockIn .uninitialized []).cfg.rstRole = .present ∧
      pinsOk (blockIn .uninitialized []) 2 ∧ { cfg2 with rstRole := .absent }.rstRole = .absent ∧
      pinAnswer { blockIn .ready [] with env := ⟨[.fail], []⟩ } 0 = .fail ∧
      pinAnswer { blockIn .ready [] with env := ⟨[.ok, .fail], []⟩ } 0 = .ok ∧
      pinAnswer { blockIn .ready [] with env := ⟨[.ok, .fail], []⟩ } 1 = .fail ∧ haltedBlock.halted = true :=
  ⟨rfl, rfl, (blockIn_ok _ _ _).1, rfl, rfl, rfl, rfl, rfl⟩
theorem witness_InitSendsTheBringUpSequence :
    (blockIn .reset []).halted = false ∧ (blockIn .reset []).ds = .reset ∧
      (blockIn .reset []).cfg.dcRole = .present ∧ pinsOk (blockIn .reset []) 4 ∧ busOk (blockIn .reset []) 4 ∧
      ((blockIn .reset []).cfg.initSeq.map fun st => if st.data = [] then 1 else 2).sum = 4 :=
  ⟨rfl, rfl, rfl, (blockIn_ok _ _ _).1, (blockIn_ok _ _ _).2, by decide⟩
theorem witness_SetOrientationSendsOneControlByte :
    (blockIn .initialized []).ds = .initialized ∧ (blockIn .ready []).ds = .ready ∧
      (blockIn .ready []).halted = false ∧ cfg2.dcRole = .present ∧ pinsOk (blockIn .ready []) 2 ∧
      busOk (blockIn .ready []) 2 := ⟨rfl, rfl, rfl, rfl, (blockIn_ok _ _ _).1, (blockIn_ok _ _ _).2⟩
theorem witness_ControlByteFields : cfgWf cfg2 = true ∧ cfgWf { cfg2 with colorBgr := true } = true := by decide
theorem witness_SetAddressWindowOpensMemoryWrite :
    (blockIn .initialized []).halted = false ∧ (319 : Field).toNat < cfg2.panelW ∧ (239 : Field).toNat < cfg2.panelH ∧
      cfg2.dcRole = .present ∧ pinsOk (blockIn .initialized []) 5 ∧ busOk (blockIn .initialized []) 5 :=
  ⟨rfl, by decide, by decide, rfl, (blockIn_ok _ _ _).1, (blockIn_ok _ _ _).2⟩
theorem witness_EatFramebufferSendsTheWholeView :
    (blockIn .ready frameP2).halted = false ∧ (blockIn .ready frameP2).ds = .ready ∧ (0 : Field).toNat < cfg2.nFb ∧
      cfg2.dcRole = .present ∧ pinsOk (blockIn .ready frameP2) 1 ∧ busOk (blockIn .ready frameP2) 1 :=
  ⟨rfl, rfl, by decide, rfl, (blockIn_ok _ _ _).1, (blockIn_ok _ _ _).2⟩
theorem witness_SetBacklightDrivesBl :
    (blockIn .ready []).halted = false ∧ cfg2.blRole = .present ∧ pinAnswer (blockIn .ready []) 0 = .ok ∧
      { cfg2 with blRole := .absent }.blRole = .absent ∧
      pinAnswer { blockIn .ready [] with env := ⟨[.fail], []⟩ } 0 = .fail ∧ haltedBlock.halted = true ∧
      (after .init (blockIn .reset [])).isSome = true := by decide
theorem witness_FbSetPixelXyWritesOneCell :
    (blockIn .ready []).halted = false ∧ (0 : Field).toNat < cfg2.nFb ∧ (1 : Field).toNat < cfg2.fbW ∧
      (1 : Field).toNat < cfg2.fbH ∧ ¬ ((2 : Field).toNat < cfg2.fbW ∧ (0 : Field).toNat < cfg2.fbH) ∧
      cfg2.nFb ≤ (1 : Field).toNat ∧ haltedBlock.halted = true := by decide
theorem witness_FbSetPixelRawWritesOneCell :
    (blockIn .ready []).halted = false ∧ (0 : Field).toNat < cfg2.nFb ∧ (3 : BitVec 32).toNat < cfg2.fbW * cfg2.fbH ∧
      cfg2.fbW * cfg2.fbH ≤ (4 : BitVec 32).toNat ∧ cfg2.nFb ≤ (1 : Field).toNat ∧ haltedBlock.halted = true ∧
      (3 : BitVec 32).toNat = (1 : Field).toNat * cfg2.fbW + (1 : Field).toNat := by decide
theorem witness_FbClearSetsEveryCell :
    (blockIn .ready []).halted = false ∧ (0 : Field).toNat < cfg2.nFb ∧ cfg2.nFb ≤ (1 : Field).toNat ∧
      haltedBlock.halted = true := by decide
theorem witness_FbClearIsItsLoop : Memory.wf (blockIn .ready frameP2).px ∧ Memory.wf State.reset.px := by decide
theorem witness_FramebufferOpsAreIndependentOfTheController :
    isFramebufferOp (.fbSetPixelXy 0 1 1 7) = true ∧ (blockIn .ready frameP2).cfg = (blockIn .reset frameP2).cfg ∧
      (blockIn .ready frameP2).halted = (blockIn .reset frameP2).halted ∧
      (blockIn .ready frameP2).px = (blockIn .reset frameP2).px := by decide
theorem witness_ViewBytesFollowTheSwapFlag :
    readPixel (blockIn .ready frameP2) 0 3 = some 0x0000 ∧ swapOf cfg2 0 = true ∧ swapOf Cfg.default 1 = false ∧
      readPixel { State.reset with px := [(0, 0xABCD)] } 0 0 = some 0xABCD ∧ step State.reset = .next State.reset :=
  ⟨by decide, by decide, by decide, by decide, rfl⟩
/-- Two transfers of a framebuffer whose cells 0 and 2 were never written; `Fail` moves the counter too. -/
theorem witness_UnwrittenPixelsSendFreeBytes :
    readPixel (blockIn .ready [(1, 0xABCD), (3, 0)]) 0 0 = none ∧
      readPixel (blockIn .ready [(1, 0xABCD), (3, 0)]) 0 2 = none ∧
      ((after (.eatFramebuffer 0) (blockIn .ready [(1, 0xABCD), (3, 0)])).bind (after (.eatFramebuffer 0))).map
        (fun t => (t.reply, t.freeCount)) = some (some .ok, 8) ∧
      (after (.eatFramebuffer 0) { blockIn .ready [(1, 0xABCD), (3, 0)] with env := ⟨[], [.fail 0]⟩ }).map
        (fun t => (t.reply, t.freeCount)) = some (some .transportBus, 4) ∧
      (after (.eatFramebuffer 0) (blockIn .reset [(1, 0xABCD), (3, 0)])).map (fun t => (t.reply, t.freeCount)) =
        some (some .invalidState, 0) ∧
      (after (.fbClear 0 0) (blockIn .ready [])).isSome = true := by decide
theorem witness_SameFrameTwiceSendsTheSameBytes :
    (∀ i, i < cfg2.fbW * cfg2.fbH → readPixel (blockIn .ready frameP2) 0 i ≠ none) ∧
      ((after (.eatFramebuffer 0) (blockIn .ready frameP2)).bind (after (.eatFramebuffer 0))).map State.reply =
        some (some .ok) := by decide
theorem witness_SendCommandContract :
    cfg2.dcRole = .present ∧ pinAnswer { blockIn .ready [] with env := ⟨[.fail], []⟩ } 0 = .fail ∧
      pinAnswer (blockIn .ready []) 0 = .ok ∧ busAnswer (blockIn .ready []) 0 = .ok ∧
      busAnswer { blockIn .ready [] with env := ⟨[], [.fail 1]⟩ } 0 = .fail 1 ∧
      busAnswer { blockIn .ready [] with env := ⟨[], [.never]⟩ } 0 = .never := by decide
theorem witness_SendDataContract :
    cfg2.dcRole = .present ∧ 1 ≤ ([0x00] : List Byte).length ∧
      pinAnswer { blockIn .ready [] with env := ⟨[.fail], []⟩ } 0 = .fail ∧ pinAnswer (blockIn .ready []) 0 = .ok ∧
      busAnswer (blockIn .ready []) 0 = .ok ∧ busAnswer { blockIn .ready [] with env := ⟨[], [.fail 0]⟩ } 0 = .fail 0 ∧
      busAnswer { blockIn .ready [] with env := ⟨[], [.never]⟩ } 0 = .never := by decide
theorem witness_EngineCallsSendOneBurst :
    (blockIn .uninitialized []).halted = false ∧ cfg2.dcRole = .present ∧ pinsOk (blockIn .uninitialized []) 1 ∧
      busOk (blockIn .uninitialized []) 1 := ⟨rfl, rfl, (blockIn_ok _ _ _).1, (blockIn_ok _ _ _).2⟩
theorem witness_WindowIsThreePanelCommands :
    cfg2.dcRole = .present ∧ (after (.setAddressWindow 0 0 319 239) (blockIn .initialized [])).map State.reply =
      some (some .ok) := by decide
theorem witness_InitIsItsPanelCommands :
    cfg2.dcRole = .present ∧ (after .init (blockIn .reset [])).map State.reply = some (some .ok) := by decide
theorem witness_RedundantDcDriveIsInvisible : latchAfter .dc [.pin .dc .low, .tx [0x2A]] = .driven .low := by decide
theorem witness_WaitsAddUp : wait 0 (blockIn .reset []) = .done (blockIn .reset []) := rfl
theorem witness_EveryBurstFollowsItsDcDrive :
    blockInv working ∧ working.halted = false ∧ working.trace = [.pin .dc .low] ++ .tx [0x2C] :: [] ∧
      blockInv workingData ∧
      workingData.trace = [.pin .dc .low, .tx [0x2C], .pin .dc .high] ++ .tx [0xAB, 0xCD] :: [] :=
  ⟨working_inv, rfl, rfl, workingData_inv, rfl⟩
theorem witness_DisplayStateMovesByTheTable :
    (after .hardReset (blockIn .ready [])).map (fun t => (t.reply, t.ds)) = some (some .ok, .reset) ∧
      (after .init (blockIn .uninitialized [])).map (fun t => (t.reply, t.ds)) =
        some (some .invalidState, .uninitialized) := by decide
theorem witness_EachPinHasItsOperations :
    (after .hardReset (blockIn .ready [])).isSome = true ∧ (after (.setBacklight false) (blockIn .ready [])).isSome =
      true ∧ (after .init (blockIn .reset [])).isSome = true ∧ isFramebufferOp (.fbClear 0 0) = true := by decide
theorem witness_StepKeepsConfigurationAndHistory :
    (∃ t, step working = .next t) ∧ (∃ t, step haltedBlock = .next t) ∧ isFramebufferOp (.eatFramebuffer 0) = false :=
  ⟨⟨_, rfl⟩, ⟨_, rfl⟩, rfl⟩
theorem witness_StepKeepsBlockInvariant : blockInv working ∧ ∃ t, step working = .next t := ⟨working_inv, ⟨_, rfl⟩⟩
theorem witness_ConstructionGivesTheResetState :
    { cfg2 with dcRole := .absent }.dcRole = .absent ∧ cfgWf cfg2 = true ∧ cfg2.dcRole = .present ∧
      cfgWf { cfg2 with fbW := 0 } = false ∧ cfgWf { cfg2 with fbW := 65536, fbH := 65536 } = false := by decide
/-- Both directions: a Ready block with the memory-write open and last; one whose last command is the orientation. -/
theorem witness_OpenMemoryWriteIsTheLastCommand :
    construct cfg2 = .block (State.initial cfg2) ∧
      blockInv working ∧ hostOnly working ∧ openWriteInv working ∧ working.ramwrOpen = true ∧ working.ds = .ready ∧
      memoryWriteIsLast working ∧ (∃ t, step working = .next t) ∧
      openWriteInv { working with ramwrOpen := false, trace := [.pin .dc .low, .tx [0x36]] } :=
  ⟨by decide, working_inv, rfl, by unfold openWriteInv memoryWriteIsLast; decide, rfl, rfl,
   by unfold memoryWriteIsLast; decide, ⟨_, rfl⟩, by unfold openWriteInv memoryWriteIsLast; decide⟩

end Sys2Proof.Tests
end

section
/-! Proofs of the statements about the display state, the redundant DC drive and the open memory-write
(10_state.md). -/

namespace Sys2Proof.Machine
open Sys2Proof.Stated

/-! ## What the phases of an operation leave alone -/

@[simp] theorem prepare_ds (i : Instr) (s : State) : (prepare i s).ds = s.ds := by rw [prepare_frame]
@[simp] theorem prepare_halted (i : Instr) (s : State) : (prepare i s).halted = s.halted := by rw [prepare_frame]
@[simp] theorem prepare_ramwrOpen (i : Instr) (s : State) : (prepare i s).ramwrOpen = s.ramwrOpen := by
  rw [prepare_frame]
@[simp] theorem prepare_trace (i : Instr) (s : State) : (prepare i s).trace = s.trace := by rw [prepare_frame]

@[simp] theorem commitOf_halted (i : Instr) (s : State) : (commitOf i s).halted = s.halted := by rw [commitOf_frame]
@[simp] theorem commitOf_trace (i : Instr) (s : State) : (commitOf i s).trace = s.trace := by rw [commitOf_frame]

/-! ## The display state (10_state.md R21) -/

theorem acceptedIn_of_preconditionError {i : Instr} {s : State} (h : preconditionError s i = none) :
    acceptedIn i s.ds = true := by
  unfold preconditionError at h
  split at h
  · cases h
  · split at h
    · cases h
    · next hacc => exact Bool.not_eq_false _ ▸ hacc

theorem commitOf_ds (i : Instr) (s : State) : (commitOf i s).ds = dsAfter i s.ds := by cases i <;> rfl

/-- The rows of the table in which `ds` moves: `hard_reset` from anywhere, `init` from Reset, a window from Initialized
or Ready. -/
theorem dsAfter_cases {i : Instr} {ds : DisplayState} (h : acceptedIn i ds = true) :
    dsAfter i ds = ds ∨ (i = .hardReset ∧ dsAfter i ds = .reset) ∨
      (ds = .reset ∧ dsAfter i ds = .initialized) ∨
      ((ds = .initialized ∨ ds = .ready) ∧ dsAfter i ds = .ready) := by
  cases i with
  | hardReset => exact .inr (.inl ⟨rfl, rfl⟩)
  | init => exact .inr (.inr (.inl ⟨by simpa [acceptedIn] using h, rfl⟩))
  | setAddressWindow x0 y0 x1 y1 => exact .inr (.inr (.inr ⟨by simpa [acceptedIn] using h, rfl⟩))
  | _ => exact .inl rfl

/-- What an instruction does to `ds`: the table's value on `Ok`, and nothing otherwise. -/
theorem exec_ds {i : Instr} {s t : State} (h : exec i s = .next t) :
    (t.reply = some .ok ∧ acceptedIn i s.ds = true ∧ t.ds = dsAfter i s.ds) ∨
      (t.reply ≠ some .ok ∧ t.ds = s.ds) := by
  rcases exec_next h with ⟨r, hpre, rfl⟩ | ⟨hpre, u, hf, -, -, -, rfl⟩ |
    ⟨-, u, r, n, e, f, hf, -, hfail, -, -, rfl⟩
  · refine .inr ⟨fun hr => preconditionError_ne_ok i s ?_, rfl⟩
    rw [hpre, ← hr, returns_reply]
  · refine .inl ⟨rfl, acceptedIn_of_preconditionError hpre, ?_⟩
    rw [returns_ds, commitOf_ds, hf.ds, prepare_ds]
  · refine .inr ⟨fun hr => ?_, hf.ds.trans (prepare_ds i s)⟩
    obtain rfl : r = .ok := Option.some.inj hr
    exact Bool.false_ne_true (failsAs_isTransport hfail)

/-- Settles O37: an operation that returns `Ok` moves `ds` along a row of the table, any other leaves it. -/
theorem displayStateMovesByTheTable : Obligations.DisplayStateMovesByTheTable := by
  intro i s t h
  rcases exec_ds h with ⟨hr, hacc, hds⟩ | ⟨hr, hds⟩
  · refine ⟨fun _ => ⟨hacc, hds⟩, fun hne => absurd hr hne, ?_⟩
    rw [hds]
    rcases dsAfter_cases hacc with hd | ⟨hi, hd⟩ | ⟨hs, hd⟩ | ⟨hs | hs, hd⟩ <;> rw [hd]
    · simp
    · simp [hi, dsNumber]
    · simp [hs, dsNumber]
    · simp [hs, dsNumber]
    · simp [hs, dsNumber]
  · simp [hr, hds]

/-! ## The redundant drive of DC (10_state.md R29) -/

/-- A drive of DC to the level it has adds no item and leaves the latch. -/
theorem wireItems_dc_redundant (cfg : Cfg) (rst bl : Latch) (l : Level) (es : List Event) :
    wireItems cfg rst (.driven l) bl (.pin .dc l :: es) = wireItems cfg rst (.driven l) bl es := by
  rw [wireItems]

/-- Settles O34: the latches after `before` are the same with and without the drive, so the items that follow are. -/
theorem redundantDcDriveIsInvisible : Obligations.RedundantDcDriveIsInvisible := by
  intro cfg before after l hl
  refine wireItems_congr_tail cfg _ _ _ before ?_
  rw [show before.foldl (latchStep .dc) .unknown = .driven l from hl]
  exact wireItems_dc_redundant cfg _ _ l after

/-! ## The last command an operation sends (10_state.md R30) -/

theorem lastCommand_append (ys zs : List Symbol) :
    lastCommand (ys ++ zs) = (lastCommand zs).or (lastCommand ys) := by
  simp [lastCommand, List.getLast?_append]

@[simp] theorem lastCommand_nil : lastCommand [] = none := rfl

@[simp] theorem lastCommand_command (c : Byte) : lastCommand [commandSymbol c] = some c :=
  lastCommand_append_command [] c

@[simp] theorem lastCommand_data (bs : List Byte) : lastCommand (bs.map dataSymbol) = none :=
  lastCommand_append_data [] _ (by simp)

/-- `send_command` puts its symbol on the wire, whatever DC was before. -/
theorem symbolsFrom_commandEvents {cfg : Cfg} (h : cfg.dcRole = .present) (dc : Latch) (c : Byte) :
    symbolsFrom cfg dc (commandEvents cfg c) = [commandSymbol c] := by
  simp [commandEvents_present h, symbolsFrom, latchStep, kindOf_command, symbolsOf]

/-- `send_data` puts the symbols of its bytes on the wire, whatever DC was before. -/
theorem symbolsFrom_dataEvents {cfg : Cfg} (h : cfg.dcRole = .present) (dc : Latch) (bs : List Byte) :
    symbolsFrom cfg dc (dataEvents cfg bs) = bs.map dataSymbol := by
  simp [dataEvents_present h, symbolsFrom, latchStep, kindOf_data, symbolsOf]

@[simp] theorem symbolsFrom_driveEvents (cfg : Cfg) (dc : Latch) (r : PinRole) (l : Level) :
    symbolsFrom cfg dc (driveEvents cfg r l) = [] := by
  unfold driveEvents
  split <;> rfl

@[simp] theorem symbolsFrom_waitEvents (cfg : Cfg) (dc : Latch) (t : Nat) :
    symbolsFrom cfg dc (waitEvents t) = [] := by
  unfold waitEvents
  split <;> rfl

/-- A step of the bring-up sequence puts its command and its data on the wire (41_controller.md R111). -/
theorem symbolsFrom_initStepEvents {cfg : Cfg} (h : cfg.dcRole = .present) (dc : Latch) (st : InitStep) :
    symbolsFrom cfg dc (initStepEvents cfg st) = [commandSymbol st.cmd] ++ st.data.map dataSymbol := by
  unfold initStepEvents
  split
  · next hd => simp [symbolsFrom_append, symbolsFrom_commandEvents h, hd]
  · simp [symbolsFrom_append, symbolsFrom_commandEvents h, symbolsFrom_dataEvents h]

/-- The last command of a bring-up sequence is the command of its last step. -/
theorem lastCommand_initSeq {cfg : Cfg} (h : cfg.dcRole = .present) (dc : Latch) (seq : List InitStep) :
    lastCommand (symbolsFrom cfg dc (seq.flatMap (initStepEvents cfg))) = seq.getLast?.map InitStep.cmd := by
  induction seq generalizing dc with
  | nil => rfl
  | cons st seq ih =>
    rw [List.flatMap_cons, symbolsFrom_append, lastCommand_append, ih, symbolsFrom_initStepEvents h,
      lastCommand_append]
    cases seq <;> simp [List.getLast?_cons]

/-- The last command symbol an operation sends where it succeeds. -/
def lastCommandSent (cfg : Cfg) : Instr → Option Byte
  | .init => cfg.initSeq.getLast?.map InitStep.cmd
  | .setOrientation _ => some cfg.cmds.madctl
  | .setAddressWindow _ _ _ _ => some cfg.cmds.ramwr
  | .sendCommand c => some c
  | .wireSlpout => some cfg.cmds.slpout
  | .wireColmod => some cfg.cmds.colmod
  | .wireDispon => some cfg.cmds.dispon
  | .wireMadctl => some cfg.cmds.madctl
  | .wireCaset => some cfg.cmds.caset
  | .wireRaset => some cfg.cmds.raset
  | .wireRamwr => some cfg.cmds.ramwr
  | .hardReset => none
  | .eatFramebuffer _ => none
  | .setBacklight _ => none
  | .fbSetPixelXy _ _ _ _ => none
  | .fbSetPixelRaw _ _ _ => none
  | .fbClear _ _ => none
  | .sendData _ _ => none

theorem lastCommand_plannedEvents {s : State} (h : s.cfg.dcRole = .present) (dc : Latch) (i : Instr) :
    lastCommand (symbolsFrom s.cfg dc (plannedEvents s i)) = lastCommandSent s.cfg i := by
  cases i with
  | init => exact lastCommand_initSeq h dc _
  | setOrientation | setAddressWindow =>
    simp only [plannedEvents, symbolsFrom_append, lastCommand_append, symbolsFrom_commandEvents h,
      symbolsFrom_dataEvents h, lastCommand_command, lastCommand_data]
    rfl
  | hardReset => simp [plannedEvents, symbolsFrom_append, lastCommandSent]
  | setBacklight => simp [plannedEvents, lastCommandSent]
  | fbSetPixelXy | fbSetPixelRaw | fbClear => rfl
  | eatFramebuffer | sendData => exact (congrArg lastCommand (symbolsFrom_dataEvents h dc _)).trans (lastCommand_data _)
  | _ => exact (congrArg lastCommand (symbolsFrom_commandEvents h dc _)).trans (lastCommand_command _)

/-! ## The open memory-write (10_state.md R30, 70_reset_and_hazards.md R187) -/

/-- A descriptor is never read as an engine call (30_encoding.md R72). -/
theorem opcode_isSome_of_decodeDescriptor {d : Descriptor} {i : Instr} (h : decodeDescriptor d = .ok i) :
    i.opcode.isSome = true := by
  unfold decodeDescriptor at h
  dsimp only at h
  repeat' split at h
  all_goals cases h <;> rfl

theorem construct_block {cfg : Cfg} {s : State} (h : construct cfg = .block s) : s = State.initial cfg := by
  unfold construct at h
  repeat' split at h
  all_goals cases h <;> rfl

/-- What the commands on the wire need of a well-formed configuration. -/
theorem cfgWf_commands {cfg : Cfg} (h : cfgWf cfg = true) :
    cfg.dcRole = .present ∧ cfg.cmds.distinct ∧ initSeqWf cfg = true := by
  simp only [cfgWf, Bool.and_eq_true, decide_eq_true_eq] at h
  obtain ⟨⟨⟨⟨⟨hdc, -⟩, -⟩, hdistinct⟩, -⟩, hseq⟩ := h
  exact ⟨hdc, hdistinct, hseq⟩

/-- A well-formed bring-up sequence ends with display-on (30_encoding.md R83). -/
theorem getLast?_initSeq {cfg : Cfg} (h : initSeqWf cfg = true) :
    cfg.initSeq.getLast?.map InitStep.cmd = some cfg.cmds.dispon := by
  unfold initSeqWf at h
  split at h
  · next first second rest hseq =>
    cases hlast : rest.getLast? with
    | none => simp [hlast] at h
    | some last =>
      simp only [hlast, bareStep, Bool.and_eq_true, decide_eq_true_eq] at h
      obtain ⟨⟨-, hcmd, -⟩, -⟩ := h
      simp [hseq, List.getLast?_cons, hlast, hcmd]
  · cases h

theorem ramwr_ne_of_distinct {cmds : PanelCommands} (h : cmds.distinct) :
    cmds.madctl ≠ cmds.ramwr ∧ cmds.dispon ≠ cmds.ramwr := by
  simp only [PanelCommands.distinct, PanelCommands.bytes, List.nodup_cons, List.mem_cons, not_or] at h
  tauto

/-- What a host operation that succeeds does to an open memory-write: it sends no command and leaves it; or it closes
it, going to Reset or sending another command last; or it opens it, sending the memory-write last. -/
theorem commitOf_openWrite {cfg : Cfg} (hcfg : cfgWf cfg = true) {i : Instr} (hi : i.opcode.isSome = true)
    (u : State) :
    (lastCommandSent cfg i = none ∧ (commitOf i u).ramwrOpen = u.ramwrOpen ∧ (commitOf i u).ds = u.ds) ∨
    ((commitOf i u).ramwrOpen = false ∧
      ((commitOf i u).ds = .reset ∨ ∃ c, lastCommandSent cfg i = some c ∧ c ≠ cfg.cmds.ramwr)) ∨
    (lastCommandSent cfg i = some cfg.cmds.ramwr ∧ (commitOf i u).ramwrOpen = true) := by
  obtain ⟨-, hdistinct, hseq⟩ := cfgWf_commands hcfg
  obtain ⟨hmadctl, hdispon⟩ := ramwr_ne_of_distinct hdistinct
  cases i with
  | hardReset => exact .inr (.inl ⟨rfl, .inl rfl⟩)
  | init => exact .inr (.inl ⟨rfl, .inr ⟨_, getLast?_initSeq hseq, hdispon⟩⟩)
  | setOrientation => exact .inr (.inl ⟨rfl, .inr ⟨_, rfl, hmadctl⟩⟩)
  | setAddressWindow => exact .inr (.inr ⟨rfl, rfl⟩)
  | eatFramebuffer | setBacklight | fbSetPixelXy | fbSetPixelRaw | fbClear => exact .inl ⟨rfl, rfl, rfl⟩
  | _ => cases hi

/-- After a whole event list, the last command on the wire is the last one sent, or the one before where none was. -/
theorem lastCommand_of_plannedEvents {s : State} (h : s.cfg.dcRole = .present) (i : Instr) :
    lastCommand (wireSymbols s.cfg (s.trace ++ plannedEvents s i)) =
      (lastCommandSent s.cfg i).or (lastCommand (wireSymbols s.cfg s.trace)) := by
  rw [wireSymbols_append, lastCommand_append, lastCommand_plannedEvents h]

/-- The invariant reads five fields alone. -/
theorem openWriteInv_congr {s t : State} (hhalted : t.halted = s.halted) (hds : t.ds = s.ds)
    (hopen : t.ramwrOpen = s.ramwrOpen) (hlast : memoryWriteIsLast t ↔ memoryWriteIsLast s) (h : openWriteInv s) :
    openWriteInv t := by
  unfold openWriteInv
  rw [hhalted, hds, hopen, hlast]
  exact h

theorem exec_keeps_openWriteInv {i : Instr} {s t : State} (hcfg : cfgWf s.cfg = true)
    (hi : i.opcode.isSome = true) (hinv : openWriteInv s) (h : exec i s = .next t) : openWriteInv t := by
  have htcfg : t.cfg = s.cfg := (exec_frame h).1
  rcases exec_next h with ⟨r, -, rfl⟩ | ⟨-, u, hf, htr, -, -, rfl⟩ | ⟨-, u, r, n, e, f, -, -, -, -, -, rfl⟩
  · exact hinv
  · have hlast : memoryWriteIsLast (returns .ok (commitOf i u)) ↔
        (lastCommandSent s.cfg i).or (lastCommand (wireSymbols s.cfg s.trace)) = some s.cfg.cmds.ramwr := by
      rw [memoryWriteIsLast, htcfg, ← lastCommand_of_plannedEvents (cfgWf_commands hcfg).1, returns_trace,
        commitOf_trace, htr, prepare_trace]
    rcases commitOf_openWrite hcfg hi u with ⟨hsent, hopen, hds⟩ | ⟨hclosed, hwhy⟩ | ⟨hsent, hopen⟩
    · refine openWriteInv_congr (by simp [hf.halted]) (by simp [hds, hf.ds]) (by simp [hopen, hf.ramwrOpen]) ?_ hinv
      rw [hlast, hsent, Option.none_or, memoryWriteIsLast]
    · refine fun _ => ⟨by simp [hclosed], fun hds hl => ?_⟩
      rcases hwhy with hreset | ⟨c, hsent, hne⟩
      · simp [hreset] at hds
      · simp [hlast, hsent, hne] at hl
    · exact fun _ => ⟨fun _ => by simp [hlast, hsent], fun _ _ => hopen⟩
  · exact fun hh => by simp at hh

/-- While the host alone issues operations, what runs next is the host's descriptor. -/
theorem fetch_hostOnly {s u : State} {c : Code} (hhost : hostOnly s) (h : fetch s = some (c, u)) :
    ∃ d rest, c = .descriptor d ∧ u = { s with pending := rest } := by
  rcases fetch_cases h with ⟨d, rest, hc, -, -, hu⟩ | ⟨symbols, rest, -, hcalls, -⟩
  · exact ⟨d, rest, hc, hu⟩
  · cases hhost.symm.trans hcalls

theorem step_keeps_openWriteInv {s t : State} (hcfg : cfgWf s.cfg = true) (hhost : hostOnly s)
    (hinv : openWriteInv s) (h : step s = .next t) : openWriteInv t := by
  rcases step_next h with ⟨-, rfl⟩ | ⟨c, u, i, hfetch, hdec, hexec⟩ | ⟨c, u, e, hfetch, -, rfl⟩
  · exact hinv
  · obtain ⟨d, rest, rfl, rfl⟩ := fetch_hostOnly hhost hfetch
    have hi := opcode_isSome_of_decodeDescriptor hdec
    exact exec_keeps_openWriteInv (s := { s with pending := rest }) hcfg hi hinv hexec
  · obtain ⟨d, rest, -, rfl⟩ := fetch_hostOnly hhost hfetch
    exact hinv

theorem initial_openWriteInv (cfg : Cfg) : openWriteInv (State.initial cfg) := by
  simp [openWriteInv, State.initial]

/-- Settles O43: the reset state has sent nothing, and each host operation keeps the relation by what it sends last. -/
theorem openMemoryWriteIsTheLastCommand : Obligations.OpenMemoryWriteIsTheLastCommand := by
  refine ⟨fun cfg s h => ?_, fun s t hblock hhost hinv h => ?_⟩
  · obtain rfl := construct_block h
    exact ⟨rfl, initial_openWriteInv cfg⟩
  · exact ⟨step_engineCalls h hhost, step_keeps_openWriteInv hblock.cfg hhost hinv h⟩

end Sys2Proof.Machine
end

section
/-! Proofs of the statements about the view of a framebuffer and the free bytes of its unwritten cells
(20_memory.md R52 to R55). -/

namespace Sys2Proof.Machine
open Sys2Proof.Stated

/-! ## What the phases of an operation do to the store and to the count of free bytes -/

@[simp] theorem prepare_cfg (i : Instr) (s : State) : (prepare i s).cfg = s.cfg := by rw [prepare_frame]

@[simp] theorem commitOf_freeCount (i : Instr) (s : State) : (commitOf i s).freeCount = s.freeCount := by
  rw [commitOf_frame]

/-- Only a transfer draws free bytes. -/
theorem prepare_freeCount {i : Instr} (h : ∀ k, i ≠ .eatFramebuffer k) (s : State) :
    (prepare i s).freeCount = s.freeCount := by
  cases i with
  | eatFramebuffer k => exact absurd rfl (h k)
  | _ => rfl

theorem rangeError_isPrecondition {cfg : Cfg} {i : Instr} {r : Result} (h : rangeError cfg i = some r) :
    r.isPrecondition = true := by
  cases i with
  | setAddressWindow | fbSetPixelXy | fbSetPixelRaw =>
    obtain ⟨-, hr⟩ := Option.ite_none_left_eq_some.mp h
    exact Option.some.inj hr ▸ rfl
  | _ => cases h

/-- Every check raises a precondition error (60_exceptions.md R159). -/
theorem preconditionError_isPrecondition {i : Instr} {s : State} {r : Result} (h : preconditionError s i = some r) :
    r.isPrecondition = true := by
  unfold preconditionError at h
  split at h
  · cases h; rfl
  · split at h
    · cases h; rfl
    · split at h
      · split at h
        · cases h; rfl
        · exact rangeError_isPrecondition h
      · exact rangeError_isPrecondition h

theorem Result.isTransport_iff {r : Result} : r.isTransport = true ↔ r = .transportPin ∨ r = .transportBus := by
  cases r <;> simp [Result.isTransport]

/-- An operation that answers has failed a check and drawn nothing, or has passed its checks, drawn what it draws, and
returned `Ok` or a transport error. -/
theorem exec_freeCount {i : Instr} {s t : State} (h : exec i s = .next t) :
    ∃ r, t.reply = some r ∧ ((r.isPrecondition = true ∧ t.freeCount = s.freeCount) ∨
      ((r = .ok ∨ r = .transportPin ∨ r = .transportBus) ∧ t.freeCount = (prepare i s).freeCount)) := by
  rcases exec_next h with ⟨r, hpre, rfl⟩ | ⟨-, u, hf, -, -, -, rfl⟩ | ⟨-, u, r, n, e, f, hf, -, hfail, -, -, rfl⟩
  · exact ⟨r, rfl, .inl ⟨preconditionError_isPrecondition hpre, rfl⟩⟩
  · refine ⟨.ok, rfl, .inr ⟨.inl rfl, ?_⟩⟩
    rw [returns_freeCount, commitOf_freeCount, hf.freeCount]
  · exact ⟨r, rfl, .inr ⟨.inr (Result.isTransport_iff.mp (failsAs_isTransport hfail)), hf.freeCount⟩⟩

/-- An operation that returns `Ok` has performed its whole event list and its commit. -/
theorem exec_next_ok {i : Instr} {s t : State} (h : exec i s = .next t) (hr : t.reply = some .ok) :
    ∃ u, ActionFrame (prepare i s) u ∧ u.trace = s.trace ++ plannedEvents s i ∧ t = returns .ok (commitOf i u) := by
  rcases exec_next h with ⟨r, hpre, rfl⟩ | ⟨-, u, hf, htr, -, -, ht⟩ | ⟨-, u, r, n, e, f, -, -, hfail, -, -, rfl⟩
  · obtain rfl : r = .ok := Option.some.inj hr
    exact absurd hpre (preconditionError_ne_ok i s)
  · exact ⟨u, hf, htr.trans (by rw [prepare_trace]), ht⟩
  · obtain rfl : r = .ok := Option.some.inj hr
    exact absurd (failsAs_isTransport hfail) Bool.false_ne_true

/-! ## A transfer that returns `Ok` (41_controller.md R114) -/

/-- It sends the view last, leaves the store, and counts the free bytes of the view as drawn. -/
theorem eatFramebuffer_ok {k : Field} {s t : State} (h : exec (.eatFramebuffer k) s = .next t)
    (hr : t.reply = some .ok) :
    t.trace.getLast? = some (.tx (view s k.toNat).1) ∧ t.cfg = s.cfg ∧ t.px = s.px ∧
      t.freeCount = (view s k.toNat).2 := by
  obtain ⟨u, hf, htr, rfl⟩ := exec_next_ok h hr
  refine ⟨?_, hf.cfg, hf.px, hf.freeCount⟩
  have hlast : (plannedEvents s (.eatFramebuffer k)).getLast? = some (.tx (view s k.toNat).1) :=
    List.getLast?_concat
  rw [returns_trace, commitOf_trace, htr, List.getLast?_append, hlast, Option.some_or]

/-! ## The bytes of the view (20_memory.md R52, R54) -/

/-- The configuration is constant (10_state.md R20). -/
theorem step_cfg {s t : State} (h : step s = .next t) : t.cfg = s.cfg := by
  rcases step_next h with ⟨-, rfl⟩ | ⟨c, u, i, hfetch, -, hexec⟩ | ⟨c, u, e, hfetch, -, rfl⟩
  · rfl
  · rw [(exec_frame hexec).1, fetch_frame hfetch]
  · rw [returns_cfg, fetch_frame hfetch]

theorem view_written {s : State} {k i : Nat} {v : Pixel} (hi : i < fbSize s.cfg) (h : readPixel s k i = some v) :
    (view s k).1[2 * i]? = (pixelBytes (swapOf s.cfg k) v)[0]? ∧
      (view s k).1[2 * i + 1]? = (pixelBytes (swapOf s.cfg k) v)[1]? :=
  viewFrom_getElem? _ _ _ _ _ (by rw [cellsOf_getElem? s k hi, h])

/-- Settles O27: the two bytes of a written cell are those of `pixelBytes`, and the configuration is constant. -/
theorem viewBytesFollowTheSwapFlag : Obligations.ViewBytesFollowTheSwapFlag := by
  refine ⟨fun s k i v hi h => ?_, fun s t h => by rw [step_cfg h], by decide, by decide⟩
  obtain ⟨hfirst, hsecond⟩ := view_written hi h
  rw [hfirst, hsecond]
  exact ⟨fun hswap => by rw [hswap]; exact ⟨rfl, rfl⟩, fun hswap => by rw [hswap]; exact ⟨rfl, rfl⟩⟩

/-- A fully written framebuffer has the same view in every state with the same configuration and store, whatever the
count of free bytes is. -/
theorem view_congr_of_written {s t : State} {k : Nat} (hcfg : t.cfg = s.cfg) (hpx : t.px = s.px)
    (h : ∀ i, i < fbSize s.cfg → readPixel s k i ≠ none) : (view t k).1 = (view s k).1 := by
  have hcells : none ∉ cellsOf s k := by simpa [cellsOf] using h
  rw [view, cellsOf_congr hcfg hpx, hcfg]
  exact viewFrom_written _ _ _ _ hcells

/-- Settles O28: the first transfer leaves the store, so the second sends the same view. -/
theorem sameFrameTwiceSendsTheSameBytes : Obligations.SameFrameTwiceSendsTheSameBytes := by
  intro s t u k hwritten ht htok hu huok
  obtain ⟨htsent, htcfg, htpx, -⟩ := eatFramebuffer_ok ht htok
  obtain ⟨husent, -, hupx, -⟩ := eatFramebuffer_ok hu huok
  rw [view_congr_of_written htcfg htpx hwritten] at husent
  exact ⟨hupx.trans htpx, _, htsent, husent⟩

/-! ## The free bytes of the view (20_memory.md R55) -/

/-- The count of `Unknown` cells, over the cells of the framebuffer. -/
theorem unwritten_eq (s : State) (k : Nat) {n : Nat} (hn : n ≤ fbSize s.cfg) :
    unwritten s k n = ((cellsOf s k).take n).countP Option.isNone := by
  rw [cellsOf, ← List.map_take, List.take_range, Nat.min_eq_left hn, List.countP_map, unwritten]
  refine List.countP_congr fun j _ => ?_
  simp

theorem view_unwritten {s : State} {k i : Nat} (hi : i < fbSize s.cfg) (h : readPixel s k i = none) :
    (view s k).1[2 * i]? = some (Config.freeByte (s.freeCount + 2 * unwritten s k i)) ∧
      (view s k).1[2 * i + 1]? = some (Config.freeByte (s.freeCount + 2 * unwritten s k i + 1)) := by
  rw [unwritten_eq s k hi.le]
  exact viewFrom_unwritten _ _ _ _ (by rw [cellsOf_getElem? s k hi, h])

theorem view_freeCount (s : State) (k : Nat) : (view s k).2 = s.freeCount + 2 * unwritten s k (fbSize s.cfg) := by
  rw [unwritten_eq s k le_rfl, ← cellsOf_length s k, List.take_length]
  exact viewFrom_count _ _ _

/-- An `Unknown` cell is counted past itself. -/
theorem unwritten_lt {s : State} {k i n : Nat} (hi : i < n) (h : readPixel s k i = none) :
    unwritten s k i < unwritten s k n := by
  have hsucc : unwritten s k (i + 1) = unwritten s k i + 1 := by simp [unwritten, List.range_succ, h]
  have hmono : unwritten s k (i + 1) ≤ unwritten s k n := (List.range_sublist.mpr hi).countP_le
  omega

/-- What a transfer draws is told by what it returns: all of the view once its checks passed, nothing before. -/
theorem eatFramebuffer_freeCount {k : Field} {s t : State} (h : exec (.eatFramebuffer k) s = .next t) :
    (t.reply = some .ok ∨ t.reply = some .transportPin ∨ t.reply = some .transportBus →
      t.freeCount = s.freeCount + 2 * unwritten s k.toNat (fbSize s.cfg)) ∧
    (t.reply ≠ some .ok → t.reply ≠ some .transportPin → t.reply ≠ some .transportBus →
      t.freeCount = s.freeCount) := by
  obtain ⟨r, hr, ⟨hclass, hcount⟩ | ⟨hclass, hcount⟩⟩ := exec_freeCount h
  · refine ⟨fun hreply => ?_, fun _ _ _ => hcount⟩
    simp only [hr, Option.some.injEq] at hreply
    rcases hreply with rfl | rfl | rfl <;> cases hclass
  · refine ⟨fun _ => hcount.trans (view_freeCount s k.toNat), fun hok hpin hbus => ?_⟩
    rcases hclass with rfl | rfl | rfl
    · exact absurd hr hok
    · exact absurd hr hpin
    · exact absurd hr hbus

/-- Settles O45: a view draws two free bytes for each `Unknown` cell in its order, and a transfer counts them all as
drawn, so that the next one begins behind them. -/
theorem unwrittenPixelsSendFreeBytes : Obligations.UnwrittenPixelsSendFreeBytes := by
  refine ⟨fun s k i hi h => view_unwritten hi h, view_freeCount, fun i s t hi h => ?_, fun s t k h => ?_, ?_⟩
  · obtain ⟨r, -, ⟨-, hcount⟩ | ⟨-, hcount⟩⟩ := exec_freeCount h
    · exact hcount
    · exact hcount.trans (prepare_freeCount hi s)
  · exact eatFramebuffer_freeCount h
  · intro s t u k i j ht htok hi hj hsi htj hu huok
    obtain ⟨htsent, htcfg, -, htcount⟩ := eatFramebuffer_ok ht htok
    obtain ⟨husent, -, -, -⟩ := eatFramebuffer_ok hu huok
    obtain ⟨hfirst, hfirst'⟩ := view_unwritten hi hsi
    obtain ⟨hsecond, hsecond'⟩ := view_unwritten (htcfg ▸ hj) htj
    refine ⟨_, _, _, _, htsent, husent, hfirst, hfirst', hsecond, hsecond', ?_⟩
    have hlt : unwritten s k.toNat i < unwritten s k.toNat (fbSize s.cfg) := unwritten_lt hi hsi
    rw [htcount, view_freeCount]
    omega

end Sys2Proof.Machine
end

section
/-! Proofs of the statements about descriptors, the step's decoding, the engine's calls and the control byte
(30_encoding.md). -/

namespace Sys2Proof.Machine
open Sys2Proof.Stated

/-! ## The descriptors and the nine host operations (30_encoding.md R72 to R76) -/

theorem orientationOf_eq_some_iff {a : Field} {m : Orientation} : orientationOf a = some m ↔ orientationCode m = a :=
  ⟨orientationOf_some, fun h => h ▸ orientationOf_code m⟩

theorem onOf_eq_some_iff {a : Field} {on : Bool} : onOf a = some on ↔ onCode on = a :=
  ⟨onOf_some, fun h => h ▸ onOf_code on⟩

@[simp] theorem orientationCode_and_zeroBits (m : Orientation) : orientationCode m &&& 0xFFFC#16 = 0#16 :=
  (orientationOf_isSome _).mp ⟨m, orientationOf_code m⟩

@[simp] theorem onCode_and_zeroBits (on : Bool) : onCode on &&& 0xFFFE#16 = 0#16 :=
  (onOf_isSome _).mp ⟨on, onOf_code on⟩

/-- The operands and the zero fields of a decoded operation are the descriptor's fields, so nothing of it is lost. -/
theorem encode_of_decodeDescriptor (cmds : PanelCommands) {i : Instr} {d : Descriptor}
    (h : decodeDescriptor d = .ok i) : encode cmds i = .descriptor d := by
  obtain ⟨op, a0, a1, a2, a3, rfl⟩ : ∃ op a0 a1 a2 a3, d = packDescriptor op a0 a1 a2 a3 :=
    ⟨_, _, _, _, _, (pack_fields d).symm⟩
  simp only [decodeDescriptor, opField_pack, a0Field_pack, a1Field_pack, a2Field_pack, a3Field_pack] at h
  repeat' split at h
  all_goals cases h <;>
    simp_all [encode, orientationOf_eq_some_iff, onOf_eq_some_iff, append_high, append_low]

/-- Decoding reads back the operation that was encoded. -/
theorem decodeDescriptor_of_encode {cmds : PanelCommands} {i : Instr} {d : Descriptor}
    (h : encode cmds i = .descriptor d) : decodeDescriptor d = .ok i := by
  cases i with
  | sendCommand | sendData | wireSlpout | wireColmod | wireDispon | wireMadctl | wireCaset | wireRaset | wireRamwr =>
    cases h
  | _ =>
    obtain rfl := Code.descriptor.inj h
    simp [decodeDescriptor, offset_halves]

/-- A descriptor is rejected for one of the two reasons of 30_encoding.md R77. -/
theorem decodeDescriptor_error {d : Descriptor} {e : DecodeError} (h : decodeDescriptor d = .error e) :
    e = .unknownOpcode ∨ e = .mustBeZero := by
  unfold decodeDescriptor at h
  dsimp only at h
  repeat' split at h
  all_goals cases h <;> simp

/-! ## Match and mask (30_encoding.md R91) -/

/-- The match and mask of a row fix the opcode. -/
theorem opField_of_match {row : Byte × Descriptor × Descriptor} (hrow : row ∈ descriptorRows) {d : Descriptor}
    (h : d &&& row.2.2 = row.2.1) : opField d = row.1 := by
  rw [descriptorRows_eq] at hrow
  simp only [List.mem_cons, List.not_mem_nil, or_false] at hrow
  rcases hrow with rfl | rfl | rfl | rfl | rfl | rfl | rfl | rfl | rfl <;> exact ((row_match d _ _ _ _ _).mp h).1

/-- "The nine match sets are disjoint because the opcodes differ" (30_encoding.md R91). -/
theorem descriptorRows_eq_of_opcode_eq {row other : Byte × Descriptor × Descriptor} (hrow : row ∈ descriptorRows)
    (hother : other ∈ descriptorRows) (h : row.1 = other.1) : row = other :=
  List.inj_on_of_nodup_map (by decide : (descriptorRows.map Prod.fst).Nodup) hrow hother h

/-- A descriptor in the match set of a row encodes the row's operation with its fields as operands. -/
theorem exists_encode_of_match (cmds : PanelCommands) {row : Byte × Descriptor × Descriptor}
    (hrow : row ∈ descriptorRows) {d : Descriptor} (h : d &&& row.2.2 = row.2.1) :
    ∃ i, encode cmds i = .descriptor d ∧ i.opcode = some row.1 := by
  obtain ⟨op, a0, a1, a2, a3, rfl⟩ : ∃ op a0 a1 a2 a3, d = packDescriptor op a0 a1 a2 a3 :=
    ⟨_, _, _, _, _, (pack_fields d).symm⟩
  have hfull (a : Field) : a &&& 0xFFFF = a := BitVec.and_allOnes (x := a)
  rw [descriptorRows_eq] at hrow
  simp only [List.mem_cons, List.not_mem_nil, or_false] at hrow
  rcases hrow with rfl | rfl | rfl | rfl | rfl | rfl | rfl | rfl | rfl
  all_goals
    simp only [row_match, opField_pack, a0Field_pack, a1Field_pack, a2Field_pack, a3Field_pack, hfull] at h
    obtain ⟨rfl, h0, h1, h2, h3⟩ := h
  · exact ⟨.hardReset, by simp [encode, *], rfl⟩
  · exact ⟨.init, by simp [encode, *], rfl⟩
  · obtain ⟨m, hm⟩ := (orientationOf_isSome a0).mpr h0
    exact ⟨.setOrientation m, by simp [encode, orientationOf_some hm, *], rfl⟩
  · exact ⟨.setAddressWindow a0 a1 a2 a3, rfl, rfl⟩
  · exact ⟨.eatFramebuffer a0, by simp [encode, *], rfl⟩
  · obtain ⟨on, hon⟩ := (onOf_isSome a0).mpr h0
    exact ⟨.setBacklight on, by simp [encode, onOf_some hon, *], rfl⟩
  · exact ⟨.fbSetPixelXy a0 a1 a2 a3, rfl, rfl⟩
  · exact ⟨.fbSetPixelRaw a0 (a1 ++ a2) a3, by simp [encode, append_high, append_low], rfl⟩
  · exact ⟨.fbClear a0 a3, by simp [encode, *], rfl⟩

/-- The row of an operation that has a descriptor, and the descriptor is in its match set. -/
theorem exists_match_of_encode {cmds : PanelCommands} {i : Instr} {d : Descriptor} (h : encode cmds i = .descriptor d) :
    ∃ row ∈ descriptorRows, i.opcode = some row.1 ∧ d &&& row.2.2 = row.2.1 := by
  rw [descriptorRows_eq]
  cases i with
  | sendCommand | sendData | wireSlpout | wireColmod | wireDispon | wireMadctl | wireCaset | wireRaset | wireRamwr =>
    cases h
  | _ =>
    obtain rfl := Code.descriptor.inj h
    simp [Instr.opcode, pack_and_pack, pack_inj]

/-- Settles O4: what decodes from `d` is what encodes to `d`, and that exists exactly where a row matches `d`. -/
theorem matchAndMaskDecideTheOperation : Obligations.MatchAndMaskDecideTheOperation := by
  intro d
  refine ⟨fun row hrow => ⟨?_, fun h => ?_⟩, fun row hrow other hother h h' => ?_,
    fun i cmds h => encode_of_decodeDescriptor cmds h, fun hnone => ?_⟩
  · rintro ⟨i, hdec, hop⟩
    obtain ⟨row', hrow', hop', hmatch⟩ :=
      exists_match_of_encode (encode_of_decodeDescriptor PanelCommands.default hdec)
    obtain rfl := descriptorRows_eq_of_opcode_eq hrow' hrow (Option.some.inj (hop'.symm.trans hop))
    exact hmatch
  · obtain ⟨i, henc, hop⟩ := exists_encode_of_match PanelCommands.default hrow h
    exact ⟨i, decodeDescriptor_of_encode henc, hop⟩
  · exact descriptorRows_eq_of_opcode_eq hrow hother
      ((opField_of_match hrow h).symm.trans (opField_of_match hother h'))
  · cases hdec : decodeDescriptor d with
    | error e => exact ⟨e, rfl⟩
    | ok i =>
      obtain ⟨row, hrow, -, hmatch⟩ := exists_match_of_encode (encode_of_decodeDescriptor PanelCommands.default hdec)
      exact absurd hmatch (hnone row hrow)

/-! ## Illegal descriptors (30_encoding.md R77, 60_exceptions.md R158) -/

/-- A descriptor is illegal exactly when it is in no match set. -/
theorem illegalDescriptor_iff (d : Descriptor) :
    illegalDescriptor d ↔ ∀ row ∈ descriptorRows, d &&& row.2.2 ≠ row.2.1 := by
  constructor
  · rintro (hop | ⟨row, hrow, hop, hne⟩) other hother hmatch
    · exact hop other hother (opField_of_match hother hmatch)
    · obtain rfl := descriptorRows_eq_of_opcode_eq hrow hother (hop.symm.trans (opField_of_match hother hmatch))
      exact hne hmatch
  · intro h
    by_cases hop : ∀ row ∈ descriptorRows, opField d ≠ row.1
    · exact .inl hop
    · push Not at hop
      obtain ⟨row, hrow, hop⟩ := hop
      exact .inr ⟨row, hrow, hop, h row hrow⟩

theorem illegalDescriptor_iff_error (d : Descriptor) : illegalDescriptor d ↔ ∃ e, decodeDescriptor d = .error e := by
  obtain ⟨hrows, -, -, herror⟩ := matchAndMaskDecideTheOperation d
  rw [illegalDescriptor_iff]
  refine ⟨herror, ?_⟩
  rintro ⟨e, he⟩ row hrow hmatch
  obtain ⟨i, hi, -⟩ := (hrows row hrow).mpr hmatch
  rw [he] at hi
  cases hi

/-- A step on a code that decodes is the instruction, on the state without the code. -/
theorem step_of_decode {s u : State} {c : Code} {i : Instr} (hf : fetch s = some (c, u))
    (h : decode s.cfg.cmds c = .ok i) : step s = exec i u := by
  rw [step_fetch hf, h]

/-- A step on the host's next descriptor, where it is an operation. -/
theorem step_descriptor_ok {s : State} {d : Descriptor} {rest : List Descriptor} {i : Instr} (hhost : hostOnly s)
    (hp : s.pending = d :: rest) (h : decodeDescriptor d = .ok i) : step s = exec i { s with pending := rest } :=
  step_of_decode (fetch_host hhost hp) h

/-- A step on the host's next descriptor, where it is illegal. -/
theorem step_descriptor_error {s : State} {d : Descriptor} {rest : List Descriptor} {e : DecodeError}
    (hhost : hostOnly s) (hp : s.pending = d :: rest) (h : decodeDescriptor d = .error e) :
    step s = .next (returns (if s.halted then .halted else .illegalOperation) { s with pending := rest }) := by
  simp only [step_fetch (fetch_host hhost hp), decode, h]
  rcases rejectCode_cases e { s with pending := rest } with ⟨-, hr⟩ | ⟨he, -⟩
  · exact hr
  · rcases decodeDescriptor_error h with rfl | rfl <;> simp at he

/-- Settles O5: a descriptor is illegal exactly when it decodes to an error, and the error is handed over alone. -/
theorem illegalDescriptorHasNoEffect : Obligations.IllegalDescriptorHasNoEffect := by
  intro s d rest hhost hp
  refine ⟨fun hill hh => ?_, fun hlegal => ?_⟩
  · obtain ⟨e, he⟩ := (illegalDescriptor_iff_error d).mp hill
    rw [step_descriptor_error hhost hp he, hh]
    rfl
  · cases hdec : decodeDescriptor d with
    | error e => exact absurd ((illegalDescriptor_iff_error d).mpr ⟨e, hdec⟩) hlegal
    | ok i => exact ⟨i, rfl, step_descriptor_ok hhost hp hdec⟩

/-! ## What a step runs (30_encoding.md R70) -/

/-- A placed table word is fetched next; a placed descriptor drops the engine calls (log 1). -/
theorem fetch_withFetchWord (s : State) (nbits w : Nat) :
    fetch (s.withFetchWord nbits w) =
      some (tableCode nbits w, if nbits ≤ 16 then s else { s with engineCalls := [] }) := by
  unfold State.withFetchWord tableCode
  split_ifs <;> rfl

theorem withFetchWord_cfg (s : State) (nbits w : Nat) : (s.withFetchWord nbits w).cfg = s.cfg := by
  unfold State.withFetchWord
  cases tableCode nbits w <;> rfl

/-- Settles O6: each clause names what the fetch takes, and the step decodes and runs it. -/
theorem stepRunsTheDecodedOperation : Obligations.StepRunsTheDecodedOperation := by
  refine ⟨fun s d rest i hhost hp h => step_of_decode (fetch_host hhost hp) h,
    fun s symbols rest i he h => step_of_decode (fetch_engine he) h, fun s nbits w i h => ?_,
    fun s hhost hp => step_idle (fetch_idle hhost hp)⟩
  exact step_of_decode (fetch_withFetchWord s nbits w) (by rw [withFetchWord_cfg, h])

/-! ## The engine's calls (40_protocol.md R103, R104) -/

/-- Only a halted block refuses an engine call (log 10). -/
theorem preconditionError_engineCall {i : Instr} (hi : i.opcode = none) {s : State} (hh : s.halted = false) :
    preconditionError s i = none := by
  have hrows : acceptedIn i s.ds = true ∧ namedBuffer i = none ∧ rangeError s.cfg i = none := by
    cases i with
    | sendCommand | sendData | wireSlpout | wireColmod | wireDispon | wireMadctl | wireCaset | wireRaset | wireRamwr =>
      exact ⟨rfl, rfl, rfl⟩
    | _ => cases hi
  obtain ⟨haccepted, hbuffer, hrange⟩ := hrows
  simp [preconditionError, hh, haccepted, hbuffer, hrange]

/-- An engine call prepares nothing and commits nothing (log 10). -/
theorem engineCall_phases {i : Instr} (hi : i.opcode = none) (s : State) : prepare i s = s ∧ commitOf i = id := by
  cases i with
  | sendCommand | sendData | wireSlpout | wireColmod | wireDispon | wireMadctl | wireCaset | wireRaset | wireRamwr =>
    exact ⟨rfl, rfl⟩
  | _ => cases hi

/-- An engine call whose event list is one drive of DC and one burst, where the environment answers Ok. -/
theorem exec_engineCall {i : Instr} (hi : i.opcode = none) {s : State} (hh : s.halted = false) {l : Level}
    {bs : List Byte} (hplan : plannedEvents s i = [.pin .dc l, .tx bs]) (hp : pinsOk s 1) (hb : busOk s 1) :
    exec i s = .next { s with dcOut := .driven l, trace := s.trace ++ [.pin .dc l, .tx bs]
                              env := envAfter s 1 1, reply := some .ok } := by
  have hpins : pinDrives (plannedEvents s i) = 1 := by rw [hplan]; rfl
  have hbus : busWrites (plannedEvents s i) = 1 := by rw [hplan]; rfl
  obtain ⟨hprepare, hcommit⟩ := engineCall_phases hi s
  rw [exec_ok i s (preconditionError_engineCall hi hh) (by rwa [hpins]) (by rwa [hbus]), hpins, hbus, hplan, hprepare,
    hcommit]
  rfl

/-- Settles O31: with DC Present the event list of each engine call is one drive and one burst. -/
theorem engineCallsSendOneBurst : Obligations.EngineCallsSendOneBurst := by
  intro s hh hdc hp hb
  have hcommand (c : Byte) := commandEvents_present hdc c
  refine ⟨fun c => exec_engineCall rfl hh (hcommand c) hp hb,
    fun b more => exec_engineCall rfl hh (dataEvents_present hdc (b :: more)) hp hb, fun row hrow => ?_⟩
  simp only [List.mem_cons, List.not_mem_nil, or_false] at hrow
  rcases hrow with rfl | rfl | rfl | rfl | rfl | rfl | rfl <;> exact exec_engineCall rfl hh (hcommand _) hp hb

/-! ## The control byte (30_encoding.md R84, R85) -/

/-- The orientation bytes of a well-formed configuration use bits 7 to 5 alone. -/
theorem orientBitsOf_low_bits {cfg : Cfg} (h : cfgWf cfg = true) (mode : Orientation) :
    orientBitsOf cfg.orientBits mode &&& 0x1F = 0 := by
  simp only [cfgWf, orientTableWf, orientByteWf, Bool.and_eq_true, decide_eq_true_eq] at h
  obtain ⟨⟨-, ⟨⟨hportrait, hlandscape⟩, hlandscapeMirrored⟩, hportraitMirrored⟩, -⟩ := h
  cases mode with
  | portrait => exact hportrait
  | landscape => exact hlandscape
  | landscapeMirrored => exact hlandscapeMirrored
  | portraitMirrored => exact hportraitMirrored

/-- A byte that uses bits 7 to 5 alone, combined with a colour bit: what each mask of 30_encoding.md R84 leaves. -/
theorem or_colorBit_masks {b : Byte} (hb : b &&& 0x1F = 0) (bgr : Bool) :
    (b ||| if bgr then 0x08 else 0x00) &&& 0x17 = 0 ∧ (b ||| if bgr then 0x08 else 0x00).getLsbD 3 = bgr ∧
      (b ||| if bgr then 0x08 else 0x00) &&& 0xE0 = b := by
  have hhigh : b = b &&& 0xE0 := by
    calc b = b &&& (0x1F ||| 0xE0) := (BitVec.and_allOnes (x := b)).symm
      _ = b &&& 0x1F ||| b &&& 0xE0 := BitVec.and_or_distrib_left ..
      _ = b &&& 0xE0 := by rw [hb]; exact BitVec.zero_or
  have hbit : b.getLsbD 3 = false := by rw [hhigh]; simp
  have hlow : b &&& 0x17 = 0 := by rw [hhigh, BitVec.and_assoc]; exact BitVec.and_zero
  refine ⟨?_, ?_, ?_⟩
  · rw [BitVec.and_or_distrib_right, hlow]
    cases bgr <;> rfl
  · rw [BitVec.getLsbD_or, hbit]
    cases bgr <;> rfl
  · rw [BitVec.and_or_distrib_right, ← hhigh]
    cases bgr <;> exact BitVec.or_zero

/-- Settles O18: the control byte is the orientation's, which uses bits 7 to 5 alone, with the colour bit. -/
theorem controlByteFields : Obligations.ControlByteFields := by
  intro cfg mode h
  exact or_colorBit_masks (orientBitsOf_low_bits h mode) cfg.colorBgr

end Sys2Proof.Machine
end

section
/-! Proofs of the statements about the Command Protocol engine: the contracts of its two calls, the waits, the bursts
and their drives of DC, and what the host can issue (40_protocol.md). -/

namespace Sys2Proof.Machine
open Sys2Proof.Stated

/-! ## The primitives by the environment's answer (40_protocol.md R100, R102) -/

theorem nextPin_eq_pinAnswer (s : State) : nextPin s = pinAnswer s 0 := by
  unfold nextPin pinAnswer
  cases s.env.pins <;> rfl

theorem nextBus_eq_busAnswer (s : State) : nextBus s = busAnswer s 0 := by
  unfold nextBus busAnswer
  cases s.env.bus <;> rfl

section
variable {s : State}

theorem drive_dc_ok (hdc : s.cfg.dcRole = .present) (h : pinAnswer s 0 = .ok) (l : Level) :
    drive .dc l s = .done
      { s with dcOut := .driven l, trace := s.trace ++ [.pin .dc l], env := envAfter s 1 0 } := by
  simp only [drive, rolePresence, hdc, nextPin_eq_pinAnswer, h]
  simp [emit, setLatch, usePin, envAfter]

theorem drive_dc_fail (hdc : s.cfg.dcRole = .present) (h : pinAnswer s 0 = .fail) (l : Level) :
    drive .dc l s = .raised .transportPin
      { s with dcOut := .unknown, trace := s.trace ++ [.pinFail .dc l], env := envAfter s 1 0 } := by
  simp only [drive, rolePresence, hdc, nextPin_eq_pinAnswer, h]
  simp [emit, setLatch, usePin, envAfter]

theorem busWrite_ok (h : busAnswer s 0 = .ok) (bs : List Byte) :
    busWrite bs s = .done { s with trace := s.trace ++ [.tx bs], env := envAfter s 0 1 } := by
  simp only [busWrite, nextBus_eq_busAnswer, h]
  simp [emit, useBus, envAfter]

theorem busWrite_fail {k : Nat} (h : busAnswer s 0 = .fail k) {bs : List Byte} (hk : k ≤ bs.length) :
    busWrite bs s = .raised .transportBus { s with trace := s.trace ++ [.txFail bs k], env := envAfter s 0 1 } := by
  simp only [busWrite, nextBus_eq_busAnswer, h, Nat.min_eq_left hk]
  simp [emit, useBus, envAfter]

theorem busWrite_never (h : busAnswer s 0 = .never) (bs : List Byte) :
    busWrite bs s = .stuck { s with env := envAfter s 0 1 } := by
  simp only [busWrite, nextBus_eq_busAnswer, h]
  simp [useBus, envAfter]

end

/-! ## The contracts of `send_command` and `send_data` (40_protocol.md R103, R104) -/

/-- The four ends of a drive of DC and one burst, which is what both calls are: each ends where the environment's first
answer that is not Ok ends it. -/
theorem dcBurst_contract {s : State} (hdc : s.cfg.dcRole = .present) (l : Level) (bs : List Byte) :
    (pinAnswer s 0 = .fail → (drive .dc l s).andThen (busWrite bs) = .raised .transportPin
      { s with dcOut := .unknown, trace := s.trace ++ [.pinFail .dc l], env := envAfter s 1 0 }) ∧
    (pinAnswer s 0 = .ok → busAnswer s 0 = .ok → (drive .dc l s).andThen (busWrite bs) = .done
      { s with dcOut := .driven l, trace := s.trace ++ [.pin .dc l, .tx bs], env := envAfter s 1 1 }) ∧
    (∀ k, pinAnswer s 0 = .ok → busAnswer s 0 = .fail k → k ≤ bs.length →
      (drive .dc l s).andThen (busWrite bs) = .raised .transportBus
        { s with dcOut := .driven l, trace := s.trace ++ [.pin .dc l, .txFail bs k], env := envAfter s 1 1 }) ∧
    (pinAnswer s 0 = .ok → busAnswer s 0 = .never → (drive .dc l s).andThen (busWrite bs) = .stuck
      { s with dcOut := .driven l, trace := s.trace ++ [.pin .dc l], env := envAfter s 1 1 }) := by
  refine ⟨fun hp => ?_, fun hp hb => ?_, fun k hp hb hk => ?_, fun hp hb => ?_⟩
  · rw [drive_dc_fail hdc hp, Flow.raised_andThen]
  · rw [drive_dc_ok hdc hp, Flow.done_andThen, busWrite_ok (by exact hb)]
    simp [envAfter]
  · rw [drive_dc_ok hdc hp, Flow.done_andThen, busWrite_fail (by exact hb) hk]
    simp [envAfter]
  · rw [drive_dc_ok hdc hp, Flow.done_andThen, busWrite_never (by exact hb)]
    simp [envAfter]

/-- Settles O29: the call is a drive of DC to the command level and one burst of one byte. -/
theorem sendCommandContract : Obligations.SendCommandContract := by
  intro s c hdc
  obtain ⟨hpin, hok, hbus, hstuck⟩ := dcBurst_contract hdc s.cfg.dcCmdLevel [c]
  refine ⟨hpin, hok, hbus, hstuck, ?_⟩
  rw [← commandEvents_present hdc, wireSymbols_eq, symbolsFrom_commandEvents hdc]
  rfl

/-- Settles O30: the call is a drive of DC to the data level and one burst of all the bytes. -/
theorem sendDataContract : Obligations.SendDataContract := by
  intro s bs hdc _
  obtain ⟨hpin, hok, hbus, hstuck⟩ := dcBurst_contract hdc (dcDataLevel s.cfg) bs
  refine ⟨hpin, hok, hbus, hstuck, ?_⟩
  rw [← dataEvents_present hdc, wireSymbols_eq, symbolsFrom_dataEvents hdc]
  rfl

/-! ## Waits (40_protocol.md R101) -/

theorem wait_eq_done (t : Nat) (s : State) : wait t s = .done { s with trace := s.trace ++ waitEvents t } := by
  unfold wait waitEvents
  by_cases h : t = 0
  · simp [h]
  · simp [h, Nat.pos_of_ne_zero h, emit]

@[simp] theorem minElapsed_waitEvents (t : Nat) : minElapsed (waitEvents t) = t := by
  unfold waitEvents
  split
  · next h => exact h.symm
  · rfl

/-- A pause before the items of a pause is one pause of the sum. -/
theorem addPause_addPause (a b : Nat) (items : List WireItem) :
    addPause a (addPause b items) = addPause (a + b) items := by
  cases items with
  | nil => rfl
  | cons item rest =>
    cases item with
    | pause u => exact congrArg (fun t => WireItem.pause t :: rest) (Nat.add_assoc a b u).symm
    | burst | cutBurst | rst | bl => rfl

/-- Settles O35: a wait appends its event alone, and two waits are one pause of their sum. -/
theorem waitsAddUp : Obligations.WaitsAddUp := by
  refine ⟨fun s t => wait_eq_done t s, fun s u t h => ?_, fun cfg before after a b => ⟨?_, ?_⟩⟩
  · rw [wait_eq_done] at h
    obtain rfl := Flow.done.inj h
    simp [minElapsed_append]
  · refine wireItems_congr_tail cfg _ _ _ before ?_
    simp only [wireItems, addPause_addPause]
  · simp [minElapsed_append, minElapsed, Nat.add_assoc]

/-! ## Bursts and their drives of DC (40_protocol.md R107) -/

/-- A burst in a trace of the right shape comes directly after a drive of DC that it fits. -/
theorem getLast?_before_tx {s : State} (h : traceInv s) {before after : List Event} {bs : List Byte}
    (htrace : s.trace = before ++ .tx bs :: after) :
    ∃ l, before.getLast? = some (.pin .dc l) ∧ burstFits s.cfg l bs = true := by
  rw [traceInv, htrace, shapedFrom_append, Option.or_none, Bool.and_eq_true] at h
  obtain ⟨-, h⟩ := h
  simp only [shapedFrom, burstOf, Bool.and_eq_true] at h
  obtain ⟨⟨hfits, -⟩, -⟩ := h
  split at hfits
  · next l hlast => exact ⟨l, hlast, hfits⟩
  · cases hfits

theorem eq_dcDataLevel_of_ne {cfg : Cfg} {l : Level} (h : l ≠ cfg.dcCmdLevel) : l = dcDataLevel cfg := by
  unfold dcDataLevel
  cases l <;> cases hc : cfg.dcCmdLevel <;> simp_all [flipLevel]

theorem burst_mem_addPause {kind : Option WireKind} {bytes : List Byte} {t : Nat} {items : List WireItem} :
    .burst kind bytes ∈ addPause t items ↔ .burst kind bytes ∈ items := by
  cases items with
  | nil => simp [addPause]
  | cons item rest => cases item <;> simp [addPause]

/-- A burst among the items of a trace is its first event, with the kind of the DC latch before it, or is among the
items of the rest, after what that event leaves in the DC latch. -/
theorem burst_mem_wireItems_cons {cfg : Cfg} {rst dc bl : Latch} {e : Event} {es : List Event}
    {kind : Option WireKind} {bytes : List Byte} (h : .burst kind bytes ∈ wireItems cfg rst dc bl (e :: es)) :
    (e = .tx bytes ∧ kind = kindOf cfg dc) ∨
      ∃ rst' bl', .burst kind bytes ∈ wireItems cfg rst' (latchStep .dc dc e) bl' es := by
  cases e with
  | pin role l =>
    cases role with
    | rst =>
      rw [wireItems] at h
      split at h
      · exact .inr ⟨_, _, h⟩
      · exact .inr ⟨_, _, (List.mem_cons.mp h).resolve_left nofun⟩
    | dc => exact .inr ⟨_, _, h⟩
    | bl =>
      rw [wireItems] at h
      split at h
      · exact .inr ⟨_, _, h⟩
      · exact .inr ⟨_, _, (List.mem_cons.mp h).resolve_left nofun⟩
  | pinFail role l =>
    cases role with
    | rst | bl => exact .inr ⟨_, _, (List.mem_cons.mp h).resolve_left nofun⟩
    | dc => exact .inr ⟨_, _, h⟩
  | wait t => exact .inr ⟨_, _, burst_mem_addPause.mp h⟩
  | tx bs =>
    rcases List.mem_cons.mp h with heq | hrest
    · obtain ⟨hkind, rfl⟩ := WireItem.burst.inj heq
      exact .inl ⟨rfl, hkind⟩
    · exact .inr ⟨_, _, hrest⟩
  | txFail bs k => exact .inr ⟨_, _, (List.mem_cons.mp h).resolve_left nofun⟩

/-- A burst of the wire view is a burst of the trace, of the kind of the DC latch where it starts (10_state.md R29). -/
theorem exists_tx_of_burst_mem_wireItems {cfg : Cfg} {rst dc bl : Latch} {es : List Event}
    {kind : Option WireKind} {bytes : List Byte} (h : .burst kind bytes ∈ wireItems cfg rst dc bl es) :
    ∃ before after, es = before ++ .tx bytes :: after ∧ kind = kindOf cfg (before.foldl (latchStep .dc) dc) := by
  induction es generalizing rst dc bl with
  | nil => cases h
  | cons e es ih =>
    rcases burst_mem_wireItems_cons h with ⟨rfl, hkind⟩ | ⟨rst', bl', hrest⟩
    · exact ⟨[], es, rfl, hkind⟩
    · obtain ⟨before, after, rfl, hkind⟩ := ih hrest
      exact ⟨e :: before, after, rfl, hkind⟩

/-- The DC latch right after a drive of DC is the level driven. -/
theorem latchAfter_dc_of_getLast? {es : List Event} {l : Level} (h : es.getLast? = some (.pin .dc l)) :
    latchAfter .dc es = .driven l := by
  obtain ⟨before, rfl⟩ := List.getLast?_eq_some_iff.mp h
  rw [latchAfter_append]
  rfl

/-- Settles O36: the shape of the trace gives each burst its drive, so the DC latch has a level where a burst starts. -/
theorem everyBurstFollowsItsDcDrive : Obligations.EveryBurstFollowsItsDcDrive := by
  intro s hinv _
  refine ⟨fun before bs after htrace => ?_, fun bytes hmem => ?_⟩
  · obtain ⟨l, hlast, hfits⟩ := getLast?_before_tx hinv.shape htrace
    obtain ⟨-, hcommand⟩ := of_decide_eq_true hfits
    exact ⟨l, hlast, fun hlong => eq_dcDataLevel_of_ne fun hl => (hcommand hl).not_gt hlong, hcommand⟩
  · obtain ⟨before, after, htrace, hkind⟩ := exists_tx_of_burst_mem_wireItems hmem
    obtain ⟨l, hlast, -⟩ := getLast?_before_tx hinv.shape htrace
    have hlatch : before.foldl (latchStep .dc) .unknown = .driven l := latchAfter_dc_of_getLast? hlast
    rw [hlatch, kindOf] at hkind
    split at hkind <;> cases hkind

/-! ## What the host can issue (40_protocol.md R105, 30_encoding.md R72) -/

/-- What encodes to a descriptor is one of the nine operations. -/
theorem opcode_isSome_of_encode {cmds : PanelCommands} {i : Instr} {d : Descriptor}
    (h : encode cmds i = .descriptor d) : i.opcode.isSome = true :=
  opcode_isSome_of_decodeDescriptor (decodeDescriptor_of_encode h)

theorem descriptorOf_eq_some_iff {cmds : PanelCommands} {i : Instr} {d : Descriptor} :
    descriptorOf cmds i = some d ↔ encode cmds i = .descriptor d := by
  unfold descriptorOf
  cases encode cmds i <;> simp

/-- Everything a step can do while the host alone issues operations: it idles, or takes the host's next descriptor and
runs its operation or rejects it. -/
theorem step_hostOnly {s : State} (hhost : hostOnly s) :
    (s.pending = [] ∧ step s = .next s) ∨
      ∃ d rest, s.pending = d :: rest ∧
        ((∃ i, i.opcode.isSome = true ∧ step s = exec i { s with pending := rest }) ∨
          step s = refusedWith (if s.halted then .halted else .illegalOperation) { s with pending := rest }) := by
  cases hp : s.pending with
  | nil => exact .inl ⟨rfl, step_idle (fetch_idle hhost hp)⟩
  | cons d rest =>
    refine .inr ⟨d, rest, rfl, ?_⟩
    cases hdec : decodeDescriptor d with
    | ok i => exact .inl ⟨i, opcode_isSome_of_decodeDescriptor hdec, step_descriptor_ok hhost hp hdec⟩
    | error e => exact .inr (step_descriptor_error hhost hp hdec)

/-- Settles O44: a descriptor is always one of the nine operations, and nothing that runs touches the engine's queue. -/
theorem hostCannotIssueEngineCalls : Obligations.HostCannotIssueEngineCalls := by
  refine ⟨fun d i => opcode_isSome_of_decodeDescriptor, fun cmds i d hnone henc => ?_, fun cfg is d hd => ?_,
    fun s => step_hostOnly, fun s t hhost h => step_engineCalls h hhost, fun cfg s h => ?_, fun i s t h => ?_⟩
  · have hsome := opcode_isSome_of_encode henc
    rw [hnone] at hsome
    cases hsome
  · obtain ⟨i, hi, hdesc⟩ := List.mem_filterMap.mp hd
    have henc := descriptorOf_eq_some_iff.mp hdesc
    exact ⟨i, hi, opcode_isSome_of_encode henc, henc⟩
  · obtain rfl := construct_block h
    rfl
  · obtain ⟨-, hpending, hcalls, -⟩ := exec_frame h
    exact ⟨hcalls, hpending⟩

end Sys2Proof.Machine
end

section
/-! Proofs of the statements about the controller group: what each of its operations does where it completes, the
failures of its pin drives, and the panel commands it puts on the wire (41_controller.md). -/

namespace Sys2Proof.Machine
open Sys2Proof.Stated

/-! ## An operation whose checks pass -/

/-- The checks of 60_exceptions.md R159 pass exactly when none of its four errors applies. -/
theorem preconditionError_eq_none_iff {i : Instr} {s : State} :
    preconditionError s i = none ↔ s.halted = false ∧ acceptedIn i s.ds = true ∧
      (namedBuffer i).all (bufferExists s.cfg) = true ∧ rangeError s.cfg i = none := by
  unfold preconditionError
  cases s.halted <;> cases acceptedIn i s.ds <;> cases namedBuffer i <;> simp [bufferExists, ite_eq_iff]

/-! ## Event lists: the answers they use, the latches they move, the state they end in -/

@[simp] theorem pinDrives_nil : pinDrives [] = 0 := rfl
@[simp] theorem busWrites_nil : busWrites [] = 0 := rfl

@[simp] theorem pinDrives_pin_cons (r : PinRole) (l : Level) (es : List Event) :
    pinDrives (.pin r l :: es) = pinDrives es + 1 := List.countP_cons_of_pos rfl

@[simp] theorem busWrites_pin_cons (r : PinRole) (l : Level) (es : List Event) :
    busWrites (.pin r l :: es) = busWrites es := List.countP_cons_of_neg nofun

theorem pinDrives_flatMap {α : Type} (f : α → List Event) (l : List α) :
    pinDrives (l.flatMap f) = (l.map fun a => pinDrives (f a)).sum := List.countP_flatMap

theorem busWrites_flatMap {α : Type} (f : α → List Event) (l : List α) :
    busWrites (l.flatMap f) = (l.map fun a => busWrites (f a)).sum := List.countP_flatMap

/-- A latch stays over events that do not drive its pin. -/
theorem foldl_latchStep_of_notMem {r : PinRole} {es : List Event} (h : ∀ l, .pin r l ∉ es ∧ .pinFail r l ∉ es)
    (latch : Latch) : es.foldl (latchStep r) latch = latch := by
  refine List.foldlRecOn es (latchStep r) (motive := (· = latch)) rfl fun b hb e he => ?_
  subst hb
  cases e with
  | pin q l => exact if_neg fun hq : q = r => (h l).1 (hq ▸ he)
  | pinFail q l => exact if_neg fun hq : q = r => (h l).2 (hq ▸ he)
  | wait | tx | txFail => rfl

/-- The state in which an event list has been performed whole. -/
def afterPlan (es : List Event) (s : State) : State :=
  { s with
      rstOut := es.foldl (latchStep .rst) s.rstOut
      dcOut := es.foldl (latchStep .dc) s.dcOut
      blOut := es.foldl (latchStep .bl) s.blOut
      trace := s.trace ++ es
      env := envAfter s (pinDrives es) (busWrites es) }

/-- Where the environment answers Ok, an event list is performed whole. -/
theorem runPlan_ok {es : List Event} {s : State} (hes : ∀ r l, Event.pinFail r l ∉ es)
    (hp : pinsOk s (pinDrives es)) (hb : busOk s (busWrites es)) : runPlan es s = .done (afterPlan es s) := by
  obtain ⟨t, ht⟩ := runPlan_done es s hp hb
  rcases runPlan_cases es hes s with ⟨u, hu, hframe, htrace, henv, hlatch⟩ | ⟨r, u, n, e, f, hu, -⟩ | ⟨u, n, bs, hu, -⟩
  · have hrst : u.rstOut = _ := hlatch .rst
    have hdc : u.dcOut = _ := hlatch .dc
    have hbl : u.blOut = _ := hlatch .bl
    rw [hu, hframe.eq, hrst, hdc, hbl, htrace, henv, foldl_envStep]
    rfl
  · cases ht.symm.trans hu
  · cases ht.symm.trans hu

@[simp] theorem prepare_env (i : Instr) (s : State) : (prepare i s).env = s.env := by rw [prepare_frame]

/-- An operation whose checks pass and whose environment answers Ok performs its event list and commits. -/
theorem exec_ok_of_plan {i : Instr} {s : State} {es : List Event} (hpre : preconditionError s i = none)
    (hplan : plannedEvents s i = es) (hp : pinsOk s (pinDrives es)) (hb : busOk s (busWrites es)) :
    exec i s = .next (returns .ok (commitOf i (afterPlan es (prepare i s)))) := by
  subst hplan
  rw [exec_ok i s hpre hp hb, prepare_frame]
  rfl

/-- An operation whose checks pass and whose environment answers Ok up to a drive, which fails, has performed the
events before it and is halted (60_exceptions.md R154). -/
theorem exec_pinFail_of_plan {i : Instr} {s : State} {before after : List Event} {role : PinRole} {l : Level}
    (hpre : preconditionError s i = none) (hplan : plannedEvents s i = before ++ .pin role l :: after)
    (hp : pinsOk s (pinDrives before)) (hb : busOk s (busWrites before))
    (hfail : pinAnswer s (pinDrives before) = .fail) :
    exec i s = .next (returns .transportPin (setHalted
      { setLatch role .unknown (afterPlan before (prepare i s)) with
          trace := s.trace ++ before ++ [.pinFail role l]
          env := envAfter s (pinDrives before + 1) (busWrites before) })) := by
  have hbefore : ∀ r l, Event.pinFail r l ∉ before := fun r l hm =>
    pinFail_notMem_plannedEvents i s r l (hplan ▸ List.mem_append_left _ hm)
  have hnext : nextPin (afterPlan before (prepare i s)) = .fail := by
    rw [nextPin_eq_pinAnswer, ← hfail]
    simp [pinAnswer, afterPlan, envAfter, List.getD_eq_getElem?_getD]
  rw [exec_eq, hpre, hplan, runPlan_append, runPlan_ok hbefore, Flow.done_andThen, runPlan_cons, runEvent, hnext]
  · cases role <;> simp [finish, raiseTransport, emit, setLatch, usePin, afterPlan, envAfter]
  · simpa [pinsOk, pinAnswer] using hp
  · simpa [busOk, busAnswer] using hb

/-! ## Which operation drives which pin (41_controller.md R110, R115) -/

theorem eq_of_pin_mem_driveEvents {cfg : Cfg} {r q : PinRole} {l m : Level} (h : .pin r l ∈ driveEvents cfg q m) :
    r = q := by
  unfold driveEvents at h
  split at h
  · exact (Event.pin.inj (List.mem_singleton.mp h)).1
  · cases h

theorem pin_notMem_waitEvents (r : PinRole) (l : Level) (t : Nat) : .pin r l ∉ waitEvents t := by
  unfold waitEvents
  split <;> simp

/-- A drive and a burst, as `send_command` and `send_data` are: DC is the only pin. -/
theorem eq_dc_of_pin_mem_burst {cfg : Cfg} {r : PinRole} {l m : Level} {bs : List Byte}
    (h : .pin r l ∈ driveEvents cfg .dc m ++ [.tx bs]) : r = .dc := by
  rcases List.mem_append.mp h with h | h
  · exact eq_of_pin_mem_driveEvents h
  · cases List.mem_singleton.mp h

theorem eq_dc_of_pin_mem_initStepEvents {cfg : Cfg} {st : InitStep} {r : PinRole} {l : Level}
    (h : .pin r l ∈ initStepEvents cfg st) : r = .dc := by
  rcases List.mem_append.mp h with h | h
  · rcases List.mem_append.mp h with h | h
    · exact eq_dc_of_pin_mem_burst h
    · split at h
      · cases h
      · exact eq_dc_of_pin_mem_burst h
  · exact absurd h (pin_notMem_waitEvents r l _)

/-- RST is `hard_reset`'s, BL is `set_backlight`'s; every other drive is of DC. -/
theorem role_of_pin_mem_plannedEvents {i : Instr} {s : State} {r : PinRole} {l : Level}
    (h : .pin r l ∈ plannedEvents s i) :
    r = .dc ∨ (r = .rst ∧ i = .hardReset) ∨ (r = .bl ∧ ∃ on, i = .setBacklight on) := by
  cases i with
  | hardReset =>
    simp only [plannedEvents, List.mem_append, pin_notMem_waitEvents, or_false] at h
    exact .inr (.inl ⟨h.elim eq_of_pin_mem_driveEvents eq_of_pin_mem_driveEvents, rfl⟩)
  | setBacklight on => exact .inr (.inr ⟨eq_of_pin_mem_driveEvents h, on, rfl⟩)
  | fbSetPixelXy | fbSetPixelRaw | fbClear => cases h
  | init =>
    obtain ⟨st, -, h⟩ := List.mem_flatMap.mp h
    exact .inl (eq_dc_of_pin_mem_initStepEvents h)
  | setOrientation mode => exact .inl ((List.mem_append.mp h).elim eq_dc_of_pin_mem_burst eq_dc_of_pin_mem_burst)
  | setAddressWindow x0 y0 x1 y1 =>
    unfold plannedEvents at h
    obtain (((h | h) | h) | h) | h := by simpa only [List.mem_append] using h
    all_goals exact .inl (eq_dc_of_pin_mem_burst h)
  | _ => exact .inl (eq_dc_of_pin_mem_burst h)

/-! ## What an instruction adds to the trace and does to the latches (60_exceptions.md R154) -/

@[simp] theorem latchOf_prepare (q : PinRole) (i : Instr) (s : State) : latchOf (prepare i s) q = latchOf s q := by
  rw [prepare_frame]
  cases q <;> rfl

@[simp] theorem latchOf_commitOf (q : PinRole) (i : Instr) (s : State) : latchOf (commitOf i s) q = latchOf s q := by
  rw [commitOf_frame]
  cases q <;> rfl

/-- A pin that an event list drives or fails to drive is one that was to be driven there. -/
theorem pin_of_failsAs {e f : Event} {res : Result} {r : PinRole} {l : Level} (h : failsAs e res f) :
    f ≠ .pin r l ∧ (f = .pinFail r l → e = .pin r l) := by
  cases e with
  | pin q m =>
    obtain ⟨-, rfl⟩ := h
    simp
  | tx bs =>
    obtain ⟨-, k, -, rfl⟩ := h
    simp
  | pinFail | wait | txFail => exact h.elim

/-- Whatever an instruction ends in, the events it adds move the latches, and the pins in them are planned drives. -/
theorem exec_events {i : Instr} {s t : State} (h : exec i s = .next t) :
    ∃ events, t.trace = s.trace ++ events ∧ (∀ q, latchOf t q = events.foldl (latchStep q) (latchOf s q)) ∧
      ∀ r l, .pin r l ∈ events ∨ .pinFail r l ∈ events → .pin r l ∈ plannedEvents s i := by
  rcases exec_next h with ⟨r, -, rfl⟩ | ⟨-, u, -, htr, -, hl, rfl⟩ | ⟨-, u, res, n, e, f, -, hn, hfail, htr, hl, rfl⟩
  · exact ⟨[], by simp, by simp, by simp⟩
  · exact ⟨plannedEvents s i, by simp [htr], by simp [hl],
      fun r l hm => hm.resolve_right (pinFail_notMem_plannedEvents i s r l)⟩
  · refine ⟨(plannedEvents s i).take n ++ [f], by simp [htr], by simp [hl], fun r l hm => ?_⟩
    obtain ⟨hne, hpin⟩ := pin_of_failsAs (r := r) (l := l) hfail
    simp only [List.mem_append, List.mem_singleton] at hm
    rcases hm with (hm | hm) | (hm | hm)
    · exact List.mem_of_mem_take hm
    · exact absurd hm.symm hne
    · exact absurd (List.mem_of_mem_take hm) (pinFail_notMem_plannedEvents i s r l)
    · exact hpin hm.symm ▸ List.mem_of_getElem? hn

/-! ## `hard_reset` (41_controller.md R110) -/

theorem preconditionError_hardReset {s : State} (hh : s.halted = false) : preconditionError s .hardReset = none :=
  preconditionError_eq_none_iff.mpr ⟨hh, rfl, rfl, rfl⟩

/-- The descriptor of `HARD_RESET`, at every value of its fields (30_encoding.md R73). -/
theorem decodeDescriptor_hardReset (a0 a1 a2 a3 : Field) :
    decodeDescriptor (packDescriptor 0x01 a0 a1 a2 a3) =
      if a0 = 0 ∧ a1 = 0 ∧ a2 = 0 ∧ a3 = 0 then .ok .hardReset else .error .mustBeZero := by
  simp only [decodeDescriptor, opField_pack, a0Field_pack, a1Field_pack, a2Field_pack, a3Field_pack, if_true]

theorem plannedEvents_hardReset_present {s : State} (h : s.cfg.rstRole = .present) :
    plannedEvents s .hardReset = (.pin .rst .low :: waitEvents s.cfg.tRstLow) ++
      .pin .rst .high :: waitEvents s.cfg.tRstSettle := by
  simp [plannedEvents, driveEvents_present (role := .rst) h]

theorem plannedEvents_hardReset_absent {s : State} (h : s.cfg.rstRole = .absent) :
    plannedEvents s .hardReset = waitEvents s.cfg.tRstLow ++ waitEvents s.cfg.tRstSettle := by
  simp [plannedEvents, driveEvents_absent (role := .rst) h]

/-- Settles O15: the pulse is two drives of RST and two waits, and either drive can be the one that fails. -/
theorem hardResetPulsesReset : Obligations.HardResetPulsesReset := by
  intro s
  refine ⟨fun hh hrst hp => ?_, fun hh hrst => ?_, fun hh hrst hfail => ?_, fun hh hrst hok hfail => ?_,
    fun hh => exec_halted hh _, decodeDescriptor_hardReset⟩
  · rw [exec_ok_of_plan (preconditionError_hardReset hh) (plannedEvents_hardReset_present hrst)]
    · simp [returns, commitOf, commitReset, afterPlan, prepare, latchStep, pinDrives_append, busWrites_append]
    · simpa [pinDrives_append] using hp
    · simp [busOk, busWrites_append]
  · rw [exec_ok_of_plan (preconditionError_hardReset hh) (plannedEvents_hardReset_absent hrst)]
    · simp [returns, commitOf, commitReset, afterPlan, prepare, envAfter, pinDrives_append, busWrites_append]
    · simp [pinsOk, pinDrives_append]
    · simp [busOk, busWrites_append]
  · rw [exec_pinFail_of_plan (before := []) (preconditionError_hardReset hh) (plannedEvents_hardReset_present hrst)
      nofun nofun hfail]
    simp [returns, setHalted, setLatch, afterPlan, prepare]
  · rw [exec_pinFail_of_plan (preconditionError_hardReset hh) (plannedEvents_hardReset_present hrst)]
    · simp [returns, setHalted, setLatch, afterPlan, prepare, latchStep]
    · simpa [pinsOk] using hok
    · simp [busOk]
    · simpa using hfail

/-! ## `init` (41_controller.md R111) -/

theorem initStepEvents_present {cfg : Cfg} (h : cfg.dcRole = .present) (st : InitStep) :
    initStepEvents cfg st = [.pin .dc cfg.dcCmdLevel, .tx [st.cmd]] ++
      (if st.data = [] then [] else [.pin .dc (dcDataLevel cfg), .tx st.data]) ++ waitEvents st.waitUs := by
  rw [initStepEvents, commandEvents_present h, dataEvents_present h]

theorem pinDrives_initStepEvents {cfg : Cfg} (h : cfg.dcRole = .present) (st : InitStep) :
    pinDrives (initStepEvents cfg st) = if st.data = [] then 1 else 2 := by
  rw [initStepEvents_present h, pinDrives_append, pinDrives_wait]
  split <;> rfl

theorem busWrites_initStepEvents {cfg : Cfg} (h : cfg.dcRole = .present) (st : InitStep) :
    busWrites (initStepEvents cfg st) = if st.data = [] then 1 else 2 := by
  rw [initStepEvents_present h, busWrites_append, busWrites_wait]
  split <;> rfl

/-- After a step of the bring-up sequence DC has the level of its last burst. -/
theorem foldl_dc_initStepEvents {cfg : Cfg} (h : cfg.dcRole = .present) (st : InitStep) (dc : Latch) :
    (initStepEvents cfg st).foldl (latchStep .dc) dc =
      .driven (if st.data = [] then cfg.dcCmdLevel else dcDataLevel cfg) := by
  rw [initStepEvents_present h, List.foldl_append, latchStep_wait]
  split <;> rfl

/-- After a bring-up sequence DC has the level of the last burst of its last step. -/
theorem foldl_dc_initSeq {cfg : Cfg} (h : cfg.dcRole = .present) (seq : List InitStep) (dc : Latch) :
    (seq.flatMap (initStepEvents cfg)).foldl (latchStep .dc) dc =
      seq.getLast?.elim dc fun st => .driven (if st.data = [] then cfg.dcCmdLevel else dcDataLevel cfg) := by
  rcases seq.eq_nil_or_concat with rfl | ⟨before, st, rfl⟩
  · rfl
  · simp [foldl_dc_initStepEvents h]

/-- Settles O16: with DC Present the event list is the sequence's, and DC is the only pin in it. -/
theorem initSendsTheBringUpSequence : Obligations.InitSendsTheBringUpSequence := by
  intro s hh hds hdc hp hb
  have hpre : preconditionError s .init = none :=
    preconditionError_eq_none_iff.mpr ⟨hh, decide_eq_true hds, rfl, rfl⟩
  have hpins : pinDrives (plannedEvents s .init) = (s.cfg.initSeq.map fun st => if st.data = [] then 1 else 2).sum := by
    simp [plannedEvents, pinDrives_flatMap, pinDrives_initStepEvents hdc]
  have hbus : busWrites (plannedEvents s .init) = (s.cfg.initSeq.map fun st => if st.data = [] then 1 else 2).sum := by
    simp [plannedEvents, busWrites_flatMap, busWrites_initStepEvents hdc]
  have hlatch : ∀ r : PinRole, r ≠ .dc → ∀ latch, (plannedEvents s .init).foldl (latchStep r) latch = latch := by
    refine fun r hr => foldl_latchStep_of_notMem fun l => ⟨fun hm => ?_, pinFail_notMem_plannedEvents .init s r l⟩
    rcases role_of_pin_mem_plannedEvents hm with hrole | ⟨-, hi⟩ | ⟨-, on, hi⟩
    · exact hr hrole
    · cases hi
    · cases hi
  rw [exec_ok_of_plan hpre rfl (by rwa [hpins]) (by rwa [hbus]), afterPlan, hpins, hbus, hlatch .rst nofun,
    hlatch .bl nofun, plannedEvents, foldl_dc_initSeq hdc]
  simp only [funext (initStepEvents_present hdc)]
  cases s.cfg.initSeq.getLast? <;> rfl

/-! ## `set_orientation`, `set_address_window`, `eat_framebuffer` (41_controller.md R112 to R114) -/

/-- Settles O17: with DC Present the event list is two bursts with their drives. -/
theorem setOrientationSendsOneControlByte : Obligations.SetOrientationSendsOneControlByte := by
  intro s mode hh hds hdc hp hb
  have hpre : preconditionError s (.setOrientation mode) = none :=
    preconditionError_eq_none_iff.mpr ⟨hh, by simpa [acceptedIn] using hds, rfl, rfl⟩
  have hplan : plannedEvents s (.setOrientation mode) =
      [.pin .dc s.cfg.dcCmdLevel, .tx [s.cfg.cmds.madctl], .pin .dc (dcDataLevel s.cfg), .tx [madctlOf s.cfg mode]] := by
    rw [plannedEvents, commandEvents_present hdc, dataEvents_present hdc]
    rfl
  exact exec_ok_of_plan hpre hplan hp hb

/-- Settles O19: with DC Present the event list of a valid window is five bursts with their drives. -/
theorem setAddressWindowOpensMemoryWrite : Obligations.SetAddressWindowOpensMemoryWrite := by
  intro s x0 y0 x1 y1 hh hds hx hw hy hv hdc hp hb
  have hpre : preconditionError s (.setAddressWindow x0 y0 x1 y1) = none :=
    preconditionError_eq_none_iff.mpr
      ⟨hh, by simpa [acceptedIn] using hds, rfl, if_pos ⟨hx, hw, hy, hv⟩⟩
  have hplan : plannedEvents s (.setAddressWindow x0 y0 x1 y1) =
      [.pin .dc s.cfg.dcCmdLevel, .tx [s.cfg.cmds.caset],
       .pin .dc (dcDataLevel s.cfg), .tx [hi8 x0, lo8 x0, hi8 x1, lo8 x1],
       .pin .dc s.cfg.dcCmdLevel, .tx [s.cfg.cmds.raset],
       .pin .dc (dcDataLevel s.cfg), .tx [hi8 y0, lo8 y0, hi8 y1, lo8 y1],
       .pin .dc s.cfg.dcCmdLevel, .tx [s.cfg.cmds.ramwr]] := by
    simp only [plannedEvents, commandEvents_present hdc, dataEvents_present hdc]
    rfl
  exact exec_ok_of_plan hpre hplan hp hb

theorem view_length (s : State) (k : Nat) : (view s k).1.length = 2 * fbSize s.cfg := by
  simp [view]

/-- Settles O20: with DC Present the event list is one drive and the burst of the view, two bytes a cell. -/
theorem eatFramebufferSendsTheWholeView : Obligations.EatFramebufferSendsTheWholeView := by
  intro s k hh hds hk hdc hp hb
  have hpre : preconditionError s (.eatFramebuffer k) = none :=
    preconditionError_eq_none_iff.mpr ⟨hh, decide_eq_true hds, decide_eq_true hk, rfl⟩
  exact ⟨exec_ok_of_plan hpre (dataEvents_present hdc _) hp hb, view_length s _⟩

/-! ## `set_backlight` (41_controller.md R115) -/

theorem preconditionError_setBacklight {s : State} (hh : s.halted = false) (on : Bool) :
    preconditionError s (.setBacklight on) = none :=
  preconditionError_eq_none_iff.mpr ⟨hh, rfl, rfl, rfl⟩

/-- The descriptor of `SET_BACKLIGHT`, at every value of its fields (30_encoding.md R74). -/
theorem decodeDescriptor_setBacklight (a0 a1 a2 a3 : Field) :
    decodeDescriptor (packDescriptor 0x06 a0 a1 a2 a3) =
      if a0 = 0 ∧ a1 = 0 ∧ a2 = 0 ∧ a3 = 0 then .ok (.setBacklight false)
      else if a0 = 1 ∧ a1 = 0 ∧ a2 = 0 ∧ a3 = 0 then .ok (.setBacklight true)
      else .error .mustBeZero := by
  by_cases hoff : a0 = 0#16
  · simp [decodeDescriptor, onOf, hoff]
  · by_cases hon : a0 = 1#16
    · simp [decodeDescriptor, onOf, hon]
    · simp [decodeDescriptor, onOf, hoff, hon]

/-- Settles O21: `set_backlight` is its one drive, and no other operation's event list has a drive of BL. -/
theorem setBacklightDrivesBl : Obligations.SetBacklightDrivesBl := by
  refine ⟨fun s on => ⟨fun hh hbl hok => ?_, fun hh hbl => ?_, fun hh hbl hfail => ?_, fun hh => exec_halted hh _⟩,
    fun i s t hi h => ?_, decodeDescriptor_setBacklight⟩
  · refine exec_ok_of_plan (preconditionError_setBacklight hh on) (driveEvents_present (role := .bl) hbl _) ?_ nofun
    intro j hj
    obtain rfl : j = 0 := Nat.lt_one_iff.mp hj
    exact hok
  · rw [exec_ok_of_plan (preconditionError_setBacklight hh on) (driveEvents_absent (role := .bl) hbl _) nofun nofun]
    simp [returns, commitOf, afterPlan, prepare, envAfter]
  · rw [exec_pinFail_of_plan (before := []) (after := []) (preconditionError_setBacklight hh on)
      (driveEvents_present (role := .bl) hbl _) nofun nofun hfail]
    simp [returns, setHalted, setLatch, afterPlan, prepare, backlightLevel]
  · obtain ⟨events, htrace, hlatch, hpins⟩ := exec_events h
    have hnone : ∀ l, Event.pin .bl l ∉ plannedEvents s i := by
      intro l hm
      rcases role_of_pin_mem_plannedEvents hm with hr | ⟨hr, -⟩ | ⟨-, on, rfl⟩
      · cases hr
      · cases hr
      · exact hi on rfl
    have hevents : ∀ l, .pin .bl l ∉ events ∧ .pinFail .bl l ∉ events := fun l =>
      ⟨fun hm => hnone l (hpins .bl l (.inl hm)), fun hm => hnone l (hpins .bl l (.inr hm))⟩
    exact ⟨(hlatch .bl).trans (foldl_latchStep_of_notMem hevents _), events, htrace, hevents⟩

/-! ## The panel commands of a completed operation (30_encoding.md R79) -/

/-- The symbols of panel commands, each with its parameters. -/
def panelSymbols (commands : List (Byte × List Byte)) : List Symbol :=
  commands.flatMap fun c => commandSymbol c.1 :: c.2.map dataSymbol

/-- The panel-side decoder reads back the commands that were encoded. -/
theorem panelCommands_panelSymbols (commands : List (Byte × List Byte)) :
    panelCommands (panelSymbols commands) = commands := by
  induction commands with
  | nil => rfl
  | cons c rest ih =>
    have hhead : ∀ z ∈ (panelSymbols rest).head?, isDataSymbol z = false := by
      cases rest with
      | nil => simp [panelSymbols]
      | cons => simp [panelSymbols]
    calc panelCommands (panelSymbols (c :: rest))
        = panelCommands ((commandSymbol c.1 :: c.2.map dataSymbol) ++ panelSymbols rest) := rfl
      _ = c :: rest := by rw [panelCommands_append _ _ hhead, panelCommands_single, ih]; rfl

/-- A completed operation puts on the wire the panel commands of its event list. -/
theorem exists_panelCommands_of_exec_ok {i : Instr} {s t : State} {commands : List (Byte × List Byte)}
    (hplan : symbolsFrom s.cfg .unknown (plannedEvents s i) = panelSymbols commands)
    (h : exec i s = .next t) (hr : t.reply = some .ok) :
    ∃ events, t.trace = s.trace ++ events ∧ panelCommands (wireSymbols s.cfg events) = commands := by
  obtain ⟨u, -, htrace, rfl⟩ := exec_next_ok h hr
  refine ⟨plannedEvents s i, by rw [returns_trace, commitOf_trace, htrace], ?_⟩
  rw [wireSymbols_eq, hplan, panelCommands_panelSymbols]

/-- Settles O32: the symbols of the five bursts are those of the three commands. -/
theorem windowIsThreePanelCommands : Obligations.WindowIsThreePanelCommands := by
  intro s t x0 y0 x1 y1 hdc
  refine exists_panelCommands_of_exec_ok ?_
  simp only [plannedEvents, symbolsFrom_append, symbolsFrom_commandEvents hdc, symbolsFrom_dataEvents hdc]
  rfl

/-- The symbols of a bring-up sequence are those of its steps, each one command with its data. -/
theorem symbolsFrom_initSeq {cfg : Cfg} (h : cfg.dcRole = .present) (dc : Latch) (seq : List InitStep) :
    symbolsFrom cfg dc (seq.flatMap (initStepEvents cfg)) = panelSymbols (seq.map fun st => (st.cmd, st.data)) := by
  induction seq generalizing dc with
  | nil => rfl
  | cons st seq ih =>
    rw [List.flatMap_cons, symbolsFrom_append, symbolsFrom_initStepEvents h, ih]
    rfl

/-- Settles O33: the symbols of the sequence are those of its steps. -/
theorem initIsItsPanelCommands : Obligations.InitIsItsPanelCommands := by
  intro s t hdc
  exact exists_panelCommands_of_exec_ok (symbolsFrom_initSeq hdc _ _)

end Sys2Proof.Machine
end

section
/-! Proofs of the statements about the framebuffer group: what a pixel write and a clear do to the store, what refuses
them, and what they read (42_framebuffer.md). -/

namespace Sys2Proof.Machine
open Sys2Proof.Stated

/-! ## What a framebuffer operation answers -/

/-- A failed check ends the operation with its error, and nothing else changes (60_exceptions.md R152). -/
theorem exec_refused {i : Instr} {s : State} {r : Result} (h : preconditionError s i = some r) :
    exec i s = refusedWith r s := by
  rw [exec_eq, h]
  rfl

/-- A framebuffer operation whose checks pass has no event to perform, so it returns `Ok`. -/
theorem exec_framebufferOp {i : Instr} {s : State} (hi : isFramebufferOp i = true)
    (h : preconditionError s i = none) : exec i s = .next (returns .ok (prepare i s)) := by
  rw [exec_eq, h]
  cases i with
  | fbSetPixelXy | fbSetPixelRaw | fbClear => rfl
  | _ => cases hi

/-- The checks of a framebuffer operation: `halted`, the framebuffer, the range. The display state is none of them. -/
theorem preconditionError_framebufferOp {i : Instr} {k : Field} (s : State) (hi : isFramebufferOp i = true)
    (hk : namedBuffer i = some k) : preconditionError s i =
      if s.halted then some .halted
      else if s.cfg.nFb ≤ k.toNat then some .invalidBuffer
      else rangeError s.cfg i := by
  have hacc : acceptedIn i s.ds = true := by
    cases i with
    | fbSetPixelXy | fbSetPixelRaw | fbClear => rfl
    | _ => cases hi
  simp [preconditionError, hacc, hk]

/-- A framebuffer operation that names a framebuffer beyond the last is refused. -/
theorem exec_framebufferOp_invalidBuffer {i : Instr} {k : Field} {s : State} (hi : isFramebufferOp i = true)
    (hk : namedBuffer i = some k) (hh : s.halted = false) (hbuffer : s.cfg.nFb ≤ k.toNat) :
    exec i s = refusedWith .invalidBuffer s :=
  exec_refused (by simp [preconditionError_framebufferOp s hi hk, hh, hbuffer])

/-- In a block that is not halted, and with a framebuffer that exists, the range alone decides. -/
theorem preconditionError_of_bufferExists {i : Instr} {k : Field} {s : State} (hi : isFramebufferOp i = true)
    (hk : namedBuffer i = some k) (hh : s.halted = false) (hbuffer : k.toNat < s.cfg.nFb) :
    preconditionError s i = rangeError s.cfg i := by
  simp [preconditionError_framebufferOp s hi hk, hh, hbuffer]

/-! ## One cell written (42_framebuffer.md R130, R131) -/

/-- What is read does not depend on the result last returned. -/
@[simp] theorem readPixel_returns (r : Result) (s : State) (k i : Nat) :
    readPixel (returns r s) k i = readPixel s k i := rfl

theorem readPixel_writePixel_same (s : State) (k : Nat) {i : Nat} (v : Pixel) (hi : i < fbSize s.cfg) :
    readPixel (writePixel k i v s) k i = some v := by
  simp [readPixel_writePixel s v hi]

theorem readPixel_writePixel_other (s : State) {k i k' i' : Nat} (v : Pixel) (hi : i < fbSize s.cfg)
    (h : k' ≠ k ∨ i' ≠ i) : readPixel (writePixel k i v s) k' i' = readPixel s k' i' := by
  rw [readPixel_writePixel s v hi, if_neg (by tauto)]

/-- A position in range is a cell of the framebuffer (20_memory.md R51). -/
theorem pixelIndex_lt {cfg : Cfg} {x y : Field} (hx : x.toNat < cfg.fbW) (hy : y.toNat < cfg.fbH) :
    pixelIndex cfg x y < fbSize cfg := by
  have hrows : (y.toNat + 1) * cfg.fbW ≤ cfg.fbH * cfg.fbW := Nat.mul_le_mul_right _ hy
  rw [Nat.succ_mul, Nat.mul_comm cfg.fbH] at hrows
  unfold pixelIndex fbSize
  omega

/-- Settles O22: past its checks the operation is one pixel write, at a cell that the range puts in the framebuffer. -/
theorem fbSetPixelXyWritesOneCell : Obligations.FbSetPixelXyWritesOneCell := by
  intro s k x y color
  refine ⟨fun hh hk hx hy => ?_, fun hh hk hout => ?_, fun hh hk => exec_framebufferOp_invalidBuffer rfl rfl hh hk,
    fun hh => exec_halted hh _, decodeDescriptor_of_encode (cmds := .default) (i := .fbSetPixelXy k x y color) rfl⟩
  · have hcell : pixelIndex s.cfg x y < fbSize s.cfg := pixelIndex_lt hx hy
    have hpre : preconditionError s (.fbSetPixelXy k x y color) = none :=
      (preconditionError_of_bufferExists rfl rfl hh hk).trans (if_pos ⟨hx, hy⟩)
    exact ⟨_, exec_framebufferOp rfl hpre, rfl, readPixel_writePixel_same s _ color hcell,
      fun k' i h => readPixel_writePixel_other s color hcell h⟩
  · exact exec_refused ((preconditionError_of_bufferExists rfl rfl hh hk).trans (if_neg hout))

/-- Where a position and an offset in range name the same cell, writing by one is writing by the other
(42_framebuffer.md R131). -/
theorem exec_fbSetPixelRaw_eq_xy (s : State) (k : Field) (color : Pixel) {offset : BitVec 32} {x y : Field}
    (hx : x.toNat < s.cfg.fbW) (hy : y.toNat < s.cfg.fbH) (hcell : offset.toNat = pixelIndex s.cfg x y) :
    exec (.fbSetPixelRaw k offset color) s = exec (.fbSetPixelXy k x y color) s := by
  have hrange : rangeError s.cfg (.fbSetPixelRaw k offset color) = rangeError s.cfg (.fbSetPixelXy k x y color) :=
    (if_pos (hcell ▸ pixelIndex_lt hx hy)).trans (if_pos ⟨hx, hy⟩).symm
  have hpre : preconditionError s (.fbSetPixelRaw k offset color) =
      preconditionError s (.fbSetPixelXy k x y color) := by
    rw [preconditionError_framebufferOp s rfl rfl, preconditionError_framebufferOp s rfl rfl, hrange]
  have hwrite : prepare (.fbSetPixelRaw k offset color) s = prepare (.fbSetPixelXy k x y color) s :=
    congrArg (writePixel k.toNat · color s) hcell
  rw [exec_eq, exec_eq, hpre, hwrite]
  rfl

theorem decodeDescriptor_fbSetPixelRaw (k : Field) (offset : BitVec 32) (color : Pixel) :
    decodeDescriptor (packDescriptor 0x11 k (offset.extractLsb' 16 16) (offset.extractLsb' 0 16) color) =
      .ok (.fbSetPixelRaw k offset color) :=
  decodeDescriptor_of_encode (cmds := .default) (i := .fbSetPixelRaw k offset color) rfl

/-- The byte of a pixel that the view shows first (20_memory.md R52). -/
theorem pixelBytes_first (swap : Bool) (v : Pixel) :
    (pixelBytes swap v)[0]? = some (if swap then lo8 v else hi8 v) := by cases swap <;> rfl

/-- The byte of a pixel that the view shows second (20_memory.md R52). -/
theorem pixelBytes_second (swap : Bool) (v : Pixel) :
    (pixelBytes swap v)[1]? = some (if swap then hi8 v else lo8 v) := by cases swap <;> rfl

/-- Settles O23: past its checks the operation is one pixel write, and the view shows a written cell. -/
theorem fbSetPixelRawWritesOneCell : Obligations.FbSetPixelRawWritesOneCell := by
  intro s k offset color
  refine ⟨fun hh hk hcell => ?_, fun hh hk hout => ?_, fun hh hk => exec_framebufferOp_invalidBuffer rfl rfl hh hk,
    fun hh => exec_halted hh _, decodeDescriptor_fbSetPixelRaw k offset color,
    fun x y hx hy hxy => exec_fbSetPixelRaw_eq_xy s k color hx hy hxy⟩
  · have hpre : preconditionError s (.fbSetPixelRaw k offset color) = none :=
      (preconditionError_of_bufferExists rfl rfl hh hk).trans (if_pos hcell)
    have hread := readPixel_writePixel_same s k.toNat color hcell
    obtain ⟨hfirst, hsecond⟩ :=
      view_written (s := returns .ok (writePixel k.toNat offset.toNat color s)) hcell hread
    exact ⟨_, exec_framebufferOp rfl hpre, rfl, hread, hfirst.trans (pixelBytes_first _ _),
      hsecond.trans (pixelBytes_second _ _), fun k' i h => readPixel_writePixel_other s color hcell h⟩
  · exact exec_refused ((preconditionError_of_bufferExists rfl rfl hh hk).trans (if_neg hout.not_gt))

/-! ## A framebuffer cleared (42_framebuffer.md R132) -/

/-- The descriptor of `FB_CLEAR`, at every value of its fields (30_encoding.md R76). -/
theorem decodeDescriptor_fbClear (k a1 a2 : Field) (color : Pixel) :
    decodeDescriptor (packDescriptor 0x12 k a1 a2 color) =
      if a1 = 0 ∧ a2 = 0 then .ok (.fbClear k color) else .error .mustBeZero := by
  simp [decodeDescriptor]

/-- A cleared framebuffer holds the colour in every cell. -/
theorem cellsOf_clearPixels (s : State) (k : Nat) (color : Pixel) :
    cellsOf (clearPixels k color s) k = List.replicate (fbSize s.cfg) (some color) := by
  refine List.eq_replicate_iff.mpr ⟨cellsOf_length _ _, fun c hc => ?_⟩
  obtain ⟨i, hi, rfl⟩ := List.mem_map.mp hc
  rw [readPixel_clearPixels, if_pos ⟨rfl, List.mem_range.mp hi⟩]

/-- The view of cells that all hold one colour repeats its two bytes. -/
theorem viewFrom_replicate (swap : Bool) (n : Nat) (color : Pixel) (count : Nat) :
    (viewFrom swap (List.replicate n (some color)) count).1 = (List.replicate n (pixelBytes swap color)).flatten := by
  induction n with
  | zero => rfl
  | succ n ih => rw [List.replicate_succ, viewFrom, ih, List.replicate_succ, List.flatten_cons]

theorem view_clearPixels (s : State) (k : Nat) (color : Pixel) :
    (view (clearPixels k color s) k).1 =
      (List.replicate (fbSize s.cfg) (pixelBytes (swapOf s.cfg k) color)).flatten := by
  rw [view, cellsOf_clearPixels, viewFrom_replicate, clearPixels_cfg]

/-- Settles O24: past its checks the operation is one clear, which every cell of the framebuffer reads and no other. -/
theorem fbClearSetsEveryCell : Obligations.FbClearSetsEveryCell := by
  intro s k color
  refine ⟨fun hh hk => ?_, fun hh hk => exec_framebufferOp_invalidBuffer rfl rfl hh hk, fun hh => exec_halted hh _,
    fun a1 a2 => decodeDescriptor_fbClear k a1 a2 color⟩
  have hpre : preconditionError s (.fbClear k color) = none := preconditionError_of_bufferExists rfl rfl hh hk
  refine ⟨_, exec_framebufferOp rfl hpre, rfl, fun i hi => ?_, fun k' i hne => ?_, view_clearPixels s _ color⟩
  · exact (readPixel_clearPixels s _ color _ _).trans (if_pos ⟨rfl, hi⟩)
  · exact (readPixel_clearPixels s _ color _ _).trans (if_neg fun h => hne h.1)

/-! ## The clear and its loop (42_framebuffer.md R132) -/

theorem Memory.fill_zero {m : Memory} (hm : Memory.wf m) (base : Nat) (v : Pixel) : Memory.fill m base 0 v = m := by
  refine Memory.ext (Memory.wf_fill base 0 v hm) hm fun a => ?_
  rw [Memory.read_fill, if_neg (by omega)]

/-- A fill of one cell more is the fill, then the write of that cell. -/
theorem Memory.fill_succ {m : Memory} (hm : Memory.wf m) (base n : Nat) (v : Pixel) :
    Memory.fill m base (n + 1) v = Memory.write (Memory.fill m base n v) (base + n) v := by
  refine Memory.ext (Memory.wf_fill _ _ v hm) (Memory.wf_write _ v (Memory.wf_fill _ _ v hm)) fun a => ?_
  rw [Memory.read_fill]
  by_cases ha : a = base + n
  · subst ha
    rw [Memory.read_write_same, if_pos (by omega)]
  · rw [Memory.read_write_other _ _ ha, Memory.read_fill]
    congr 1
    simp only [eq_iff_iff]
    omega

/-- The first `n` turns of the loop fill the first `n` cells. -/
theorem foldl_writePixel_range {s : State} (hwf : Memory.wf s.px) (k : Nat) (color : Pixel) (n : Nat) :
    (List.range n).foldl (fun t i => writePixel k i color t) s =
      { s with px := Memory.fill s.px (cellAddr s.cfg k 0) n color } := by
  induction n with
  | zero => rw [Memory.fill_zero hwf]; rfl
  | succ n ih => rw [List.range_succ, List.foldl_concat, ih, Memory.fill_succ hwf]; rfl

/-- Settles O25: the loop's invariant at its last turn. -/
theorem fbClearIsItsLoop : Obligations.FbClearIsItsLoop :=
  fun _ k color hwf => (foldl_writePixel_range hwf k color _).symm

/-! ## What a framebuffer operation reads (42_framebuffer.md R135) -/

/-- What a framebuffer operation writes to the store depends on the configuration and the store. -/
theorem prepare_framebufferOp_px_congr {i : Instr} {s u : State} (hi : isFramebufferOp i = true)
    (hcfg : u.cfg = s.cfg) (hpx : u.px = s.px) : (prepare i u).px = (prepare i s).px := by
  cases i with
  | fbSetPixelXy | fbSetPixelRaw | fbClear => simp [prepare, hcfg, hpx]
  | _ => cases hi

/-- The deciding error of a framebuffer operation depends on the configuration and `halted`. -/
theorem preconditionError_framebufferOp_congr {i : Instr} {s u : State} (hi : isFramebufferOp i = true)
    (hcfg : u.cfg = s.cfg) (hhalted : u.halted = s.halted) : preconditionError u i = preconditionError s i := by
  obtain ⟨k, hk⟩ : ∃ k, namedBuffer i = some k := by
    cases i with
    | fbSetPixelXy k | fbSetPixelRaw k | fbClear k => exact ⟨k, rfl⟩
    | _ => cases hi
  rw [preconditionError_framebufferOp u hi hk, preconditionError_framebufferOp s hi hk, hcfg, hhalted]

/-- A framebuffer operation changes nothing before its primitives but the store. -/
theorem prepare_framebufferOp {i : Instr} (hi : isFramebufferOp i = true) (s : State) :
    prepare i s = { s with px := (prepare i s).px } := by
  cases i with
  | fbSetPixelXy | fbSetPixelRaw | fbClear => rfl
  | _ => cases hi

/-- Settles O26: both states refuse with the same error, or both make the same change to the same store. -/
theorem framebufferOpsAreIndependentOfTheController :
    Obligations.FramebufferOpsAreIndependentOfTheController := by
  intro i s u hi hcfg hhalted hpx
  have hcongr : preconditionError u i = preconditionError s i := preconditionError_framebufferOp_congr hi hcfg hhalted
  cases hpre : preconditionError s i with
  | some r =>
    refine ⟨_, _, exec_refused hpre, exec_refused (hcongr.trans hpre), rfl, ?_⟩
    simp only [← hpx]
  | none =>
    refine ⟨_, _, exec_framebufferOp hi hpre, exec_framebufferOp hi (hcongr.trans hpre), ?_, ?_⟩
    · rw [prepare_framebufferOp hi s]
      rfl
    · rw [prepare_framebufferOp hi u, prepare_framebufferOp_px_congr hi hcfg hpx]
      rfl

end Sys2Proof.Machine
end

section
/-! Proofs of the statements about the exceptions: the halted block, the precondition errors and their order, the
transport errors, the stall, and what construction gives (60_exceptions.md). -/

namespace Sys2Proof.Machine
open Sys2Proof.Stated

/-! ## The halted block (60_exceptions.md R157) -/

/-- A halted block takes the host's next descriptor, legal or not, and hands over `Halted`. -/
theorem step_halted {s : State} {d : Descriptor} {rest : List Descriptor} (hh : s.halted = true) (hhost : hostOnly s)
    (hp : s.pending = d :: rest) : step s = .next (returns .halted { s with pending := rest }) := by
  cases hdec : decodeDescriptor d with
  | ok i =>
    rw [step_descriptor_ok hhost hp hdec]
    exact exec_halted (s := { s with pending := rest }) hh i
  | error e => rw [step_descriptor_error hhost hp hdec, if_pos hh]

/-- No step clears `halted` (10_state.md R26). -/
theorem step_keeps_halted {s t : State} (hh : s.halted = true) (h : step s = .next t) : t.halted = true := by
  rcases step_next h with ⟨-, rfl⟩ | ⟨c, u, i, hfetch, -, hexec⟩ | ⟨c, u, e, hfetch, -, rfl⟩
  · exact hh
  · obtain ⟨-, -, -, hkeep, -⟩ := exec_frame hexec
    exact hkeep (by rw [fetch_frame hfetch, hh])
  · rw [returns_halted, fetch_frame hfetch, hh]

/-- Settles O7: the check of `halted` comes first for operations and for illegal descriptors alike. -/
theorem haltedBlockRefusesEveryDescriptor : Obligations.HaltedBlockRefusesEveryDescriptor := by
  refine ⟨fun s d rest => step_halted, fun s t hh h => ?_, fun cfg s h => ?_⟩
  · have ht := step_keeps_halted hh h
    exact ⟨ht, ht⟩
  · obtain rfl := construct_block h
    rfl

/-! ## Precondition errors (60_exceptions.md R152) -/

/-- An operation hands over a precondition error only where its checks raise it. -/
theorem exec_next_precondition {i : Instr} {s t : State} {r : Result} (h : exec i s = .next t)
    (hr : t.reply = some r) (hclass : r.isPrecondition = true) :
    preconditionError s i = some r ∧ t = returns r s := by
  rcases exec_next h with ⟨q, hpre, rfl⟩ | ⟨-, u, -, -, -, -, rfl⟩ | ⟨-, u, q, n, e, f, -, -, hfail, -, -, rfl⟩
  · obtain rfl : q = r := Option.some.inj hr
    exact ⟨hpre, rfl⟩
  · obtain rfl : .ok = r := Option.some.inj hr
    cases hclass
  · obtain rfl : q = r := Option.some.inj hr
    rcases Result.isTransport_iff.mp (failsAs_isTransport hfail) with rfl | rfl <;> cases hclass

/-- The checks read no result, so an operation that was refused is refused again, with the same state. -/
theorem exec_refused_again {i : Instr} {s : State} {r : Result} (h : preconditionError s i = some r) :
    exec i (returns r s) = .next (returns r s) :=
  exec_refused (s := returns r s) h

/-- A code that was rejected is rejected again, with the same state. -/
theorem rejectCode_again {e : DecodeError} {s t : State} (h : rejectCode e s = .next t) :
    (∃ r, t = returns r s) ∧ rejectCode e t = .next t := by
  rcases rejectCode_cases e s with ⟨he, hs⟩ | ⟨-, hs⟩
  · rw [hs] at h
    cases h
    refine ⟨⟨_, rfl⟩, ?_⟩
    rcases rejectCode_cases e (returns (if s.halted then .halted else .illegalOperation) s) with ⟨-, ht⟩ | ⟨he', -⟩
    · exact ht
    · rcases he with rfl | rfl <;> simp at he'
  · rw [hs] at h
    cases h

/-- A step that hands over a precondition error takes the code and changes the result alone; wherever that code comes
next in the state it answered, the step answers the same state again. -/
theorem step_precondition {s t u : State} {c : Code} {r : Result} (hfetch : fetch s = some (c, u))
    (h : step s = .next t) (hr : t.reply = some r) (hclass : r.isPrecondition = true) :
    t = returns r u ∧ ∀ v, fetch v = some (c, t) → step v = .next t := by
  have hu : u.cfg = s.cfg := by rw [fetch_frame hfetch]
  have hv {v : State} (hfetch : fetch v = some (c, t)) : v.cfg = t.cfg := by rw [fetch_frame hfetch]
  rw [step_fetch hfetch] at h
  cases hdec : decode s.cfg.cmds c with
  | ok i =>
    rw [hdec] at h
    obtain ⟨hpre, rfl⟩ := exec_next_precondition h hr hclass
    refine ⟨rfl, fun v hnext => ?_⟩
    rw [step_of_decode hnext (by rw [hv hnext, returns_cfg, hu, hdec])]
    exact exec_refused_again hpre
  | error e =>
    rw [hdec] at h
    obtain ⟨⟨q, rfl⟩, hagain⟩ := rejectCode_again h
    obtain rfl : q = r := Option.some.inj hr
    refine ⟨rfl, fun v hnext => ?_⟩
    rw [step_fetch hnext, hv hnext, returns_cfg, hu, hdec]
    exact hagain

/-- Settles O8: the checks read neither the result nor what is still to run, which is all that a refusal changes. -/
theorem preconditionErrorChangesNothing : Obligations.PreconditionErrorChangesNothing := by
  refine ⟨fun i s t r h hr hclass => ?_, fun s t d rest r hhost hp h hr hclass => ?_,
    fun s t symbols rest r hcalls h hr hclass => ?_⟩
  · obtain ⟨hpre, rfl⟩ := exec_next_precondition h hr hclass
    exact ⟨rfl, exec_refused_again hpre⟩
  · obtain ⟨rfl, hagain⟩ := step_precondition (fetch_host hhost hp) h hr hclass
    exact ⟨rfl, hagain _ (fetch_host hhost rfl)⟩
  · obtain ⟨rfl, hagain⟩ := step_precondition (fetch_engine hcalls) h hr hclass
    exact ⟨rfl, hagain _ (fetch_engine rfl)⟩

/-! ## The display states that reject an operation (60_exceptions.md R153) -/

theorem preconditionError_of_rejected {i : Instr} {s : State} (hh : s.halted = false)
    (h : acceptedIn i s.ds = false) : preconditionError s i = some .invalidState := by
  simp [preconditionError, hh, h]

theorem rangeError_ne_invalidState (cfg : Cfg) (i : Instr) : rangeError cfg i ≠ some .invalidState := by
  cases i with
  | setAddressWindow | fbSetPixelXy | fbSetPixelRaw => simp [rangeError]
  | _ => nofun

/-- `InvalidState` is raised by the check of the display state alone. -/
theorem preconditionError_ne_invalidState {i : Instr} {s : State} (h : acceptedIn i s.ds = true) :
    preconditionError s i ≠ some .invalidState := by
  unfold preconditionError
  cases s.halted <;> cases namedBuffer i <;> simp [h, rangeError_ne_invalidState, ite_eq_iff]

/-- Settles O9: the second check is the table, and no other one raises `InvalidState`. -/
theorem acceptanceByDisplayState : Obligations.AcceptanceByDisplayState := by
  intro i s _ hh
  refine ⟨fun hrej => exec_refused (preconditionError_of_rejected hh hrej), fun hacc t h hr => ?_⟩
  obtain ⟨hpre, -⟩ := exec_next_precondition h hr rfl
  exact preconditionError_ne_invalidState hacc hpre

/-! ## The order of the checks and the ends of the action phase (60_exceptions.md R159, 41_controller.md R116) -/

/-- Settles O10: the checks are those of `preconditionError`; past them `exec` is the run of its event list, and a run
has three ends. -/
theorem firstFailingCheckDecides : Obligations.FirstFailingCheckDecides := by
  refine ⟨fun i s r => exec_refused, fun i s hpre => ?_, fun s d rest hhost hp hill => ?_⟩
  · rcases exec_next_or_fault i s with ⟨t, h⟩ | ⟨u, h⟩
    · rcases exec_next h with ⟨r, hr, -⟩ | ⟨-, u, -, htr, -, -, rfl⟩ | ⟨-, u, r, n, e, f, -, hn, hfail, htr, -, rfl⟩
      · rw [hpre] at hr
        cases hr
      · exact .inl ⟨_, h, rfl, by simp [htr]⟩
      · exact .inr (.inl ⟨_, r, n, e, f, h, rfl, failsAs_isTransport hfail, hn, hfail, by simp [htr]⟩)
    · exact .inr (.inr ⟨u, h⟩)
  · obtain ⟨e, he⟩ := (illegalDescriptor_iff_error d).mp hill
    exact step_descriptor_error hhost hp he

/-! ## Transport errors (60_exceptions.md R154) -/

@[simp] theorem prepare_win (i : Instr) (s : State) : (prepare i s).win = s.win := by rw [prepare_frame]
@[simp] theorem prepare_reply (i : Instr) (s : State) : (prepare i s).reply = s.reply := by rw [prepare_frame]
@[simp] theorem prepare_pending (i : Instr) (s : State) : (prepare i s).pending = s.pending := by rw [prepare_frame]
@[simp] theorem prepare_engineCalls (i : Instr) (s : State) : (prepare i s).engineCalls = s.engineCalls := by
  rw [prepare_frame]

/-- An operation that plans an event writes no pixel: the framebuffer operations plan none (42_framebuffer.md R135). -/
theorem prepare_px_of_planned {i : Instr} {s : State} {n : Nat} {e : Event} (h : (plannedEvents s i)[n]? = some e) :
    (prepare i s).px = s.px := by
  cases i with
  | fbSetPixelXy | fbSetPixelRaw | fbClear => cases h
  | _ => rfl

/-- The failure tells the result. -/
theorem result_of_failsAs {e f : Event} {r : Result} (h : failsAs e r f) :
    (∀ role level, f = .pinFail role level → r = .transportPin) ∧ (∀ bs k, f = .txFail bs k → r = .transportBus) := by
  cases e with
  | pin role level =>
    obtain ⟨rfl, rfl⟩ := h
    exact ⟨fun _ _ _ => rfl, nofun⟩
  | tx bs =>
    obtain ⟨rfl, k, -, rfl⟩ := h
    exact ⟨nofun, fun _ _ _ => rfl⟩
  | pinFail | wait | txFail => exact h.elim

/-- The failures among the events an operation added tell its result. -/
theorem reply_of_failure {i : Instr} {s t : State} {events : List Event} (h : exec i s = .next t)
    (hevents : t.trace = s.trace ++ events) :
    (∀ role level, .pinFail role level ∈ events → t.reply = some .transportPin) ∧
      (∀ bs k, .txFail bs k ∈ events → t.reply = some .transportBus) := by
  have hpin := pinFail_notMem_plannedEvents i s
  have hbus := txFail_notMem_plannedEvents i s
  rcases exec_next h with ⟨r, -, rfl⟩ | ⟨-, u, -, htr, -, -, rfl⟩ | ⟨-, u, r, n, e, f, -, -, hfail, htr, -, rfl⟩
  · obtain rfl : [] = events := by simpa using hevents
    exact ⟨nofun, nofun⟩
  · obtain rfl : plannedEvents s i = events := by simpa [htr] using hevents
    exact ⟨fun role level hm => absurd hm (hpin role level), fun bs k hm => absurd hm (hbus bs k)⟩
  · obtain rfl : (plannedEvents s i).take n ++ [f] = events := by simpa [htr] using hevents
    obtain ⟨hpinFail, htxFail⟩ := result_of_failsAs hfail
    simp only [List.mem_append, List.mem_singleton]
    refine ⟨fun role level hm => ?_, fun bs k hm => ?_⟩
    · have hf := hm.resolve_left fun hm => hpin role level (List.mem_of_mem_take hm)
      exact congrArg some (hpinFail role level hf.symm)
    · have hf := hm.resolve_left fun hm => hbus bs k (List.mem_of_mem_take hm)
      exact congrArg some (htxFail bs k hf.symm)

/-- An operation that returns a transport error has performed its event list up to the event that failed. -/
theorem exec_next_transport {i : Instr} {s t : State} {r : Result} (h : exec i s = .next t)
    (hr : t.reply = some r) (hclass : r.isTransport = true) :
    ∃ u n e f, ActionFrame (prepare i s) u ∧ (plannedEvents s i)[n]? = some e ∧ failsAs e r f ∧
      u.trace = s.trace ++ (plannedEvents s i).take n ++ [f] ∧
      (∀ q, latchOf u q = ((plannedEvents s i).take n ++ [f]).foldl (latchStep q) (latchOf s q)) ∧
      t = returns r (setHalted u) := by
  rcases exec_next h with ⟨q, hpre, rfl⟩ | ⟨-, u, -, -, -, -, rfl⟩ | ⟨-, u, q, n, e, f, hf, hn, hfail, htr, hl, rfl⟩
  · obtain rfl : q = r := Option.some.inj hr
    have hpreClass := preconditionError_isPrecondition hpre
    rcases Result.isTransport_iff.mp hclass with rfl | rfl <;> cases hpreClass
  · obtain rfl : .ok = r := Option.some.inj hr
    cases hclass
  · obtain rfl : q = r := Option.some.inj hr
    exact ⟨u, n, e, f, hf, hn, hfail, by simp [htr], by simpa using hl, rfl⟩

/-- Settles O12: the run stops at the event that failed, before the commit, and every latch follows the events up to
there. -/
theorem transportErrorStopsTheOperation : Obligations.TransportErrorStopsTheOperation := by
  refine ⟨fun i s t events => reply_of_failure, fun i s t r h hr hclass => ?_⟩
  obtain ⟨u, n, e, f, hframe, hn, hfail, htr, hl, rfl⟩ := exec_next_transport h hr hclass
  have hpx := prepare_px_of_planned hn
  refine ⟨rfl, by simp [hframe.ds], by simp [hframe.win], by simp [hframe.ramwrOpen], by simp [hframe.px, hpx],
    by simp [hframe.cfg], by simp [hframe.pending], by simp [hframe.engineCalls],
    ⟨n, e, f, hn, hfail, htr, by simpa using hl⟩, fun role level hlast => ?_⟩
  obtain rfl : f = .pinFail role level := by simpa [htr] using hlast
  simp [hl, latchStep]

/-! ## The stall (60_exceptions.md R155, 40_protocol.md R102) -/

/-- Where more than n elements satisfy p, one of them comes after exactly n others. -/
theorem exists_append_of_lt_countP {α : Type} {p : α → Bool} {l : List α} {n : Nat} (h : n < l.countP p) :
    ∃ before a after, l = before ++ a :: after ∧ p a = true ∧ before.countP p = n := by
  induction l generalizing n with
  | nil => simp at h
  | cons a l ih =>
    by_cases ha : p a = true
    · cases n with
      | zero => exact ⟨[], a, l, rfl, ha, rfl⟩
      | succ n =>
        obtain ⟨before, b, after, rfl, hb, hcount⟩ := ih (n := n) (by simpa [ha] using h)
        exact ⟨a :: before, b, after, rfl, hb, by simp [ha, hcount]⟩
    · obtain ⟨before, b, after, rfl, hb, hcount⟩ := ih (n := n) (by simpa [ha] using h)
      exact ⟨a :: before, b, after, rfl, hb, by simp [ha, hcount]⟩

/-- Where no burst fails, the bursts are the bus writes. -/
theorem countP_burstOf {es : List Event} (h : ∀ bs k, Event.txFail bs k ∉ es) :
    es.countP (fun e => (burstOf e).isSome) = busWrites es := by
  refine List.countP_congr fun e he => ?_
  cases e with
  | txFail bs k => exact absurd he (h bs k)
  | pin | pinFail | wait | tx => simp [burstOf]

/-- An operation whose checks pass and whose environment answers Ok up to a bus write, which it never answers, stalls
there. -/
theorem exec_stalls_of_plan {i : Instr} {s : State} {before after : List Event} {bs : List Byte}
    (hpre : preconditionError s i = none) (hplan : plannedEvents s i = before ++ .tx bs :: after)
    (hp : pinsOk s (pinDrives before)) (hb : busOk s (busWrites before))
    (hnever : busAnswer s (busWrites before) = .never) : ∃ u, exec i s = .fault (.busStalled u) := by
  have hbefore : ∀ r l, Event.pinFail r l ∉ before := fun r l hm =>
    pinFail_notMem_plannedEvents i s r l (hplan ▸ List.mem_append_left _ hm)
  have hnext : busAnswer (afterPlan before (prepare i s)) 0 = .never := by
    rw [← hnever]
    simp [busAnswer, afterPlan, envAfter, List.getD_eq_getElem?_getD]
  rw [exec_eq, hpre, hplan, runPlan_append, runPlan_ok hbefore, Flow.done_andThen, runPlan_cons, runEvent,
    busWrite_never hnext]
  · exact ⟨_, rfl⟩
  · simpa [pinsOk, pinAnswer] using hp
  · simpa [busOk, busAnswer] using hb

/-- Settles O13: a bus write that is never answered stops the run of the event list there, and a stalled run has
changed nothing but the trace, the latches and the answers used up. -/
theorem stalledBusNeverReturns : Obligations.StalledBusNeverReturns := by
  refine ⟨fun i s n hpre hp hb hn hnever => ?_, fun i s u h => ?_⟩
  · obtain ⟨before, e, after, hplan, he, hcount⟩ := exists_append_of_lt_countP hn
    have htxFail (bs : List Byte) (k : Nat) : Event.txFail bs k ∉ before ++ e :: after :=
      hplan ▸ txFail_notMem_plannedEvents i s bs k
    obtain ⟨bs, rfl⟩ : ∃ bs, e = .tx bs := by
      cases e with
      | tx bs => exact ⟨bs, rfl⟩
      | txFail bs k => exact absurd (by simp) (htxFail bs k)
      | pin | pinFail | wait => cases he
    have hwrites : busWrites before = n :=
      (countP_burstOf fun bs k hm => htxFail bs k (List.mem_append_left _ hm)).symm.trans hcount
    have hdrives : pinDrives before ≤ (plannedEvents s i).length := by
      rw [hplan, List.length_append]
      exact List.countP_le_length.trans (Nat.le_add_right _ _)
    subst hwrites
    exact exec_stalls_of_plan hpre hplan (fun j hj => hp j (hj.trans_le hdrives)) hb hnever
  · obtain ⟨hpre, hframe, hnever, n, bs, hn, htr⟩ := exec_fault h
    obtain ⟨hh, -⟩ := preconditionError_eq_none_iff.mp hpre
    have hpx := prepare_px_of_planned hn
    exact ⟨hh, by simp [hframe.halted, hh], by simp [hframe.reply], by simp [hframe.ds], by simp [hframe.win],
      by simp [hframe.ramwrOpen], hframe.px.trans hpx, by simpa using hnever, n, bs, hn, by simp [htr]⟩

/-! ## Construction (60_exceptions.md R156, 10_state.md R38, R39) -/

theorem construct_of_cfgWf {cfg : Cfg} (h : cfgWf cfg = true) : construct cfg = .block (State.initial cfg) := by
  obtain ⟨hdc, -⟩ := cfgWf_commands h
  simp [construct, hdc, h]

/-- The reset state of a well-formed configuration meets every invariant: it has done nothing. -/
theorem initial_blockInv {cfg : Cfg} (h : cfgWf cfg = true) : blockInv (State.initial cfg) where
  cfg := h
  store := ⟨.nil, nofun⟩
  window := ⟨nofun, nofun, nofun⟩
  latch := fun r => by cases r <;> rfl
  shape := rfl
  halt := fun _ => rfl

/-- A block that has written nothing reads `Unknown` in every cell (10_state.md R39). -/
theorem readPixel_initial (cfg : Cfg) (k i : Nat) : readPixel (State.initial cfg) k i = none := ite_self none

/-- Settles O41: `construct` asks for DC first, then for a well-formed configuration, which reads no other role. -/
theorem constructionGivesTheResetState : Obligations.ConstructionGivesTheResetState := by
  refine ⟨fun cfg hdc => if_pos hdc, fun cfg hdc hwf => ?_, fun cfg rst bl cs sdi hwf => hwf, fun cfg hwf => ?_⟩
  · simp [construct, hdc, hwf]
  · exact ⟨State.initial cfg, construct_of_cfgWf hwf, initial_blockInv hwf, rfl, rfl, rfl,
      fun r => by cases r <;> rfl, rfl, rfl, readPixel_initial cfg, rfl⟩

end Sys2Proof.Machine
end

section
/-! Proofs of the statements about the whole codec: every well-formed instruction and every code that decodes
(30_encoding.md sections 1 and 2). -/

namespace Sys2Proof.Machine

/-! ## Bursts (30_encoding.md R78 to R80) -/

theorem decodeBurst_command (cmds : PanelCommands) (c : Byte) :
    decodeBurst cmds [commandSymbol c] = .ok (decodeCommand cmds c) := by
  simp [decodeBurst]

theorem decodeBurst_data (cmds : PanelCommands) (b : Byte) (more : List Byte) :
    decodeBurst cmds ((b :: more).map dataSymbol) = .ok (.sendData b more) := by
  simp [decodeBurst, Function.comp_def]

/-- A list of symbols that decodes is one command symbol, or the data symbols of one or more bytes. -/
theorem decodeBurst_ok {cmds : PanelCommands} {symbols : List Symbol} {i : Instr}
    (h : decodeBurst cmds symbols = .ok i) :
    (∃ c, symbols = [commandSymbol c] ∧ i = decodeCommand cmds c) ∨
      ∃ b more, symbols = (b :: more).map dataSymbol ∧ i = .sendData b more := by
  cases symbols with
  | nil => cases h
  | cons y rest =>
    cases hy : isDataSymbol y with
    | true =>
      cases hrest : rest.all isDataSymbol with
      | true =>
        obtain rfl : .sendData (symbolByte y) (rest.map symbolByte) = i := by simpa [decodeBurst, hy, hrest] using h
        have hback : (rest.map symbolByte).map dataSymbol = rest := by
          rw [List.map_map]
          exact (List.map_congr_left fun z hz => dataSymbol_symbolByte (List.all_eq_true.mp hrest z hz)).trans
            (List.map_id _)
        exact .inr ⟨_, _, by rw [List.map_cons, dataSymbol_symbolByte hy, hback], rfl⟩
      | false => simp [decodeBurst, hy, hrest] at h
    | false =>
      cases rest with
      | nil =>
        obtain rfl : decodeCommand cmds (symbolByte y) = i := by simpa [decodeBurst, hy] using h
        exact .inl ⟨_, by rw [commandSymbol_symbolByte hy], rfl⟩
      | cons z rest => simp [decodeBurst, hy] at h

/-- The command byte of an engine call that sends one (30_encoding.md R80, 40_protocol.md R103). -/
def commandByte (cmds : PanelCommands) : Instr → Option Byte
  | .sendCommand c => some c
  | .wireSlpout => some cmds.slpout
  | .wireColmod => some cmds.colmod
  | .wireDispon => some cmds.dispon
  | .wireMadctl => some cmds.madctl
  | .wireCaset => some cmds.caset
  | .wireRaset => some cmds.raset
  | .wireRamwr => some cmds.ramwr
  | .hardReset => none
  | .init => none
  | .setOrientation _ => none
  | .setAddressWindow _ _ _ _ => none
  | .eatFramebuffer _ => none
  | .setBacklight _ => none
  | .fbSetPixelXy _ _ _ _ => none
  | .fbSetPixelRaw _ _ _ => none
  | .fbClear _ _ => none
  | .sendData _ _ => none

theorem encode_of_commandByte {cmds : PanelCommands} {i : Instr} {c : Byte} (h : commandByte cmds i = some c) :
    encode cmds i = .burst [commandSymbol c] := by
  cases i with
  | sendCommand | wireSlpout | wireColmod | wireDispon | wireMadctl | wireCaset | wireRaset | wireRamwr =>
    obtain rfl := Option.some.inj h
    rfl
  | _ => cases h

/-- Each instruction encodes to a descriptor, to one command symbol, or to data symbols. -/
theorem encode_cases (cmds : PanelCommands) (i : Instr) :
    (∃ d, encode cmds i = .descriptor d) ∨ (∃ c, commandByte cmds i = some c) ∨
      ∃ b more, i = .sendData b more := by
  cases i with
  | sendCommand | wireSlpout | wireColmod | wireDispon | wireMadctl | wireCaset | wireRaset | wireRamwr =>
    exact .inr (.inl ⟨_, rfl⟩)
  | sendData b more => exact .inr (.inr ⟨b, more, rfl⟩)
  | _ => exact .inl ⟨_, rfl⟩

/-- The instruction that a command byte is read as sends that byte, and is the named row where there is one. -/
theorem decodeCommand_spec (cmds : PanelCommands) (c : Byte) :
    commandByte cmds (decodeCommand cmds c) = some c ∧ (decodeCommand cmds c).wf cmds = true := by
  unfold decodeCommand
  split_ifs with hslpout hcolmod hdispon hmadctl hcaset hraset hramwr
  case neg => exact ⟨rfl, by simp [Instr.wf, PanelCommands.bytes, *]⟩
  all_goals exact ⟨congrArg some (Eq.symm ‹_›), rfl⟩

/-- With distinct command bytes, a byte is sent by one well-formed instruction alone. -/
theorem decodeCommand_of_commandByte {cmds : PanelCommands} (hdistinct : cmds.distinct) {i : Instr} {c : Byte}
    (hwf : i.wf cmds = true) (h : commandByte cmds i = some c) : decodeCommand cmds c = i := by
  simp only [PanelCommands.distinct, PanelCommands.bytes, List.nodup_cons, List.mem_cons, not_or] at hdistinct
  cases i with
  | sendCommand b =>
    obtain rfl := Option.some.inj h
    simp only [Instr.wf, PanelCommands.bytes, List.contains_eq_mem, Bool.not_eq_true', decide_eq_false_iff_not,
      List.mem_cons, not_or] at hwf
    simp [decodeCommand, hwf]
  | wireSlpout | wireColmod | wireDispon | wireMadctl | wireCaset | wireRaset | wireRamwr =>
    obtain rfl := Option.some.inj h
    simp [decodeCommand, hdistinct, eq_comm]
  | _ => cases h

/-! ## Both directions (30_encoding.md sections 1 and 2) -/

/-- Settles O2: a descriptor gives back its operation, a command byte its one well-formed instruction, data
its bytes. -/
theorem decodeOfEncodeIsIdentity : Obligations.DecodeOfEncodeIsIdentity := by
  intro cmds i hdistinct hwf
  rcases encode_cases cmds i with ⟨d, hd⟩ | ⟨c, hc⟩ | ⟨b, more, rfl⟩
  · rw [hd]
    exact decodeDescriptor_of_encode hd
  · rw [encode_of_commandByte hc, decode, decodeBurst_command, decodeCommand_of_commandByte hdistinct hwf hc]
  · exact decodeBurst_data cmds b more

/-- Every host operation is well formed, with every operand (30_encoding.md R75, R76). -/
theorem wf_of_opcode (cmds : PanelCommands) {i : Instr} (h : i.opcode.isSome = true) : i.wf cmds = true := by
  cases i with
  | sendCommand => cases h
  | _ => rfl

/-- Settles O3: no field of a descriptor and no symbol of a burst is lost in decoding, and a named byte is read as its
own row. -/
theorem encodeOfDecodeIsIdentity : Obligations.EncodeOfDecodeIsIdentity := by
  intro cmds c i h
  cases c with
  | descriptor d =>
    exact ⟨wf_of_opcode cmds (opcode_isSome_of_decodeDescriptor h), encode_of_decodeDescriptor cmds h⟩
  | burst symbols =>
    rcases decodeBurst_ok h with ⟨c, rfl, rfl⟩ | ⟨b, more, rfl, rfl⟩
    · obtain ⟨hbyte, hwf⟩ := decodeCommand_spec cmds c
      exact ⟨hwf, encode_of_commandByte hbyte⟩
    · exact ⟨rfl, rfl⟩

/-- Settles O1: each word read by the decoder, by evaluation. -/
theorem writtenOutWordsDecode : Obligations.WrittenOutWordsDecode :=
  ⟨by decide, by decide, by decide, by decide, by decide, by decide, by decide⟩

end Sys2Proof.Machine
end

section
/-! Proofs of the statements about what every operation does and leaves alone: the result it hands over, the pins and
the bus it uses, when it returns, and what no step changes (10_state.md, 60_exceptions.md). -/

namespace Sys2Proof.Machine

/-! ## The operations that use neither DC nor the bus (41_controller.md R110, R115, 42_framebuffer.md R135) -/

/-- `hard_reset`, `set_backlight` and the framebuffer operations. -/
def UsesNoBus (i : Instr) : Prop := i = .hardReset ∨ (∃ on, i = .setBacklight on) ∨ isFramebufferOp i = true

/-- They plan drives of RST and BL and waits alone. -/
theorem mem_plannedEvents_of_noBus {i : Instr} (hi : UsesNoBus i) {s : State} {e : Event} (h : e ∈ plannedEvents s i) :
    (∃ r l, e = .pin r l ∧ r ≠ .dc) ∨ ∃ t, e = .wait t := by
  have hdrive {r : PinRole} {l : Level} (h : e ∈ driveEvents s.cfg r l) (hr : r ≠ .dc) :
      ∃ r l, e = .pin r l ∧ r ≠ .dc := by
    unfold driveEvents at h
    split at h
    · exact ⟨r, l, List.mem_singleton.mp h, hr⟩
    · cases h
  have hwait {t : Nat} (h : e ∈ waitEvents t) : ∃ t, e = .wait t := by
    unfold waitEvents at h
    split at h
    · cases h
    · exact ⟨t, List.mem_singleton.mp h⟩
  rcases hi with rfl | ⟨on, rfl⟩ | hi
  · unfold plannedEvents at h
    obtain ((h | h) | h) | h := by simpa only [List.mem_append] using h
    · exact .inl (hdrive h nofun)
    · exact .inr (hwait h)
    · exact .inl (hdrive h nofun)
    · exact .inr (hwait h)
  · exact .inl (hdrive h nofun)
  · cases i with
    | fbSetPixelXy | fbSetPixelRaw | fbClear => cases h
    | _ => cases hi

theorem tx_notMem_plannedEvents_of_noBus {i : Instr} (hi : UsesNoBus i) (s : State) (bs : List Byte) :
    .tx bs ∉ plannedEvents s i := by
  intro h
  rcases mem_plannedEvents_of_noBus hi h with ⟨r, l, he, -⟩ | ⟨t, he⟩ <;> cases he

theorem pin_dc_notMem_plannedEvents_of_noBus {i : Instr} (hi : UsesNoBus i) (s : State) (l : Level) :
    .pin .dc l ∉ plannedEvents s i := by
  intro h
  rcases mem_plannedEvents_of_noBus hi h with ⟨r, m, he, hr⟩ | ⟨t, he⟩
  · exact hr (Event.pin.inj he).1.symm
  · cases he

/-! ## The result handed over (60_exceptions.md R150, R151) -/

theorem mayRaise_of_rangeError {cfg : Cfg} {i : Instr} {r : Result} (h : rangeError cfg i = some r) :
    mayRaise i r = true := by
  cases i with
  | setAddressWindow | fbSetPixelXy | fbSetPixelRaw =>
    obtain ⟨-, hr⟩ := Option.ite_none_left_eq_some.mp h
    obtain rfl := Option.some.inj hr
    rfl
  | _ => cases h

theorem mayRaise_halted (i : Instr) : mayRaise i .halted = true := by cases i <;> rfl

theorem mayRaise_ok (i : Instr) : mayRaise i .ok = true := by cases i <;> rfl

theorem mayRaise_invalidState_of_rejected {i : Instr} {ds : DisplayState} (h : acceptedIn i ds = false) :
    mayRaise i .invalidState = true := by
  cases i with
  | init | setOrientation | setAddressWindow | eatFramebuffer => rfl
  | _ => cases h

theorem mayRaise_invalidBuffer {i : Instr} {k : Field} (h : namedBuffer i = some k) :
    mayRaise i .invalidBuffer = true := by
  cases i with
  | eatFramebuffer | fbSetPixelXy | fbSetPixelRaw | fbClear => rfl
  | _ => cases h

/-- Each check raises a result that the table names for the operation (60_exceptions.md R159, R151). -/
theorem mayRaise_of_preconditionError {i : Instr} {s : State} {r : Result} (h : preconditionError s i = some r) :
    mayRaise i r = true := by
  unfold preconditionError at h
  split at h
  · cases h
    exact mayRaise_halted i
  · split at h
    · next hrejected =>
      cases h
      exact mayRaise_invalidState_of_rejected hrejected
    · split at h
      · next k hk =>
        split at h
        · cases h
          exact mayRaise_invalidBuffer hk
        · exact mayRaise_of_rangeError h
      · exact mayRaise_of_rangeError h

/-- An operation that plans a drive may raise the pin error. -/
theorem mayRaise_transportPin {i : Instr} {s : State} {r : PinRole} {l : Level} (h : .pin r l ∈ plannedEvents s i) :
    mayRaise i .transportPin = true := by
  cases i with
  | fbSetPixelXy | fbSetPixelRaw | fbClear => cases h
  | _ => rfl

/-- An operation that plans a burst may raise the bus error. -/
theorem mayRaise_transportBus {i : Instr} {s : State} {bs : List Byte} (h : .tx bs ∈ plannedEvents s i) :
    mayRaise i .transportBus = true := by
  cases i with
  | hardReset => exact absurd h (tx_notMem_plannedEvents_of_noBus (.inl rfl) s bs)
  | setBacklight on => exact absurd h (tx_notMem_plannedEvents_of_noBus (.inr (.inl ⟨on, rfl⟩)) s bs)
  | fbSetPixelXy | fbSetPixelRaw | fbClear => cases h
  | _ => rfl

/-- The failure of a planned event is one that the table names for the operation. -/
theorem mayRaise_of_failsAs {i : Instr} {s : State} {e f : Event} {r : Result} (he : e ∈ plannedEvents s i)
    (h : failsAs e r f) : mayRaise i r = true := by
  cases e with
  | pin role level =>
    obtain ⟨rfl, -⟩ := h
    exact mayRaise_transportPin he
  | tx bs =>
    obtain ⟨rfl, -⟩ := h
    exact mayRaise_transportBus he
  | pinFail | wait | txFail => exact h.elim

/-- Settles O11: an operation ends in a check, in `Ok`, or in the failure of an event it planned. -/
theorem everyReturnHandsOverItsResult : Obligations.EveryReturnHandsOverItsResult := by
  refine ⟨fun i s t h => ?_, by decide⟩
  rcases exec_next h with ⟨r, hpre, rfl⟩ | ⟨-, u, -, -, -, -, rfl⟩ | ⟨-, u, r, n, e, f, -, hn, hfail, -, -, rfl⟩
  · exact ⟨r, rfl, mayRaise_of_preconditionError hpre⟩
  · exact ⟨.ok, rfl, mayRaise_ok i⟩
  · exact ⟨r, rfl, mayRaise_of_failsAs (List.mem_of_getElem? hn) hfail⟩

/-! ## When an operation returns (70_reset_and_hazards.md R199) -/

/-- An operation that does not return has planned a burst and met an answer `Never`. -/
theorem exec_next_of_no_stall {i : Instr} {s : State}
    (h : BusAnswer.never ∉ s.env.bus ∨ ∀ bs, .tx bs ∉ plannedEvents s i) : ∃ t, exec i s = .next t := by
  refine (exec_next_or_fault i s).resolve_right ?_
  rintro ⟨u, hu⟩
  obtain ⟨-, -, hnever, n, bs, hn, -⟩ := exec_fault hu
  rcases h with hbus | hplan
  · exact hbus (by simpa using hnever)
  · exact hplan bs (List.mem_of_getElem? hn)

/-- Settles O14: an operation stalls only at a burst it planned, on an answer `Never`. -/
theorem operationsReturnWhenTheBusAnswers : Obligations.OperationsReturnWhenTheBusAnswers := by
  have hnoBus {i : Instr} (hi : UsesNoBus i) (s : State) : ∃ t, exec i s = .next t :=
    exec_next_of_no_stall (.inr (tx_notMem_plannedEvents_of_noBus hi s))
  exact ⟨fun i s h => exec_next_of_no_stall (.inl h), hnoBus (.inl rfl), fun on => hnoBus (.inr (.inl ⟨on, rfl⟩)),
    fun i s hi => hnoBus (.inr (.inr hi)) s⟩

/-! ## Pins and operations (10_state.md R24, R25) -/

/-- A burst that an event list sends or fails to send is one that was to be sent there. -/
theorem tx_of_failsAs {e f : Event} {res : Result} {bs : List Byte} {n : Nat} (h : failsAs e res f) :
    f ≠ .tx bs ∧ (f = .txFail bs n → e = .tx bs) := by
  cases e with
  | pin r l =>
    obtain ⟨-, rfl⟩ := h
    simp
  | tx bs' =>
    obtain ⟨-, k, -, rfl⟩ := h
    simp +contextual
  | pinFail | wait | txFail => exact h.elim

/-- The bursts, whole or failed, among the events an instruction adds are planned ones. -/
theorem tx_mem_plannedEvents_of_exec {i : Instr} {s t : State} {events : List Event} {bs : List Byte} {n : Nat}
    (h : exec i s = .next t) (hevents : t.trace = s.trace ++ events)
    (hm : .tx bs ∈ events ∨ .txFail bs n ∈ events) : .tx bs ∈ plannedEvents s i := by
  rcases exec_next h with ⟨r, -, rfl⟩ | ⟨-, u, -, htr, -, -, rfl⟩ | ⟨-, u, r, m, e, f, -, he, hfail, htr, -, rfl⟩
  · obtain rfl : [] = events := by simpa using hevents
    exact hm.elim (nomatch ·) (nomatch ·)
  · obtain rfl : plannedEvents s i = events := by simpa [htr] using hevents
    exact hm.resolve_right (txFail_notMem_plannedEvents i s bs n)
  · obtain rfl : (plannedEvents s i).take m ++ [f] = events := by simpa [htr] using hevents
    obtain ⟨hne, htx⟩ := tx_of_failsAs (bs := bs) (n := n) hfail
    simp only [List.mem_append, List.mem_singleton] at hm
    rcases hm with (hm | hm) | (hm | hm)
    · exact List.mem_of_mem_take hm
    · exact absurd hm.symm hne
    · exact absurd (List.mem_of_mem_take hm) (txFail_notMem_plannedEvents i s bs n)
    · exact htx hm.symm ▸ List.mem_of_getElem? he

/-- A pin of which an instruction plans no drive: it adds no event of it, and leaves its latch. -/
theorem pin_frame_of_not_planned {i : Instr} {s t : State} {events : List Event} {r : PinRole}
    (hl : ∀ q, latchOf t q = events.foldl (latchStep q) (latchOf s q))
    (hpins : ∀ r l, .pin r l ∈ events ∨ .pinFail r l ∈ events → .pin r l ∈ plannedEvents s i)
    (hplan : ∀ l, .pin r l ∉ plannedEvents s i) :
    (∀ l, .pin r l ∉ events ∧ .pinFail r l ∉ events) ∧ latchOf t r = latchOf s r := by
  have hnone (l : Level) : .pin r l ∉ events ∧ .pinFail r l ∉ events :=
    ⟨fun hm => hplan l (hpins r l (.inl hm)), fun hm => hplan l (hpins r l (.inr hm))⟩
  exact ⟨hnone, by rw [hl, foldl_latchStep_of_notMem hnone]⟩

/-- Settles O38: the events added are planned ones or their failures, and the latches follow them. -/
theorem eachPinHasItsOperations : Obligations.EachPinHasItsOperations := by
  intro i s t h
  obtain ⟨events, htr, hl, hpins⟩ := exec_events h
  have hbl (hi : ∀ on, i ≠ .setBacklight on) := pin_frame_of_not_planned (r := .bl) hl hpins fun l hm => by
    rcases role_of_pin_mem_plannedEvents hm with hr | ⟨hr, -⟩ | ⟨-, on, hon⟩
    · cases hr
    · cases hr
    · exact hi on hon
  have hrst (hi : i ≠ .hardReset) := pin_frame_of_not_planned (r := .rst) hl hpins fun l hm => by
    rcases role_of_pin_mem_plannedEvents hm with hr | ⟨-, hreset⟩ | ⟨hr, -⟩
    · cases hr
    · exact hi hreset
    · cases hr
  have hdc (hi : UsesNoBus i) :=
    pin_frame_of_not_planned (r := .dc) hl hpins (pin_dc_notMem_plannedEvents_of_noBus hi s)
  refine ⟨fun hi => (hbl hi).2, fun hi => (hrst hi).2, fun hi => (hdc hi).2, events, htr, fun hi => (hbl hi).1,
    fun hi => (hrst hi).1, fun hi l bs n => ?_⟩
  have hburst (hm : .tx bs ∈ events ∨ .txFail bs n ∈ events) : False :=
    tx_notMem_plannedEvents_of_noBus hi s bs (tx_mem_plannedEvents_of_exec h htr hm)
  obtain ⟨hnone, -⟩ := hdc hi
  obtain ⟨hpin, hpinFail⟩ := hnone l
  exact ⟨hpin, hpinFail, fun hm => hburst (.inl hm), fun hm => hburst (.inr hm)⟩

/-! ## What no step changes (10_state.md R20, R26, R28) -/

/-- The trace only grows. -/
theorem step_trace {s t : State} (h : step s = .next t) : ∃ events, t.trace = s.trace ++ events := by
  rcases step_next h with ⟨-, rfl⟩ | ⟨c, u, i, hfetch, -, hexec⟩ | ⟨c, u, e, hfetch, -, rfl⟩
  · exact ⟨[], by simp⟩
  · obtain ⟨events, htr, -⟩ := exec_events hexec
    exact ⟨events, by rw [htr, fetch_frame hfetch]⟩
  · exact ⟨[], by rw [returns_trace, fetch_frame hfetch]; simp⟩

/-- Settles O39: each clause is a frame of the step, and of the instruction. -/
theorem stepKeepsConfigurationAndHistory : Obligations.StepKeepsConfigurationAndHistory := by
  refine ⟨fun s t h => ⟨step_cfg h, step_trace h, fun hh => step_keeps_halted hh h⟩, fun i s t h hi => ?_⟩
  obtain ⟨-, -, -, -, hpx⟩ := exec_frame h
  exact hpx hi

end Sys2Proof.Machine
end

section
/-! Proofs of the statements about the invariants of a constructed block: every operation keeps each of them, so every
step does, and the reset state meets them (10_state.md). -/

namespace Sys2Proof.Machine

/-! ## The pixel store (10_state.md R36, 20_memory.md R50) -/

theorem writePixel_keeps_storeInv {s : State} (h : storeInv s) {k i : Nat} (v : Pixel) (hk : k < s.cfg.nFb)
    (hi : i < fbSize s.cfg) : storeInv (writePixel k i v s) := by
  obtain ⟨hwf, hcells⟩ := h
  refine ⟨Memory.wf_write _ _ hwf, fun c hc => ?_⟩
  rcases Memory.mem_write hc with rfl | hc
  · exact cellAddr_lt hk hi
  · exact hcells c hc

theorem clearPixels_keeps_storeInv {s : State} (h : storeInv s) {k : Nat} (v : Pixel) (hk : k < s.cfg.nFb) :
    storeInv (clearPixels k v s) := by
  obtain ⟨hwf, hcells⟩ := h
  refine ⟨Memory.wf_fill _ _ _ hwf, fun c hc => ?_⟩
  rcases Memory.mem_fill hc with ⟨hfirst, hlast⟩ | hc
  · obtain ⟨i, hi⟩ := Nat.exists_eq_add_of_le hfirst
    have hcell : c.1 = cellAddr s.cfg k i := by simpa [cellAddr] using hi
    have hsize : i < fbSize s.cfg := by omega
    exact hcell ▸ cellAddr_lt hk hsize
  · exact hcells c hc

/-- The checks put every cell that is written into a framebuffer that exists (42_framebuffer.md R130 to R132). -/
theorem prepare_keeps_storeInv {i : Instr} {s : State} (h : storeInv s) (hpre : preconditionError s i = none) :
    storeInv (prepare i s) := by
  obtain ⟨-, -, hbuffer, hrange⟩ := preconditionError_eq_none_iff.mp hpre
  cases i with
  | fbSetPixelXy k x y color =>
    obtain ⟨hx, hy⟩ : x.toNat < s.cfg.fbW ∧ y.toNat < s.cfg.fbH := by simpa [rangeError] using hrange
    exact writePixel_keeps_storeInv h color (of_decide_eq_true hbuffer) (pixelIndex_lt hx hy)
  | fbSetPixelRaw k offset color =>
    have hoffset : offset.toNat < s.cfg.fbW * s.cfg.fbH := by simpa [rangeError] using hrange
    exact writePixel_keeps_storeInv h color (of_decide_eq_true hbuffer) hoffset
  | fbClear k color => exact clearPixels_keeps_storeInv h color (of_decide_eq_true hbuffer)
  | _ => exact h

/-! ## The shadow window (10_state.md R21, R23, R30) -/

/-- A commit keeps the window's invariant, wherever the checks passed before the operation began. -/
theorem commitOf_keeps_windowInv {i : Instr} {s u : State} (hpre : preconditionError s i = none)
    (hcfg : u.cfg = s.cfg) (h : windowInv u) : windowInv (commitOf i u) := by
  obtain ⟨hvalid, hready, hopen⟩ := h
  cases i with
  | hardReset => exact ⟨nofun, nofun, nofun⟩
  | init => exact ⟨hvalid, nofun, nofun⟩
  | setOrientation => exact ⟨hvalid, hready, nofun⟩
  | setAddressWindow x0 y0 x1 y1 =>
    obtain ⟨-, -, -, hrange⟩ := preconditionError_eq_none_iff.mp hpre
    have hwindow : windowValid u.cfg ⟨x0, y0, x1, y1⟩ = true := by simpa [rangeError, windowValid, hcfg] using hrange
    exact ⟨fun w hw => Option.some.inj hw ▸ hwindow, fun _ => nofun, fun _ => rfl⟩
  | _ => exact ⟨hvalid, hready, hopen⟩

/-! ## The shape of the trace (40_protocol.md R107) -/

/-- A list of events has the shape of R107 after any event. -/
def ShapedAlone (cfg : Cfg) (es : List Event) : Prop := ∀ before, shapedFrom cfg before es = true

theorem ShapedAlone.append {cfg : Cfg} {es fs : List Event} (hes : ShapedAlone cfg es) (hfs : ShapedAlone cfg fs) :
    ShapedAlone cfg (es ++ fs) := fun before => by
  rw [shapedFrom_append, hes, hfs, Bool.and_self]

theorem ShapedAlone.flatMap {α : Type} {cfg : Cfg} {f : α → List Event} (h : ∀ a, ShapedAlone cfg (f a)) (l : List α) :
    ShapedAlone cfg (l.flatMap f) := by
  induction l with
  | nil => exact fun _ => rfl
  | cons a l ih => exact (h a).append ih

theorem shapedAlone_driveEvents (cfg : Cfg) (r : PinRole) (l : Level) : ShapedAlone cfg (driveEvents cfg r l) := by
  intro before
  unfold driveEvents
  split <;> rfl

theorem shapedAlone_waitEvents (cfg : Cfg) (t : Nat) : ShapedAlone cfg (waitEvents t) := by
  intro before
  unfold waitEvents
  split <;> rfl

theorem dcDataLevel_ne (cfg : Cfg) : dcDataLevel cfg ≠ cfg.dcCmdLevel := by
  unfold dcDataLevel
  cases cfg.dcCmdLevel <;> decide

theorem shapedAlone_commandEvents {cfg : Cfg} (h : cfg.dcRole = .present) (c : Byte) :
    ShapedAlone cfg (commandEvents cfg c) := by
  intro before
  simp [commandEvents_present h, shapedFrom, burstOf, burstFits]

theorem shapedAlone_dataEvents {cfg : Cfg} (h : cfg.dcRole = .present) {bs : List Byte} (hbs : bs ≠ []) :
    ShapedAlone cfg (dataEvents cfg bs) := by
  have hlength : 1 ≤ bs.length := List.length_pos_iff.mpr hbs
  intro before
  simp [dataEvents_present h, shapedFrom, burstOf, burstFits, hlength, dcDataLevel_ne]

theorem shapedAlone_initStepEvents {cfg : Cfg} (h : cfg.dcRole = .present) (st : InitStep) :
    ShapedAlone cfg (initStepEvents cfg st) := by
  have hdata : ShapedAlone cfg (if st.data = [] then [] else dataEvents cfg st.data) := by
    split
    · exact fun _ => rfl
    · next hne => exact shapedAlone_dataEvents h hne
  exact ((shapedAlone_commandEvents h st.cmd).append hdata).append (shapedAlone_waitEvents cfg st.waitUs)

/-- A view of a well-formed block has at least one pixel, so at least two bytes. -/
theorem view_ne_nil {s : State} (h : cfgWf s.cfg = true) (k : Nat) : (view s k).1 ≠ [] := by
  simp only [cfgWf, sizesWf, Bool.and_eq_true, decide_eq_true_eq] at h
  obtain ⟨⟨⟨⟨⟨-, hsizes⟩, -⟩, -⟩, -⟩, -⟩ := h
  obtain ⟨-, -, -, -, -, hw, hh, -⟩ := hsizes
  have hsize : 0 < fbSize s.cfg := Nat.mul_pos hw hh
  rw [← List.length_pos_iff, view_length]
  omega

/-- The event list of every operation has the shape of R107, whatever came before it. -/
theorem shapedAlone_plannedEvents {s : State} (h : cfgWf s.cfg = true) (i : Instr) :
    ShapedAlone s.cfg (plannedEvents s i) := by
  obtain ⟨hdc, -⟩ := cfgWf_commands h
  have hcommand := shapedAlone_commandEvents hdc
  have hdata (b : Byte) (more : List Byte) := shapedAlone_dataEvents hdc (List.cons_ne_nil b more)
  have hdrive := shapedAlone_driveEvents s.cfg
  have hwait := shapedAlone_waitEvents s.cfg
  cases i with
  | hardReset => exact (((hdrive _ _).append (hwait _)).append (hdrive _ _)).append (hwait _)
  | init => exact .flatMap (shapedAlone_initStepEvents hdc) _
  | setOrientation => exact (hcommand _).append (hdata _ _)
  | setAddressWindow =>
    exact ((((hcommand _).append (hdata _ _)).append (hcommand _)).append (hdata _ _)).append (hcommand _)
  | eatFramebuffer k => exact shapedAlone_dataEvents hdc (view_ne_nil h k.toNat)
  | setBacklight => exact hdrive _ _
  | fbSetPixelXy | fbSetPixelRaw | fbClear => exact fun _ => rfl
  | sendData => exact hdata _ _
  | _ => exact hcommand _

/-- Where an event fits, its failure does. -/
theorem shapedFrom_of_failsAs {cfg : Cfg} {before : Option Event} {e f : Event} {es : List Event} {r : Result}
    (hfail : failsAs e r f) (h : shapedFrom cfg before (e :: es) = true) : shapedFrom cfg before [f] = true := by
  cases e with
  | pin role level =>
    obtain ⟨-, rfl⟩ := hfail
    rfl
  | tx bs =>
    obtain ⟨-, k, hk, rfl⟩ := hfail
    simp only [shapedFrom, burstOf, Bool.and_eq_true] at h ⊢
    obtain ⟨⟨hburst, -⟩, -⟩ := h
    exact ⟨⟨hburst, decide_eq_true hk⟩, trivial⟩
  | pinFail | wait | txFail => exact hfail.elim

/-- An event list that stops at an event that fails has the shape of the whole one. -/
theorem ShapedAlone.take_failed {cfg : Cfg} {es : List Event} {n : Nat} {e f : Event} {r : Result}
    (h : ShapedAlone cfg es) (hn : es[n]? = some e) (hfail : failsAs e r f) : ShapedAlone cfg (es.take n ++ [f]) := by
  intro before
  obtain ⟨hlt, rfl⟩ := List.getElem?_eq_some_iff.mp hn
  have hwhole := h before
  rw [← List.take_append_drop n es, List.drop_eq_getElem_cons hlt, shapedFrom_append, Bool.and_eq_true] at hwhole
  obtain ⟨htake, hrest⟩ := hwhole
  rw [shapedFrom_append, htake, shapedFrom_of_failsAs hfail hrest, Bool.and_self]

theorem ShapedAlone.traceInv {s t : State} {es : List Event} (hes : ShapedAlone s.cfg es) (hcfg : t.cfg = s.cfg)
    (htr : t.trace = s.trace ++ es) (h : traceInv s) : traceInv t := by
  unfold Machine.traceInv at h ⊢
  rw [hcfg, htr, shapedFrom_append, h, hes, Bool.and_self]

/-! ## The latches and the failures (10_state.md R25, R26, R28) -/

theorem exec_keeps_latchInv {i : Instr} {s t : State} (h : latchInv s) (hexec : exec i s = .next t) : latchInv t := by
  obtain ⟨events, htr, hl, -⟩ := exec_events hexec
  intro r
  rw [hl, h, htr, latchAfter_append]

theorem failureFree_plannedEvents (i : Instr) (s : State) : failureFree (plannedEvents s i) = true := by
  refine List.all_eq_true.mpr fun e he => ?_
  cases e with
  | pinFail r l => exact absurd he (pinFail_notMem_plannedEvents i s r l)
  | txFail bs k => exact absurd he (txFail_notMem_plannedEvents i s bs k)
  | pin | wait | tx => rfl

/-! ## Instructions and steps -/

/-- What the invariants of the store and the window read is left alone by the primitives of an operation. -/
theorem ActionFrame.storeInv {s t : State} (hf : ActionFrame s t) (h : storeInv s) : storeInv t := by
  unfold Machine.storeInv
  rw [hf.cfg, hf.px]
  exact h

theorem ActionFrame.windowInv {s t : State} (hf : ActionFrame s t) (h : windowInv s) : windowInv t := by
  unfold Machine.windowInv
  rw [hf.cfg, hf.win, hf.ds, hf.ramwrOpen]
  exact h

/-- Every instruction keeps every invariant: a failed check changes the result alone, a run that completes adds its
event list and commits, and a run that fails adds its events up to the failure and halts the block. -/
theorem exec_keeps_blockInv {i : Instr} {s t : State} (h : blockInv s) (hexec : exec i s = .next t) : blockInv t := by
  have hcfg : t.cfg = s.cfg := (exec_frame hexec).1
  have hlatch : latchInv t := exec_keeps_latchInv h.latch hexec
  have hshaped := shapedAlone_plannedEvents h.cfg i
  have hwindow : windowInv (prepare i s) := by
    rw [prepare_frame]
    exact h.window
  rcases exec_next hexec with ⟨r, -, rfl⟩ | ⟨hpre, u, hf, htr, -, -, rfl⟩ |
    ⟨hpre, u, r, n, e, f, hf, hn, hfail, htr, -, rfl⟩
  · exact ⟨h.cfg, h.store, h.window, hlatch, h.shape, h.halt⟩
  · have hstore : storeInv (commitOf i u) := by
      rw [commitOf_frame]
      exact hf.storeInv (prepare_keeps_storeInv h.store hpre)
    have hcommit := commitOf_keeps_windowInv hpre (hf.cfg.trans (prepare_cfg i s)) (hf.windowInv hwindow)
    refine ⟨hcfg ▸ h.cfg, hstore, hcommit, hlatch, hshaped.traceInv hcfg (by simp [htr]) h.shape, fun hh => ?_⟩
    have hbefore : failureFree s.trace = true := h.halt (by simpa [hf.halted] using hh)
    simp [htr, failureFree_append, hbefore, failureFree_plannedEvents]
  · exact ⟨hcfg ▸ h.cfg, hf.storeInv (prepare_keeps_storeInv h.store hpre), hf.windowInv hwindow, hlatch,
      (hshaped.take_failed hn hfail).traceInv hcfg (by simp [htr]) h.shape, nofun⟩

/-- The invariants read neither what is still to run nor the result. -/
theorem blockInv_of_fetch {s u : State} {c : Code} (hfetch : fetch s = some (c, u)) (h : blockInv s) : blockInv u := by
  rw [fetch_frame hfetch]
  exact ⟨h.cfg, h.store, h.window, h.latch, h.shape, h.halt⟩

/-- Settles O40: a step takes a code, which no invariant reads, and runs one instruction or hands over one result. -/
theorem stepKeepsBlockInvariant : Obligations.StepKeepsBlockInvariant := by
  intro s t h hstep
  rcases step_next hstep with ⟨-, rfl⟩ | ⟨c, u, i, hfetch, -, hexec⟩ | ⟨c, u, e, hfetch, -, rfl⟩
  · exact h
  · exact exec_keeps_blockInv (blockInv_of_fetch hfetch h) hexec
  · have hu := blockInv_of_fetch hfetch h
    exact ⟨hu.cfg, hu.store, hu.window, hu.latch, hu.shape, hu.halt⟩

/-- Settles O42: the model's own configuration is well formed. -/
theorem resetMeetsBlockInvariant : Obligations.ResetMeetsBlockInvariant := by
  have hwf : cfgWf Cfg.default = true := by decide
  exact ⟨construct_of_cfgWf hwf, initial_blockInv hwf⟩

end Sys2Proof.Machine
end
